-- ==== Sys2Proof/Word.lean ====
section
/-! DEFINITION. The words of KSO-CORE: the 32-bit bus word, a byte lane, a binary32 pattern and a
20-bit host byte address (spec/00_scope.md R10, R12; spec/20_memory.md R60, R63). -/

namespace Sys2Proof

/-- One byte lane of a bus word (R63). -/
abbrev Byte := BitVec 8

/-- A 32-bit word: a register, a sample-RAM word or a command word (R10, R21). -/
abbrev Word := BitVec 32

/-- An IEEE 754 binary32 value held as its bit pattern: sign in bit 31, exponent in bits 30:23,
fraction in bits 22:0 (R12, R63). -/
abbrev F32 := BitVec 32

/-- A byte offset from KSO_BASE in the 2^20-byte host address space (R60, R61). -/
abbrev HostAddr := BitVec 20

end Sys2Proof
end

