-- ==== Sys2Proof/Machine/Banks.lean ====
section
/-! DEFINITION. Fixed numbers of like units: a left and right pair, the 8 early combs and the 4 late
combs of a channel (spec/10_state.md R40 to R43), and the ways the rules run through them. -/

namespace Sys2Proof.Machine

/-- One unit for each channel c in L, R. -/
structure Stereo (α : Type) where
  l : α
  r : α
  deriving DecidableEq, Repr, Inhabited

/-- Eight units, j = 0 to 7. -/
structure Eight (α : Type) where
  c0 : α
  c1 : α
  c2 : α
  c3 : α
  c4 : α
  c5 : α
  c6 : α
  c7 : α
  deriving DecidableEq, Repr, Inhabited

/-- Four units, j = 0 to 3. -/
structure Four (α : Type) where
  c0 : α
  c1 : α
  c2 : α
  c3 : α
  deriving DecidableEq, Repr, Inhabited

section
variable {α β γ : Type}

/-- The same unit in both channels. -/
def Stereo.both (a : α) : Stereo α := ⟨a, a⟩
def Stereo.map (f : α → β) (s : Stereo α) : Stereo β := ⟨f s.l, f s.r⟩
def Stereo.toList (s : Stereo α) : List α := [s.l, s.r]

def Eight.replicate (a : α) : Eight α := ⟨a, a, a, a, a, a, a, a⟩
def Eight.map (f : α → β) (v : Eight α) : Eight β :=
  ⟨f v.c0, f v.c1, f v.c2, f v.c3, f v.c4, f v.c5, f v.c6, f v.c7⟩
/-- Unit j of the result is made from unit j of both banks. -/
def Eight.zipWith (f : α → β → γ) (u : Eight α) (v : Eight β) : Eight γ :=
  ⟨f u.c0 v.c0, f u.c1 v.c1, f u.c2 v.c2, f u.c3 v.c3,
   f u.c4 v.c4, f u.c5 v.c5, f u.c6 v.c6, f u.c7 v.c7⟩
def Eight.toList (v : Eight α) : List α := [v.c0, v.c1, v.c2, v.c3, v.c4, v.c5, v.c6, v.c7]
/-- Runs the units in ascending j, handing a value from each to the next: the loops of R161. -/
def Eight.thread (f : β → α → β × α) (b : β) (v : Eight α) : β × Eight α :=
  let t0 := f b v.c0
  let t1 := f t0.1 v.c1
  let t2 := f t1.1 v.c2
  let t3 := f t2.1 v.c3
  let t4 := f t3.1 v.c4
  let t5 := f t4.1 v.c5
  let t6 := f t5.1 v.c6
  let t7 := f t6.1 v.c7
  (t7.1, ⟨t0.2, t1.2, t2.2, t3.2, t4.2, t5.2, t6.2, t7.2⟩)

def Four.replicate (a : α) : Four α := ⟨a, a, a, a⟩
def Four.map (f : α → β) (v : Four α) : Four β := ⟨f v.c0, f v.c1, f v.c2, f v.c3⟩
/-- Unit j of the result is made from unit j of both banks. -/
def Four.zipWith (f : α → β → γ) (u : Four α) (v : Four β) : Four γ :=
  ⟨f u.c0 v.c0, f u.c1 v.c1, f u.c2 v.c2, f u.c3 v.c3⟩
def Four.toList (v : Four α) : List α := [v.c0, v.c1, v.c2, v.c3]
/-- Runs the units in ascending j, handing a value from each to the next: the loops of R161. -/
def Four.thread (f : β → α → β × α) (b : β) (v : Four α) : β × Four α :=
  let t0 := f b v.c0
  let t1 := f t0.1 v.c1
  let t2 := f t1.1 v.c2
  let t3 := f t2.1 v.c3
  (t3.1, ⟨t0.2, t1.2, t2.2, t3.2⟩)

end

end Sys2Proof.Machine
end

