-- ==== Sys2Proof/Machine/Constants.lean ====
section
/-! DEFINITION. The normative constants of R8 (spec/00_scope.md), each with the bit pattern the rule
prints, and the binary32 constants that the pseudocode of the rules writes as real numbers (R12). -/

namespace Sys2Proof.Machine

/-- The binary32 numbers written out in the pseudocode of R115, R118, R130, R142, R157 and R160. -/
def f0 : F32 := 0x00000000#32
def fHalf : F32 := 0x3F000000#32
def f1 : F32 := 0x3F800000#32
def f1p5 : F32 := 0x3FC00000#32
def f2 : F32 := 0x40000000#32
def f2p5 : F32 := 0x40200000#32
def fMinus1 : F32 := 0xBF800000#32
def fMinus2 : F32 := 0xC0000000#32
def fInf : F32 := 0x7F800000#32

/-- 2^31. A binary32 number is at least 2147483647 exactly when it is at least 2^31 (R100). -/
def fTwo31 : F32 := 0x4F000000#32

/-- NUM_EARLY (R8). -/
def numEarly : Nat := 8
/-- NUM_LATE (R8). -/
def numLate : Nat := 4
/-- PREGAIN = 0.1 /f 12 (R8). -/
def pregain : F32 := 0x3C088889#32
/-- LATE_FB = 0.5 (R8). -/
def lateFb : F32 := 0x3F000000#32
/-- OUT_LIMIT = 1.2 (R8). -/
def outLimit : F32 := 0x3F99999A#32
/-- The lower output bound, -1.2 (R8). -/
def outLimitNeg : F32 := 0xBF99999A#32
/-- MAX_CAP_SECONDS (R8, R110). -/
def maxCapSeconds : Nat := 600
/-- COMB_CAP_S: the capacity of a doubler line in seconds (R8). -/
def combCapS : Nat := 1
/-- REV_CAP_S: the capacity of a reverb line in seconds (R8). -/
def revCapS : Nat := 1
/-- COMB_SMOOTH_S = 0.03 (R8). -/
def combSmoothS : F32 := 0x3CF5C28F#32
/-- W_SCALE = 0.5 (R8, R160). -/
def wScale : F32 := 0x3F000000#32
/-- PI32 (R142). -/
def pi32 : F32 := 0x40490FDB#32
/-- The least binary32 number that is not below pi/2: 1.57079637..., the nearest one to
1.57079632... (item I2 of spec/93_implementation_defined.md). -/
def halfPiUp : F32 := 0x3FC90FDB#32
/-- The value of the ID register (R22). -/
def idValue : Word := 0x4B534F07#32
/-- The host byte address of sample-RAM word 0 (R61). -/
def ramBase : Nat := 0x1000

end Sys2Proof.Machine
end

