-- ==== Sys2Proof/Machine/Float.lean ====
section
/-! DEFINITION. Binary32 arithmetic as R12 fixes it (round to nearest, ties to even; no fused
operation; subnormals kept) and the helpers of R14 and R15 (spec/00_scope.md).

A finite number is read as an exact integer count of units of 2^-149, the value of the least
subnormal. Every operation computes the exact result and rounds once, in `roundMag`. -/

namespace Sys2Proof.Machine

/-- The sign bit (R63). -/
def signBit (x : F32) : Bool := decide (2 ^ 31 ≤ x.toNat)

/-- The pattern without its sign bit, as a number. Patterns without a sign are in the order of the
values they stand for. -/
def magBits (x : F32) : Nat := x.toNat % 2 ^ 31

/-- The pattern of +infinity as a number. -/
def infMag : Nat := 0x7F800000

/-- isNaN (R14). -/
def isNaN (x : F32) : Bool := decide (infMag < magBits x)

/-- Whether x is an infinity. -/
def isInf (x : F32) : Bool := magBits x == infMag

/-- Whether x is +0.0 or -0.0. -/
def isZero (x : F32) : Bool := magBits x == 0

/-- Whether x is neither an infinity nor a NaN. -/
def isFinite (x : F32) : Bool := decide (magBits x < infMag)

/-- The one NaN that an operation of this model answers (R13: the payload is never observable). -/
def nan32 : F32 := 0x7FC00000#32

/-- What finite magnitude bits stand for, in units of 2^-149 (R63: exponent in bits 30:23, fraction
in bits 22:0; an exponent field of 0 is a subnormal). -/
def magUnits (m : Nat) : Nat :=
  let e := m / 2 ^ 23
  if e = 0 then m else (2 ^ 23 + m % 2 ^ 23) * 2 ^ (e - 1)

/-- The magnitude of a finite x in units of 2^-149. -/
def units (x : F32) : Nat := magUnits (magBits x)

/-- The value of a finite x in units of 2^-149. -/
def intValue (x : F32) : Int := if signBit x then -(units x : Int) else (units x : Int)

/-- The pattern with the given sign and magnitude bits. -/
def withSign (neg : Bool) (m : Nat) : F32 := BitVec.ofNat 32 (if neg then 2 ^ 31 + m else m)

/-- `n / d` rounded to the nearest integer, ties to even. -/
def nearestEven (n d : Nat) : Nat :=
  let q := n / d
  let r := n % d
  if 2 * r < d then q else if d < 2 * r then q + 1 else if q % 2 = 0 then q else q + 1

/-- The magnitude bits of the binary32 number nearest to `num / den` units of 2^-149, ties to even,
overflowing to infinity (R12). Below 2^24 units the spacing of binary32 is one unit; above, it is
`2^s` units with 24 significant bits. -/
def roundMag (num den : Nat) : Nat :=
  let s := Nat.log2 (num / den) - 23
  min (s * 2 ^ 23 + nearestEven num (den * 2 ^ s)) infMag

/-- Negation flips the sign bit. -/
def fNeg (x : F32) : F32 := withSign (!signBit x) (magBits x)

/-- `x +f y` (R12). An exact sum of zero is +0.0 unless both operands are negative. -/
def fAdd (x y : F32) : F32 :=
  if isNaN x || isNaN y then nan32
  else if isInf x then (if isInf y && signBit x != signBit y then nan32 else x)
  else if isInf y then y
  else
    let v := intValue x + intValue y
    if v = 0 then withSign (signBit x && signBit y) 0
    else withSign (decide (v < 0)) (roundMag v.natAbs 1)

/-- `x -f y` (R12). -/
def fSub (x y : F32) : F32 := fAdd x (fNeg y)

/-- `x *f y` (R12). -/
def fMul (x y : F32) : F32 :=
  let neg := signBit x != signBit y
  if isNaN x || isNaN y then nan32
  else if isInf x then (if isZero y then nan32 else withSign neg infMag)
  else if isInf y then (if isZero x then nan32 else withSign neg infMag)
  else withSign neg (roundMag (units x * units y) (2 ^ 149))

/-- `x /f y` (R12). -/
def fDiv (x y : F32) : F32 :=
  let neg := signBit x != signBit y
  if isNaN x || isNaN y then nan32
  else if isInf x then (if isInf y then nan32 else withSign neg infMag)
  else if isInf y then withSign neg 0
  else if isZero y then (if isZero x then nan32 else withSign neg infMag)
  else withSign neg (roundMag (units x * 2 ^ 149) (units y))

/-- The place of a number in the order of the binary32 numbers; both zeros stand at 0. -/
def orderKey (x : F32) : Int := if signBit x then -(magBits x : Int) else (magBits x : Int)

/-- IEEE `x < y`: false where an operand is NaN. -/
def fLt (x y : F32) : Bool := !isNaN x && !isNaN y && decide (orderKey x < orderKey y)

/-- IEEE `x <= y`: false where an operand is NaN. -/
def fLe (x y : F32) : Bool := !isNaN x && !isNaN y && decide (orderKey x ≤ orderKey y)

/-- IEEE `x == y`: false where an operand is NaN, and +0.0 equals -0.0. -/
def fEq (x y : F32) : Bool := !isNaN x && !isNaN y && decide (orderKey x = orderKey y)

/-- The binary32 number nearest to `±num/den`, ties to even: a real constant of the pseudocode (R12)
or of a host script (R87). -/
def fOfRatio (neg : Bool) (num den : Nat) : F32 := withSign neg (roundMag (num * 2 ^ 149) den)

/-- toF32 (R14): conversion of a non-negative integer, exact up to 2^24, where it is f32. -/
def toF32 (n : Nat) : F32 := fOfRatio false n 1

/-- floorI (R14): the greatest integer not above a finite x. It is reached with a finite x only. -/
def floorI (x : F32) : Int := intValue x / (2 ^ 149 : Nat)

/-- clampF (R14). -/
def clampF (x lo hi : F32) : F32 :=
  if isNaN x then lo else if fLt x lo then lo else if fLt hi x then hi else x

/-- linearMap (R15). -/
def linearMap (t outMin outMax : F32) : F32 := fAdd outMin (fMul t (fSub outMax outMin))

end Sys2Proof.Machine
end

