-- ==== Sys2Proof/Config.lean ====
section
/-! DEFINITION. The configuration record of KSO-CORE (spec/00_scope.md R8;
spec/92_eei_decisions.md section 2): every OPEN parameter is a field, and every constraint of R9 is
a check. The machine runs on `Config.kso`, about which Lean knows only that it is well formed. -/

namespace Sys2Proof

open Machine

/-- The interpolation modes of a delay line (R8, R115). -/
inductive Interp where
  | none
  | linear
  | cubic
  deriving DecidableEq, Repr, Inhabited

/-- One row of MAP (R8, R181). -/
structure MapRow where
  curve : F32
  outMin : F32
  outMax : F32
  deriving DecidableEq, Repr, Inhabited

/-- The twelve mapped parameters (R181). -/
inductive Mapped where
  | dblFreq | dblFeedback | dblWet
  | lpCutoff | lpQ | hpCutoff | hpQ
  | revDamping | revSize | revMix | revWidth | revSpread
  deriving DecidableEq, Repr

/-- The configuration record of R8. `expr` and `tan32` are the functions EXPR and TAN32. `ksoBase`
and `ksoIrqLine` are the platform's (R61, R222): every address of this model is an offset from
`ksoBase`, and no rule reads either. -/
structure Params where
  maxSr : Nat
  sampleRamWords : Nat
  earlySeedS : Eight F32
  lateSeedS : Four F32
  revSmoothS : F32
  revTimeSmoothS : F32
  revInterp : Interp
  revMixCurve : F32
  dblInterp : Interp
  dblOffsetLHz : F32
  dblOffsetRHz : F32
  map : Mapped → MapRow
  expr : F32 → F32 → F32
  tan32 : F32 → F32
  bqFminHz : F32
  bqFmaxFrac : F32
  bqQmin : F32
  bqQmax : F32
  ksoBase : Nat
  ksoIrqLine : Nat
  deriving Inhabited

/-- The platform byte address of a host address (R61: KSO_BASE is OPEN). -/
def Params.platformAddress (p : Params) (a : HostAddr) : Nat := p.ksoBase + a.toNat

/-- `1 ≤ MAX_SR and MAX_SR × max(COMB_CAP_S, REV_CAP_S) ≤ 2^24` (R8, D4). -/
def Params.maxSrOk (p : Params) : Bool :=
  decide (1 ≤ p.maxSr) && decide (p.maxSr * max combCapS revCapS ≤ 2 ^ 24)

/-- `2 ≤ SAMPLE_RAM_WORDS ≤ 261120` (R8, D44). -/
def Params.sampleRamOk (p : Params) : Bool :=
  decide (2 ≤ p.sampleRamWords) && decide (p.sampleRamWords ≤ 261120)

/-- Every seed time is at least 0 (R8, D23). -/
def Params.seedsOk (p : Params) : Bool :=
  p.earlySeedS.toList.all (fLe f0) && p.lateSeedS.toList.all (fLe f0)

/-- `REV_SMOOTH_S ≥ 0` and `REV_TIME_SMOOTH_S ≥ 0` (R8, D24). -/
def Params.revSmoothOk (p : Params) : Bool := fLe f0 p.revSmoothS && fLe f0 p.revTimeSmoothS

/-- `BQ_FMIN_HZ > 0` (R8, D16). -/
def Params.fminOk (p : Params) : Bool := fLt f0 p.bqFminHz

/-- `0 < BQ_FMAX_FRAC < 0.5` (R8, D16). -/
def Params.fmaxOk (p : Params) : Bool := fLt f0 p.bqFmaxFrac && fLt p.bqFmaxFrac fHalf

/-- `0 < BQ_QMIN ≤ BQ_QMAX` (R8, D16). -/
def Params.qOk (p : Params) : Bool := fLt f0 p.bqQmin && fLe p.bqQmin p.bqQmax

/-- The argument of TAN32 at the upper cutoff clamp stays below pi/2 at every rate in [1, MAX_SR]:
a configuration where it does not is refused (item I2 of spec/93_implementation_defined.md). -/
def Params.tanArgOk (p : Params) : Bool :=
  (List.range p.maxSr).all fun k =>
    fLt (fDiv (fMul pi32 (fMul p.bqFmaxFrac (toF32 (k + 1)))) (toF32 (k + 1))) halfPiUp

/-- A configuration is well formed when every constraint of R8 holds (R9), and item I2's. -/
def Params.wf (p : Params) : Bool :=
  p.maxSrOk && p.sampleRamOk && p.seedsOk && p.revSmoothOk && p.fminOk && p.fmaxOk && p.qOk &&
    p.tanArgOk

/-- R9: an ill-formed configuration is refused and gets no meaning. -/
def Params.checked (p : Params) : Option Params := if p.wf then some p else none

/-- A small well-formed configuration. It stands only where the supplied one is refused, so that the
machine's configuration is always well formed; nothing can be proved to rest on it, because nothing
is known of `Config.supplied`. -/
def Config.fallback : Params where
  maxSr := 1
  sampleRamWords := 2
  earlySeedS := Eight.replicate f0
  lateSeedS := Four.replicate f0
  revSmoothS := f0
  revTimeSmoothS := f0
  revInterp := .none
  revMixCurve := f1
  dblInterp := .none
  dblOffsetLHz := f0
  dblOffsetRHz := f0
  map := fun _ => ⟨f1, f1, f1⟩
  expr := fun a _ => a
  tan32 := fun x => x
  bqFminHz := f1
  bqFmaxFrac := 0x3E800000#32
  bqQmin := f1
  bqQmax := f1
  ksoBase := 0
  ksoIrqLine := 0

/-- The configuration the implementer of a KSO-CORE supplies: an uninterpreted constant, so that
whatever is proved holds for every choice of the OPEN parameters (R8). -/
opaque Config.supplied : Params

/-- The configuration of the machine: the supplied one, which is any well-formed one (R8, R9). -/
def Config.kso : Params := Config.supplied.checked.getD Config.fallback

/-- What byte lane `addr` of the sample RAM holds after the `epoch`-th RESET while no write has
reached it: an unconstrained draw, independent for each byte and each RESET (R45, R242; item I4 of
spec/93_implementation_defined.md). -/
opaque Config.ramDraw : (epoch : Nat) → (addr : Nat) → Byte

end Sys2Proof
end

