-- ==== Sys2Proof/Syntax.lean ====
section
/-! DEFINITION. The commands of KSO-CORE, one constructor per row of spec/opcode_table.json
(spec/30_encoding.md R83), and what reaches the core from outside: the register names
(spec/10_state.md R21), one host bus access (spec/20_memory.md R61, R62) and one event of the total
order of steps (R64, R65; spec/70_reset_and_hazards.md R240). -/

namespace Sys2Proof

/-- The four commands of R83. No command word carries an operand (R81): each command takes its
operands from fixed host registers, which are part of the state. -/
inductive Instr where
  /-- NOP, word 0x00000000 (R195). -/
  | nop
  /-- PREPARE, word 0x00000001 (R196). -/
  | prepare
  /-- SET_PARAMETERS, word 0x00000002 (R197, R198). -/
  | setParameters
  /-- PROCESS, word 0x00000003 (R199). -/
  | process
  deriving DecidableEq, Repr

/-- The 14 registers of the register block (R21). -/
inductive Reg where
  | id | ctrl | status | cmd | sampleRate
  | macroDoubler | macroFilter | macroReverb | macroMaster
  | numSamples | leftBase | rightBase | activeRate | frameIndex
  deriving DecidableEq, Repr

/-- Whether a host access reads or writes. -/
inductive AccessKind where
  | read
  | write
  deriving DecidableEq, Repr

/-- One host bus access (R20): its kind, its width in bits, its byte offset in the host address
space, and the data of a write (unused by a read). Only 32-bit accesses are admitted (R62), so one
word of data is all an admitted write carries. -/
structure Access where
  kind : AccessKind
  width : Nat
  addr : HostAddr
  data : Word
  deriving DecidableEq, Repr

/-- One event of the total order in which host accesses and core steps happen (R64, R65). -/
inductive Event where
  /-- A host agent performs one bus access. -/
  | bus (a : Access)
  /-- The core sequencer takes a step, if one is enabled (R20). -/
  | core
  /-- The platform raises RESET (R240). -/
  | hardReset
  deriving DecidableEq, Repr

end Sys2Proof
end

