-- ==== Sys2Proof/WellFormed.lean ====
section
/-! DEFINITION. Well-formedness of what enters the machine: an instruction (spec/30_encoding.md
R81: no command carries an operand, so none can be ill formed) and a host access
(spec/20_memory.md R62). The checks on the configuration (spec/00_scope.md R9) stand in
Config.lean beside the record. -/

namespace Sys2Proof

/-- No command word carries an immediate, a register number or a mode field (R81), so every command
is well formed. -/
def Instr.wf : Instr → Bool
  | .nop => true
  | .prepare => true
  | .setParameters => true
  | .process => true

/-- The width check of R62. -/
def Access.widthOk (a : Access) : Bool := a.width == 32

/-- The alignment check of R62. -/
def Access.alignOk (a : Access) : Bool := a.addr.toNat % 4 == 0

/-- A host access is admitted only when it is 32 bits wide and its byte address is a multiple of 4
(R62). -/
def Access.wf (a : Access) : Bool := a.widthOk && a.alignOk

end Sys2Proof
end

