-- ==== Sys2Proof/Decode.lean ====
section
/-! DEFINITION. The command decoder of spec/30_encoding.md R80 to R86, total on every word and every
list of bytes, and the encoder written from the same map (R83). -/

namespace Sys2Proof

/-- What the decoder answers (R86): a command, or ILLEGAL with the reason. -/
inductive Decoded where
  /-- The word is one of the four commands (R83). -/
  | command (i : Instr)
  /-- ILLEGAL: RSV, bits 31:4, is not zero (R84). -/
  | reservedBits
  /-- ILLEGAL: OP, bits 3:0, is in [0x4, 0xF] (R84). -/
  | reservedOpcode
  /-- The bytes are not the four lanes of one 32-bit word (R86: every command has one length). -/
  | notOneWord
  deriving DecidableEq, Repr

/-- OP, bits 3:0 of a command word (R80). -/
def opField (w : Word) : Nat := w.toNat % 16

/-- RSV, bits 31:4 of a command word (R80). -/
def rsvField (w : Word) : Nat := w.toNat / 16

/-- The decoder of R86. -/
def decode (w : Word) : Decoded :=
  if rsvField w ≠ 0 then .reservedBits
  else match opField w with
    | 0 => .command .nop
    | 1 => .command .prepare
    | 2 => .command .setParameters
    | 3 => .command .process
    | _ => .reservedOpcode

/-- The word whose byte lanes 0 to 3 are given: little-endian (R63). -/
def wordOfBytes (b0 b1 b2 b3 : Byte) : Word :=
  BitVec.ofNat 32 (b0.toNat + 2 ^ 8 * b1.toNat + 2 ^ 16 * b2.toNat + 2 ^ 24 * b3.toNat)

/-- Byte lane j of a word, bits [8j+7 : 8j] (R63). -/
def byteLane (w : Word) (j : Nat) : Byte := BitVec.ofNat 8 (w.toNat / 2 ^ (8 * j))

/-- The byte lanes of a word, lane 0 first (R63). -/
def bytesOfWord (w : Word) : List Byte := [byteLane w 0, byteLane w 1, byteLane w 2, byteLane w 3]

/-- The decoder on the byte lanes of a written word, lane 0 first; any other number of bytes is
rejected. -/
def decodeBytes : List Byte → Decoded
  | [b0, b1, b2, b3] => decode (wordOfBytes b0 b1 b2 b3)
  | _ => .notOneWord

/-- The command word of a command (R83). -/
def encode : Instr → Word
  | .nop => 0x00000000#32
  | .prepare => 0x00000001#32
  | .setParameters => 0x00000002#32
  | .process => 0x00000003#32

/-- The word of a table row: the low `nbits` bits of w, every bit above them 0. -/
def tableWord (nbits w : Nat) : Word := BitVec.ofNat 32 (w % 2 ^ nbits)

/-- The command the decoder reads from the byte lanes of a table row's word. -/
def decodeTableWord (nbits w : Nat) : Option Instr :=
  match decodeBytes (bytesOfWord (tableWord nbits w)) with
  | .command i => some i
  | .reservedBits => none
  | .reservedOpcode => none
  | .notOneWord => none

end Sys2Proof
end

