-- ==== Sys2Proof/Machine/State.lean ====
section
/-! DEFINITION. The state of KSO-CORE (spec/10_state.md), its reset value (spec/70_reset_and_hazards.md
R240, R241), and why a step can stop (spec/60_exceptions.md R217). -/

namespace Sys2Proof.Machine

/-- Why a run stops with a host fault (R217). No other condition faults. -/
inductive Fault where
  /-- BUS_ERROR: raised by a host access that is not 32 bits wide or not aligned (R62). The hardware
  drops the write or answers the read with 0 and changes no state; the spec's claims stop at that
  access, and so does the model. Safe. -/
  | busError (addr : HostAddr) (width : Nat) (kind : AccessKind)
  /-- RAM_RACE: raised by a host access to sample-RAM word k of the running PROCESS's buffers while
  BUSY = 1 (R68). The hardware gives the run no final state. Safe. -/
  | ramRace (k : Nat) (kind : AccessKind)
  deriving DecidableEq, Repr

/-- Why a step has no meaning. -/
inductive Refusal where
  /-- Raised by an arm of `exec` whose instruction has no meaning yet. Safe. No arm of this model
  answers it. -/
  | notModelled (mnemonic : String)
  deriving DecidableEq, Repr

/-- The command outcome codes of STATUS.ERR (R215). Codes 7 to 15 are never written by the hardware
and have no name here (item I7 of spec/93_implementation_defined.md). -/
inductive ErrCode where
  /-- NONE, code 0: the command was accepted. -/
  | noError
  /-- ILLEGAL_CMD, code 1. -/
  | illegalCmd
  /-- BUSY, code 2. -/
  | busy
  /-- NOT_PREPARED, code 3. -/
  | notPrepared
  /-- BAD_RATE, code 4. -/
  | badRate
  /-- CAPACITY, code 5. -/
  | capacity
  /-- BAD_ADDR, code 6. -/
  | badAddr
  deriving DecidableEq, Repr

/-- A smoother (R38). -/
structure Smoother where
  cur : F32
  tgt : F32
  cnt : Nat
  steps : Nat
  stp : F32
  deriving DecidableEq, Repr

/-- A delay line (R39). `buf` lists the slots that do not hold +0.0, by rising slot number; a slot
that is not listed holds +0.0. `phys` is a constant, `physSlots` below. -/
structure DelayLine where
  cap : Nat
  buf : List (Nat × F32)
  w : Nat
  rate : Nat
  lastSm : F32
  dly : Smoother
  deriving DecidableEq, Repr

/-- The doubler of one channel (R40). -/
structure Doubler where
  line : DelayLine
  fb : F32
  wet : F32
  mode : Interp
  deriving DecidableEq, Repr

/-- The constant type of a biquad (R41). -/
inductive FilterType where
  | lp
  | hp
  deriving DecidableEq, Repr

/-- The five coefficients of a biquad (R41, R142). -/
structure Coefs where
  a0 : F32
  a1 : F32
  a2 : F32
  b1 : F32
  b2 : F32
  deriving DecidableEq, Repr

/-- A biquad (R41). `type` is constant: nothing writes it. -/
structure Biquad where
  type : FilterType
  cutoff : F32
  q : F32
  enabled : Bool
  coefs : Coefs
  coefRate : F32
  z1 : F32
  z2 : F32
  deriving DecidableEq, Repr

/-- An early comb of the reverb (R42). -/
structure EarlyComb where
  line : DelayLine
  store : F32
  deriving DecidableEq, Repr

/-- A late comb of the reverb (R43). -/
structure LateComb where
  line : DelayLine
  deriving DecidableEq, Repr

/-- The reverb engine (R42 to R44). -/
structure Reverb where
  early : Stereo (Eight EarlyComb)
  late : Stereo (Four LateComb)
  damping : F32
  size : F32
  mix : F32
  width : F32
  spread : F32
  wet : F32
  sDamp : Smoother
  sFb : Smoother
  sDry : Smoother
  sW1 : Smoother
  sW2 : Smoother
  deriving DecidableEq, Repr

/-- The datapath: two doublers, four biquads and the reverb (R40 to R44). -/
structure Datapath where
  dbl : Stereo Doubler
  lp : Stereo Biquad
  hp : Stereo Biquad
  rev : Reverb
  deriving DecidableEq, Repr

/-- Four macro amounts (R35). -/
structure Amounts where
  dbl : F32
  flt : F32
  rev : F32
  mst : F32
  deriving DecidableEq, Repr

/-- The latched operands and the progress of the running PROCESS (R36). `i` is the frame index, the
core's nearest analogue of a program counter (R33). -/
structure Run where
  n : Nat
  lb : Nat
  rb : Nat
  i : Nat
  deriving DecidableEq, Repr

/-- Byte lanes of the sample RAM by host byte address, rising: the bytes that a write has reached
since the last RESET. -/
abbrev Memory := List Host.Cell

/-- The state of the machine (spec/10_state.md), and three fields of the model: `ramEpoch`, the
number of RESETs so far, which selects the draws of the unwritten sample RAM; `busData`, the word
the latest host read returned; and `sched`, the events still to come, in their total order. -/
structure State where
  /-- CTRL.IRQ_EN (R23, R37). -/
  irqEn : Bool
  /-- STATUS.DONE (R24, R37). -/
  done : Bool
  /-- STATUS.ERR (R24, R37, R215). -/
  err : ErrCode
  /-- The counter FRAME_INDEX reads (R31, R37). -/
  fidx : Nat
  /-- SAMPLE_RATE (R26). -/
  sampleRate : Word
  /-- MACRO_DOUBLER (R27). -/
  macroDoubler : Word
  /-- MACRO_FILTER (R27). -/
  macroFilter : Word
  /-- MACRO_REVERB (R27). -/
  macroReverb : Word
  /-- MACRO_MASTER (R27). -/
  macroMaster : Word
  /-- NUM_SAMPLES (R28). -/
  numSamples : Word
  /-- LEFT_BASE (R29). -/
  leftBase : Word
  /-- RIGHT_BASE (R29). -/
  rightBase : Word
  /-- STATUS.PREPARED (R34). -/
  prepared : Bool
  /-- The active sample rate, read as ACTIVE_RATE (R30, R34). -/
  sr : Nat
  /-- A, the active macro amounts (R35). -/
  amounts : Amounts
  /-- The pending parameter set; STATUS.PEND says whether there is one (R35). -/
  pend : Option Amounts
  /-- The running PROCESS; STATUS.BUSY says whether there is one (R36). -/
  run : Option Run
  /-- The datapath (R38 to R44). -/
  dp : Datapath
  /-- The sample RAM (R45). -/
  ram : Memory
  /-- The model's own: how many RESETs have happened. -/
  ramEpoch : Nat
  /-- The model's own: the word the latest host read returned. -/
  busData : Word
  /-- The model's own: the events to come. -/
  sched : List Event
  deriving DecidableEq, Repr

/-- A smoother at reset (R38). -/
def Smoother.reset0 : Smoother := ⟨f0, f0, 0, 0, f0⟩

/-- A delay line at reset (R39): lastSm = -1.0. -/
def DelayLine.reset0 : DelayLine := ⟨0, [], 0, 0, fMinus1, Smoother.reset0⟩

/-- A doubler at reset (R40): mode = DBL_INTERP. -/
def Doubler.reset0 (p : Params) : Doubler := ⟨DelayLine.reset0, f0, f0, p.dblInterp⟩

/-- A biquad at reset (R41): enabled, all else +0.0. -/
def Biquad.reset0 (t : FilterType) : Biquad :=
  ⟨t, f0, f0, true, ⟨f0, f0, f0, f0, f0⟩, f0, f0, f0⟩

/-- The reverb at reset (R42 to R44). -/
def Reverb.reset0 : Reverb where
  early := Stereo.both (Eight.replicate ⟨DelayLine.reset0, f0⟩)
  late := Stereo.both (Four.replicate ⟨DelayLine.reset0⟩)
  damping := f0
  size := f0
  mix := f0
  width := f0
  spread := f0
  wet := f0
  sDamp := Smoother.reset0
  sFb := Smoother.reset0
  sDry := Smoother.reset0
  sW1 := Smoother.reset0
  sW2 := Smoother.reset0

/-- The datapath at reset (R241). -/
def Datapath.reset0 (p : Params) : Datapath where
  dbl := Stereo.both (Doubler.reset0 p)
  lp := Stereo.both (Biquad.reset0 .lp)
  hp := Stereo.both (Biquad.reset0 .hp)
  rev := Reverb.reset0

/-- The state right after the RESET numbered `epoch`, with the events `sched` still to come: every
piece of state at the value of R241. -/
def State.resetWith (p : Params) (epoch : Nat) (sched : List Event) : State where
  irqEn := false
  done := false
  err := .noError
  fidx := 0
  sampleRate := 0#32
  macroDoubler := 0#32
  macroFilter := 0#32
  macroReverb := 0#32
  macroMaster := 0#32
  numSamples := 0#32
  leftBase := 0#32
  rightBase := 0#32
  prepared := false
  sr := 0
  amounts := ⟨f0, f0, f0, f0⟩
  pend := none
  run := none
  dp := Datapath.reset0 p
  ram := []
  ramEpoch := epoch
  busData := 0#32
  sched := sched

/-- The machine right after reset (R240, R241), with no event scheduled. -/
def State.reset : State := State.resetWith Config.kso 0 []

end Sys2Proof.Machine
end

