-- ==== Sys2Proof/Machine/Ops.lean ====
section
/-! DEFINITION. The named operations over storage and registers: sparse storage by key, the sample RAM
(spec/10_state.md R45, spec/20_memory.md R61, R63), and the two ways a command or an access ends
other than in success (spec/00_scope.md R11): `reject`, and raising a host fault.

KSO-CORE takes no exception (spec/60_exceptions.md R218): no error, fault or interrupt saves state,
changes a mode or transfers control, and nothing returns from one (R219). `State.reject` is all that
a rejected command does. -/

namespace Sys2Proof.Machine

section
variable {β : Type}

/-- The value listed under a key. -/
def cellGet (k : Nat) : List (Nat × β) → Option β
  | [] => none
  | (a, v) :: t => if a = k then some v else cellGet k t

/-- Lists a value under a key, in rising order of keys. -/
def cellPut (k : Nat) (v : β) : List (Nat × β) → List (Nat × β)
  | [] => [(k, v)]
  | (a, u) :: t =>
    if k < a then (k, v) :: (a, u) :: t
    else if k = a then (k, v) :: t
    else (a, u) :: cellPut k v t

/-- Takes a key out of the list. -/
def cellDrop (k : Nat) : List (Nat × β) → List (Nat × β)
  | [] => []
  | (a, u) :: t => if a = k then t else (a, u) :: cellDrop k t

/-- Whether every listed key is above b and the keys rise strictly. -/
def risingFrom (b : Nat) : List (Nat × β) → Bool
  | [] => true
  | (a, _) :: t => decide (b ≤ a) && risingFrom (a + 1) t

end

/-- The canonical form of the sample RAM: addresses strictly rising. An unlisted byte is one that no
write has reached; no listed byte is that, so equal lists are the same writes. -/
def Memory.wf (m : Memory) : Bool := risingFrom 0 m

/-- The host byte address of lane j of sample-RAM word k (R61). -/
def ramByteAddr (k j : Nat) : Nat := ramBase + 4 * k + j

/-- The byte of the sample RAM at a host byte address: the last byte written there since RESET, or
the draw of R45 where no write has reached it. -/
def State.ramByte (s : State) (addr : Nat) : Byte :=
  (cellGet addr s.ram).getD (Config.ramDraw s.ramEpoch addr)

/-- MemRead(k, 4) (R11): sample-RAM word k. -/
def State.ramRead (s : State) (k : Nat) : Word :=
  wordOfBytes (s.ramByte (ramByteAddr k 0)) (s.ramByte (ramByteAddr k 1))
    (s.ramByte (ramByteAddr k 2)) (s.ramByte (ramByteAddr k 3))

/-- The four byte lanes of word k are listed with the lanes of v (R63). -/
def Memory.writeWord (m : Memory) (k : Nat) (v : Word) : Memory :=
  cellPut (ramByteAddr k 3) (byteLane v 3)
    (cellPut (ramByteAddr k 2) (byteLane v 2)
      (cellPut (ramByteAddr k 1) (byteLane v 1)
        (cellPut (ramByteAddr k 0) (byteLane v 0) m)))

/-- MemWrite(k, 4, v) (R11). -/
def State.ramWrite (s : State) (k : Nat) (v : Word) : State := { s with ram := s.ram.writeWord k v }

/-- `reject E` (R11): the command ends with no effect but STATUS.ERR <- E (R215, R218). -/
def State.reject (s : State) (e : ErrCode) : State := { s with err := e }

/-- A command ends accepted: STATUS.ERR <- NONE (R215). -/
def State.accept (s : State) : State := { s with err := .noError }

/-- `raise F(info)` (R11, R217): the run records the host fault and stops. -/
def raiseFault (f : Fault) : Host.Outcome State Fault Refusal := .fault f

/-- The sample-RAM word that a host byte address names, where it names one (R61). -/
def ramIndex (p : Params) (addr : Nat) : Option Nat :=
  if ramBase ≤ addr ∧ addr < ramBase + 4 * p.sampleRamWords then some ((addr - ramBase) / 4) else none

/-- Whether word k lies in a buffer of the running PROCESS (R68). -/
def Run.covers (r : Run) (k : Nat) : Bool :=
  (decide (r.lb ≤ k) && decide (k < r.lb + r.n)) || (decide (r.rb ≤ k) && decide (k < r.rb + r.n))

/-- Whether a host access to word k races the running PROCESS (R68, R245). -/
def State.races (s : State) (k : Nat) : Bool :=
  match s.run with
  | none => false
  | some r => r.covers k

end Sys2Proof.Machine
end

