-- ==== Sys2Proof/Machine/Flags.lean ====
section
/-! DEFINITION. The fields of STATUS and CTRL (spec/10_state.md R23, R24) and the interrupt output
(R32; spec/60_exceptions.md R222). -/

namespace Sys2Proof.Machine

/-- STATUS.BUSY: 1 exactly when a PROCESS runs (R36). -/
def State.busy (s : State) : Bool := s.run.isSome

/-- STATUS.PEND: 1 exactly when a parameter set is pending (R35). -/
def State.pending (s : State) : Bool := s.pend.isSome

/-- The outcome code as the four bits of STATUS.ERR (R215). -/
def ErrCode.code : ErrCode → Nat
  | .noError => 0
  | .illegalCmd => 1
  | .busy => 2
  | .notPrepared => 3
  | .badRate => 4
  | .capacity => 5
  | .badAddr => 6

/-- A flag as a bit. -/
def bit (b : Bool) : Nat := if b then 1 else 0

/-- STATUS as it reads: BUSY, PREPARED, DONE and PEND in bits 0 to 3, ERR in bits 7:4, and 0 in the
reserved bits (R24). -/
def State.statusWord (s : State) : Word :=
  BitVec.ofNat 32
    (bit s.busy + 2 * bit s.prepared + 4 * bit s.done + 8 * bit s.pending + 16 * s.err.code)

/-- A host write to STATUS: writing 1 to bit 2 clears DONE, and nothing else has an effect (R24). -/
def State.writeStatus (s : State) (v : Word) : State :=
  { s with done := if v.toNat / 4 % 2 = 1 then false else s.done }

/-- CTRL as it reads: IRQ_EN in bit 0, 0 elsewhere (R23). -/
def State.ctrlWord (s : State) : Word := BitVec.ofNat 32 (bit s.irqEn)

/-- A host write to CTRL: bit 0 is IRQ_EN; the reserved bits ignore the write (R23). -/
def State.writeCtrl (s : State) (v : Word) : State := { s with irqEn := decide (v.toNat % 2 = 1) }

/-- The level of the interrupt output: DONE and IRQ_EN (R32, R222). -/
def State.irq (s : State) : Bool := s.done && s.irqEn

end Sys2Proof.Machine
end

