-- ==== Sys2Proof/Machine/Operands.lean ====
section
/-! DEFINITION. The operands of the commands (spec/30_encoding.md R81, R82): each is read from its
fixed register when CMD is written. -/

namespace Sys2Proof.Machine

/-- `sr_req = u32(reg[SAMPLE_RATE])` (R82). -/
def State.srReq (s : State) : Nat := s.sampleRate.toNat

/-- `n_req = s32(reg[NUM_SAMPLES])`, two's complement (R82). -/
def State.nReq (s : State) : Int := s.numSamples.toInt

/-- `lb_req = u32(reg[LEFT_BASE])`, a word index (R82). -/
def State.lbReq (s : State) : Nat := s.leftBase.toNat

/-- `rb_req = u32(reg[RIGHT_BASE])`, a word index (R82). -/
def State.rbReq (s : State) : Nat := s.rightBase.toNat

/-- One macro amount clamped to [0, 1] (R197). -/
def clampMacro (m : F32) : F32 := clampF m f0 f1

/-- The four clamped operands of SET_PARAMETERS: m_x is the binary32 value of MACRO_x (R82, R197). -/
def State.macroOperands (s : State) : Amounts :=
  ⟨clampMacro s.macroDoubler, clampMacro s.macroFilter, clampMacro s.macroReverb,
   clampMacro s.macroMaster⟩

end Sys2Proof.Machine
end

