-- ==== Sys2Proof/Machine/Biquad.lean ====
section
/-! DEFINITION. The biquad filter (spec/44_biquad.md R140 to R144). -/

namespace Sys2Proof.Machine

/-- COEF(type, cutoff, q, rate) (R142). -/
def coef (p : Params) (t : FilterType) (cutoff q rate : F32) : Coefs :=
  let k := p.tan32 (fDiv (fMul pi32 cutoff) rate)
  let kq := fDiv k q
  let kk := fMul k k
  let n := fDiv f1 (fAdd (fAdd f1 kq) kk)
  let b1 := fMul (fMul f2 (fSub kk f1)) n
  let b2 := fMul (fAdd (fSub f1 kq) kk) n
  match t with
  | .lp => let a0 := fMul kk n; ⟨a0, fMul f2 a0, a0, b1, b2⟩
  | .hp => ⟨n, fMul fMinus2 n, n, b1, b2⟩

/-- BQ.configure(cutoffIn, qIn, en), at the sample rate srF (R140). -/
def Biquad.configure (p : Params) (srF : F32) (b : Biquad) (cutoffIn qIn : F32) (en : Bool) :
    Biquad :=
  if !fEq cutoffIn b.cutoff || !fEq qIn b.q || !fEq srF b.coefRate then
    { b with
      cutoff := cutoffIn, q := qIn, coefRate := srF
      coefs := coef p b.type cutoffIn qIn srF
      enabled := en }
  else { b with cutoff := cutoffIn, q := qIn, enabled := en }

/-- BQ.process(x) (R143): the output and the biquad after it. -/
def Biquad.process (b : Biquad) (x : F32) : F32 × Biquad :=
  if b.enabled then
    let y := fAdd (fMul x b.coefs.a0) b.z1
    (y, { b with
          z1 := fSub (fAdd (fMul x b.coefs.a1) b.z2) (fMul b.coefs.b1 y)
          z2 := fSub (fMul x b.coefs.a2) (fMul b.coefs.b2 y) })
  else (x, b)

/-- BQ.prepare() (R144). -/
def Biquad.prepare (b : Biquad) : Biquad := { b with z1 := f0, z2 := f0 }

end Sys2Proof.Machine
end

