-- ==== Sys2Proof/Machine/Smoother.lean ====
section
/-! DEFINITION. The parameter smoother (spec/41_smoother.md R100 to R103). -/

namespace Sys2Proof.Machine

/-- The ramp length SMOOTH.reset computes from a rate and a duration (R100). -/
def rampSteps (rate : Nat) (dur : F32) : Nat :=
  let p := fMul (toF32 rate) dur
  if isNaN p || fLe p f0 then 0
  else if fLe fTwo31 p then 2147483647
  else (floorI p).toNat

/-- SMOOTH.reset(rate, dur) (R100). -/
def Smoother.reset (s : Smoother) (rate : Nat) (dur : F32) : Smoother :=
  { s with steps := rampSteps rate dur, cur := s.tgt, cnt := 0 }

/-- SMOOTH.setTarget(v) (R101). -/
def Smoother.setTarget (s : Smoother) (v : F32) : Smoother :=
  if fEq v s.tgt then s
  else if s.steps = 0 then { s with cur := v, tgt := v, cnt := 0 }
  else { s with tgt := v, cnt := s.steps, stp := fDiv (fSub v s.cur) (toF32 s.steps) }

/-- SMOOTH.next() (R102): the value it returns and the smoother after it. -/
def Smoother.next (s : Smoother) : F32 × Smoother :=
  if s.cnt = 0 then (s.tgt, s)
  else
    let c := if s.cnt - 1 = 0 then s.tgt else fAdd s.cur s.stp
    (c, { s with cnt := s.cnt - 1, cur := c })

/-- SMOOTH.snapTo(v) (R103). -/
def Smoother.snapTo (s : Smoother) (v : F32) : Smoother := { s with tgt := v, cur := v, cnt := 0 }

/-- `s.snapTo(s.tgt)`, as PREPARE ends every ramp (R196). -/
def Smoother.snap (s : Smoother) : Smoother := s.snapTo s.tgt

end Sys2Proof.Machine
end

