-- ==== Sys2Proof/Machine/DelayLine.lean ====
section
/-! DEFINITION. The delay line (spec/42_delay_line.md R110 to R119). -/

namespace Sys2Proof.Machine

/-- The physical slots of a doubler line (R39). -/
def physDoubler (p : Params) : Nat := p.maxSr * combCapS

/-- The physical slots of a reverb line (R39). -/
def physReverb (p : Params) : Nat := p.maxSr * revCapS

/-- Slot j of a line (R39). -/
def DelayLine.slot (l : DelayLine) (j : Nat) : F32 := (cellGet j l.buf).getD f0

/-- Slot j with x stored: a slot holding +0.0 is not listed. -/
def slotWrite (buf : List (Nat × F32)) (j : Nat) (x : F32) : List (Nat × F32) :=
  if x = f0 then cellDrop j buf else cellPut j x buf

/-- Slots [0, n) set to +0.0 (R110). -/
def slotsClear (buf : List (Nat × F32)) (n : Nat) : List (Nat × F32) :=
  buf.filter fun c => decide (n ≤ c.1)

/-- DL.prepare(capReq, rate, dur) (R110). -/
def DelayLine.prepare (l : DelayLine) (capReq rate : Nat) (dur : F32) : DelayLine :=
  let cap := min capReq (maxCapSeconds * rate)
  { cap := cap
    buf := slotsClear l.buf cap
    w := 0
    rate := rate
    lastSm := dur
    dly := l.dly.reset rate dur }

/-- DL.maxSeconds() (R111). -/
def DelayLine.maxSeconds (l : DelayLine) : F32 :=
  if l.rate = 0 then f0 else fDiv (toF32 l.cap) (toF32 l.rate)

/-- The line with the ramp length of its delay smoother brought to `dur` (R112). -/
def DelayLine.withDuration (l : DelayLine) (dur : F32) : DelayLine :=
  if fEq dur l.lastSm then l else { l with lastSm := dur, dly := l.dly.reset l.rate dur }

/-- DL.setDelayTime(sec, dur) (R112). -/
def DelayLine.setDelayTime (l : DelayLine) (sec dur : F32) : DelayLine :=
  let s := clampF sec f0 l.maxSeconds
  let l' := l.withDuration dur
  { l' with dly := l'.dly.setTarget s }

/-- DL.push(x) (R113). -/
def DelayLine.push (l : DelayLine) (x : F32) : DelayLine :=
  if l.cap = 0 then l else { l with buf := slotWrite l.buf l.w x, w := (l.w + 1) % l.cap }

/-- S(k), the sample at age k, for 1 ≤ k ≤ cap (R114). -/
def DelayLine.age (l : DelayLine) (k : Nat) : F32 := l.slot ((l.w + l.cap - k) % l.cap)

/-- K, the slots a read in a mode needs (R115). -/
def needSlots : Interp → Nat
  | .none => 1
  | .linear => 2
  | .cubic => 4

/-- dmin (R115). -/
def minOffset : Interp → F32
  | .none => f1
  | .linear => f1
  | .cubic => f2

/-- dmax (R115). -/
def maxOffset (cap : Nat) : Interp → F32
  | .none => toF32 cap
  | .linear => toF32 (cap - 1)
  | .cubic => toF32 (cap - 2)

/-- The clamped offset, as an integer age and a fraction, of a smoothed delay time (R115). -/
def offsetOf (mode : Interp) (cap rate : Nat) (dsec : F32) : Nat × F32 :=
  let d := clampF (fMul dsec (toF32 rate)) (minOffset mode) (maxOffset cap mode)
  let i := (floorI d).toNat
  (i, fSub d (toF32 i))

/-- DL.readOffset(mode) (R115): none is SENTINEL. The delay smoother takes its step in either case. -/
def DelayLine.readOffset (l : DelayLine) (mode : Interp) : Option (Nat × F32) × DelayLine :=
  let t := l.dly.next
  (if l.cap < needSlots mode then none else some (offsetOf mode l.cap l.rate t.1),
   { l with dly := t.2 })

/-- The value DL.read(NONE) returns at an offset (R116). -/
def DelayLine.readNone (l : DelayLine) (i : Nat) (f : F32) : F32 :=
  if fEq f f0 then l.age i else l.age (i + 1)

/-- The value DL.read(LINEAR) returns at an offset (R117). -/
def DelayLine.readLinear (l : DelayLine) (i : Nat) (f : F32) : F32 :=
  let a := l.age i
  let b := l.age (i + 1)
  if fEq f f0 then a else fAdd a (fMul f (fSub b a))

/-- The Catmull-Rom spline through four samples in age order, at the fraction f (R118). -/
def catmullRom (p0 p1 p2 p3 f : F32) : F32 :=
  let c1 := fMul fHalf (fSub p2 p0)
  let c2 := fSub (fAdd (fSub p0 (fMul f2p5 p1)) (fMul f2 p2)) (fMul fHalf p3)
  let c3 := fAdd (fMul fHalf (fSub p3 p0)) (fMul f1p5 (fSub p1 p2))
  fAdd (fMul (fAdd (fMul (fAdd (fMul c3 f) c2) f) c1) f) p1

/-- The value DL.read(CUBIC) returns at an offset (R118). -/
def DelayLine.readCubic (l : DelayLine) (i : Nat) (f : F32) : F32 :=
  let p1 := l.age i
  if fEq f f0 then p1 else catmullRom (l.age (i - 1)) p1 (l.age (i + 1)) (l.age (i + 2)) f

/-- The value a read returns at an offset in a mode (R116 to R118). -/
def DelayLine.readAt (l : DelayLine) (mode : Interp) (i : Nat) (f : F32) : F32 :=
  match mode with
  | .none => l.readNone i f
  | .linear => l.readLinear i f
  | .cubic => l.readCubic i f

/-- DL.read(mode) (R116 to R118): the sample, or +0.0 at the sentinel, and the line after it. -/
def DelayLine.read (l : DelayLine) (mode : Interp) : F32 × DelayLine :=
  let t := l.readOffset mode
  (match t.1 with
   | none => f0
   | some o => t.2.readAt mode o.1 o.2,
   t.2)

/-- DL.pushAndRead(x, mode) (R119). No unit of the pipeline uses it. -/
def DelayLine.pushAndRead (l : DelayLine) (x : F32) (mode : Interp) : F32 × DelayLine :=
  (l.push x).read mode

/-- The line with the ramp of its delay smoother ended (R196). -/
def DelayLine.snap (l : DelayLine) : DelayLine := { l with dly := l.dly.snap }

end Sys2Proof.Machine
end

