-- ==== Sys2Proof/Machine/Comb.lean ====
section
/-! DEFINITION. The comb filter, or doubler (spec/43_comb.md R130, R131). -/

namespace Sys2Proof.Machine

/-- COMB.setParameters(freq, fbIn, wetIn, mode, offHz) (R130). -/
def Doubler.setParameters (d : Doubler) (freq fbIn wetIn : F32) (mode : Interp) (offHz : F32) :
    Doubler :=
  { line := d.line.setDelayTime (fDiv f1 (fAdd freq offHz)) combSmoothS
    fb := clampF fbIn f0 f1
    wet := wetIn
    mode := mode }

/-- COMB.process(x) (R131): the output and the doubler after it. -/
def Doubler.process (d : Doubler) (x : F32) : F32 × Doubler :=
  let t := d.line.read d.mode
  let fbSig := fAdd x (fMul t.1 d.fb)
  (fAdd x (fMul t.1 d.wet), { d with line := t.2.push fbSig })

end Sys2Proof.Machine
end

