-- ==== Sys2Proof/Machine/Reverb.lean ====
section
/-! DEFINITION. The reverb engine (spec/45_reverb.md R155 to R165). -/

namespace Sys2Proof.Machine

/-- REV.setDamping(x) (R155). -/
def Reverb.setDamping (r : Reverb) (x : F32) : Reverb :=
  let d := clampF x f0 f1
  { r with damping := d, sDamp := r.sDamp.setTarget d }

/-- REV.setSize(x) (R156). -/
def Reverb.setSize (r : Reverb) (x : F32) : Reverb :=
  let d := clampF x f0 f1
  { r with size := d, sFb := r.sFb.setTarget d }

/-- The target of wet1 (R160). -/
def wet1Target (wet width : F32) : F32 := fMul wet (fMul (fAdd f1 width) wScale)

/-- The target of wet2 (R160). -/
def wet2Target (wet width : F32) : F32 := fMul wet (fMul (fSub f1 width) wScale)

/-- REV.updateWet() (R160). -/
def Reverb.updateWet (r : Reverb) : Reverb :=
  { r with
    sW1 := r.sW1.setTarget (wet1Target r.wet r.width)
    sW2 := r.sW2.setTarget (wet2Target r.wet r.width) }

/-- REV.setMix(x) (R157). -/
def Reverb.setMix (p : Params) (r : Reverb) (x : F32) : Reverb :=
  let mix := clampF x f0 f1
  let wet := clampF (p.expr mix p.revMixCurve) f0 f1
  Reverb.updateWet { r with mix := mix, wet := wet, sDry := r.sDry.setTarget (fSub f1 wet) }

/-- REV.setWidth(x) (R158). -/
def Reverb.setWidth (r : Reverb) (x : F32) : Reverb :=
  Reverb.updateWet { r with width := clampF x f0 f1 }

/-- An early comb with its delay time set (R159). -/
def EarlyComb.setDelayTime (c : EarlyComb) (sec dur : F32) : EarlyComb :=
  { c with line := c.line.setDelayTime sec dur }

/-- A late comb with its delay time set (R159). -/
def LateComb.setDelayTime (c : LateComb) (sec dur : F32) : LateComb :=
  { c with line := c.line.setDelayTime sec dur }

/-- REV.setSpread(x) (R159): the left channel takes +half, the right -half. -/
def Reverb.setSpread (p : Params) (r : Reverb) (x : F32) : Reverb :=
  let spread := clampF x f0 fInf
  let half := fMul spread fHalf
  let dur := p.revTimeSmoothS
  { r with
    spread := spread
    early :=
      ⟨r.early.l.zipWith (fun c seed => c.setDelayTime (fAdd seed half) dur) p.earlySeedS,
       r.early.r.zipWith (fun c seed => c.setDelayTime (fSub seed half) dur) p.earlySeedS⟩
    late :=
      ⟨r.late.l.zipWith (fun c seed => c.setDelayTime (fAdd seed half) dur) p.lateSeedS,
       r.late.r.zipWith (fun c seed => c.setDelayTime (fSub seed half) dur) p.lateSeedS⟩ }

/-- EARLY(c, j, input, damp, fb) (R162): the value it returns and the comb after it. -/
def EarlyComb.process (mode : Interp) (c : EarlyComb) (input damp fb : F32) : F32 × EarlyComb :=
  let t := c.line.read mode
  let damped := fAdd t.1 (fMul damp (fSub c.store t.1))
  (t.1, { line := t.2.push (fAdd input (fMul damped fb)), store := damped })

/-- LATE(c, j, x) (R163): the value it returns and the comb after it. -/
def LateComb.process (mode : Interp) (c : LateComb) (x : F32) : F32 × LateComb :=
  let t := c.line.read mode
  (fSub t.1 x, { line := t.2.push (fAdd x (fMul t.1 lateFb)) })

/-- Step 2 of R161 in one channel: the sum of the early combs, j ascending from +0.0. -/
def earlySum (mode : Interp) (v : Eight EarlyComb) (input damp fb : F32) : F32 × Eight EarlyComb :=
  v.thread (fun acc c => let t := c.process mode input damp fb; (fAdd acc t.1, t.2)) f0

/-- Step 3 of R161 in one channel: the late combs in series. -/
def lateChain (mode : Interp) (v : Four LateComb) (x : F32) : F32 × Four LateComb :=
  v.thread (fun x c => c.process mode x) x

/-- One output of MIX (R164): the channel's own wet signal by w1, the other channel's by w2, and the
channel's input by dry. -/
def mixOut (own other inp dry w1 w2 : F32) : F32 :=
  fAdd (fAdd (fMul own w1) (fMul other w2)) (fMul inp dry)

/-- REV.process(inL, inR) (R161): the two outputs and the reverb after it. -/
def Reverb.process (p : Params) (r : Reverb) (inL inR : F32) : (F32 × F32) × Reverb :=
  let input := fMul (fAdd inL inR) pregain
  let damp := r.sDamp.next
  let fb := r.sFb.next
  let dry := r.sDry.next
  let w1 := r.sW1.next
  let w2 := r.sW2.next
  let eL := earlySum p.revInterp r.early.l input damp.1 fb.1
  let eR := earlySum p.revInterp r.early.r input damp.1 fb.1
  let tL := lateChain p.revInterp r.late.l eL.1
  let tR := lateChain p.revInterp r.late.r eR.1
  ((mixOut tL.1 tR.1 inL dry.1 w1.1 w2.1, mixOut tR.1 tL.1 inR dry.1 w1.1 w2.1),
   { r with
     early := ⟨eL.2, eR.2⟩, late := ⟨tL.2, tR.2⟩
     sDamp := damp.2, sFb := fb.2, sDry := dry.2, sW1 := w1.2, sW2 := w2.2 })

/-- An early comb prepared (R165). -/
def EarlyComb.prepare (p : Params) (sr : Nat) (c : EarlyComb) : EarlyComb :=
  { line := c.line.prepare (sr * revCapS) sr p.revTimeSmoothS, store := f0 }

/-- A late comb prepared (R165). -/
def LateComb.prepare (p : Params) (sr : Nat) (c : LateComb) : LateComb :=
  { line := c.line.prepare (sr * revCapS) sr p.revTimeSmoothS }

/-- REV.prepare(sr) (R165). -/
def Reverb.prepare (p : Params) (sr : Nat) (r : Reverb) : Reverb :=
  { r with
    early := r.early.map (Eight.map (EarlyComb.prepare p sr))
    late := r.late.map (Four.map (LateComb.prepare p sr))
    sDamp := r.sDamp.reset sr p.revSmoothS
    sFb := r.sFb.reset sr p.revSmoothS
    sDry := r.sDry.reset sr p.revSmoothS
    sW1 := r.sW1.reset sr p.revSmoothS
    sW2 := r.sW2.reset sr p.revSmoothS }

/-- Every smoother of the reverb with its ramp ended (R196): 24 in the lines and five of its own. -/
def Reverb.snap (r : Reverb) : Reverb :=
  { r with
    early := r.early.map (Eight.map fun c => { c with line := c.line.snap })
    late := r.late.map (Four.map fun c => { c with line := c.line.snap })
    sDamp := r.sDamp.snap
    sFb := r.sFb.snap
    sDry := r.sDry.snap
    sW1 := r.sW1.snap
    sW2 := r.sW2.snap }

end Sys2Proof.Machine
end

