-- ==== Sys2Proof/Machine/Orchestrator.lean ====
section
/-! DEFINITION. The effect orchestrator (spec/46_orchestrator.md): the derivation of every parameter
from the macro amounts (R180 to R185) and the frame step (R187 to R189); and the two parts of
PREPARE that touch the datapath (spec/47_host_commands.md R196). -/

namespace Sys2Proof.Machine

/-- AMOUNTS() (R180): the effect amount of the doubler, the filter and the reverb. -/
def Amounts.eD (a : Amounts) : F32 := fMul a.dbl a.mst
def Amounts.eF (a : Amounts) : F32 := fMul a.flt a.mst
def Amounts.eR (a : Amounts) : F32 := fMul a.rev a.mst

/-- amount(p), the effect amount of a mapped parameter (the table of R181). -/
def Amounts.amount (a : Amounts) : Mapped → F32
  | .dblFreq => a.eD
  | .dblFeedback => a.eD
  | .dblWet => a.eD
  | .lpCutoff => a.eF
  | .lpQ => a.eF
  | .hpCutoff => a.eF
  | .hpQ => a.eF
  | .revDamping => a.eR
  | .revSize => a.eR
  | .revMix => a.eR
  | .revWidth => a.eR
  | .revSpread => a.eR

/-- MAPPED(m) (R181). -/
def mapped (p : Params) (a : Amounts) (m : Mapped) : F32 :=
  let row := p.map m
  linearMap (p.expr (a.amount m) row.curve) row.outMin row.outMax

/-- COMB_DERIVE (R183). -/
def combDerive (p : Params) (a : Amounts) (d : Stereo Doubler) : Stereo Doubler :=
  let freq := mapped p a .dblFreq
  let fb := mapped p a .dblFeedback
  let wet := mapped p a .dblWet
  ⟨d.l.setParameters freq fb wet p.dblInterp p.dblOffsetLHz,
   d.r.setParameters freq fb wet p.dblInterp p.dblOffsetRHz⟩

/-- fHi (R184). -/
def cutoffHi (p : Params) (srF : F32) : F32 := fMul p.bqFmaxFrac srF

/-- fLo (R184): BQ_FMIN_HZ, or fHi at a very low rate. -/
def cutoffLo (p : Params) (srF : F32) : F32 :=
  if fLt p.bqFminHz (cutoffHi p srF) then p.bqFminHz else cutoffHi p srF

/-- A cutoff clamped into the biquad's contract (R184). -/
def cutoffClamp (p : Params) (srF v : F32) : F32 := clampF v (cutoffLo p srF) (cutoffHi p srF)

/-- A Q clamped into the biquad's contract (R184). -/
def qClamp (p : Params) (v : F32) : F32 := clampF v p.bqQmin p.bqQmax

/-- BQ_DERIVE for the two low-pass biquads (R184). -/
def lpDerive (p : Params) (a : Amounts) (srF : F32) (b : Biquad) : Biquad :=
  b.configure p srF (cutoffClamp p srF (mapped p a .lpCutoff)) (qClamp p (mapped p a .lpQ)) true

/-- BQ_DERIVE for the two high-pass biquads (R184). -/
def hpDerive (p : Params) (a : Amounts) (srF : F32) (b : Biquad) : Biquad :=
  b.configure p srF (cutoffClamp p srF (mapped p a .hpCutoff)) (qClamp p (mapped p a .hpQ)) true

/-- REV_DERIVE (R185): damping, size, mix, width, spread, in this order. -/
def revDerive (p : Params) (a : Amounts) (r : Reverb) : Reverb :=
  ((((r.setDamping (mapped p a .revDamping)).setSize (mapped p a .revSize)).setMix p
    (mapped p a .revMix)).setWidth (mapped p a .revWidth)).setSpread p (mapped p a .revSpread)

/-- DERIVE() at the sample rate sr (R182). -/
def Datapath.derive (p : Params) (sr : Nat) (a : Amounts) (d : Datapath) : Datapath where
  dbl := combDerive p a d.dbl
  lp := d.lp.map (lpDerive p a (toF32 sr))
  hp := d.hp.map (hpDerive p a (toF32 sr))
  rev := revDerive p a d.rev

/-- The steps of PREPARE that size and clear the units (R196). -/
def Datapath.clear (p : Params) (sr : Nat) (d : Datapath) : Datapath where
  dbl := d.dbl.map fun c => { c with line := c.line.prepare (sr * combCapS) sr combSmoothS }
  lp := d.lp.map Biquad.prepare
  hp := d.hp.map Biquad.prepare
  rev := d.rev.prepare p sr

/-- The step of PREPARE that ends the ramps of the 31 smoothers (R196). -/
def Datapath.snap (d : Datapath) : Datapath :=
  { d with dbl := d.dbl.map fun c => { c with line := c.line.snap }, rev := d.rev.snap }

/-- The datapath after a successful PREPARE: cleared, derived, snapped (R196). -/
def Datapath.prepare (p : Params) (sr : Nat) (a : Amounts) (d : Datapath) : Datapath :=
  ((d.clear p sr).derive p sr a).snap

/-- DERIVE() on the state: from the active amounts at the active rate (R182). -/
def State.derive (p : Params) (s : State) : State :=
  { s with dp := s.dp.derive p s.sr s.amounts }

/-- APPLY_PENDING() (R187). -/
def State.applyPending (p : Params) (s : State) : State :=
  match s.pend with
  | none => s
  | some m => State.derive p { s with amounts := m, pend := none }

/-- OUTCLAMP(x) (R189). -/
def outClamp (x : F32) : F32 := clampF x outLimitNeg outLimit

/-- The doubler, then the low-pass, then the high-pass of one channel (R188). -/
def channelProcess (d : Doubler) (l h : Biquad) (x : F32) : F32 × Doubler × Biquad × Biquad :=
  let td := d.process x
  let tl := l.process td.1
  let th := h.process tl.1
  (th.1, td.2, tl.2, th.2)

/-- The datapath work of one frame (R188): the two unclamped outputs and the datapath after it. -/
def Datapath.frame (p : Params) (d : Datapath) (xL xR : F32) : (F32 × F32) × Datapath :=
  let cl := channelProcess d.dbl.l d.lp.l d.hp.l xL
  let cr := channelProcess d.dbl.r d.lp.r d.hp.r xR
  let t := d.rev.process p cl.1 cr.1
  (t.1,
   { dbl := ⟨cl.2.1, cr.2.1⟩
     lp := ⟨cl.2.2.1, cr.2.2.1⟩
     hp := ⟨cl.2.2.2, cr.2.2.2⟩
     rev := t.2 })

/-- FRAME() of the running PROCESS r (R188): both inputs are read before either output is written,
and the right output is written last. -/
def State.frame (p : Params) (r : Run) (s0 : State) : State :=
  let s := s0.applyPending p
  let t := s.dp.frame p (s.ramRead (r.lb + r.i)) (s.ramRead (r.rb + r.i))
  let s1 := (s.ramWrite (r.lb + r.i) (outClamp t.1.1)).ramWrite (r.rb + r.i) (outClamp t.1.2)
  { s1 with dp := t.2, run := some { r with i := r.i + 1 }, fidx := r.i + 1 }

/-- The completion of a PROCESS (R200). -/
def State.complete (p : Params) (s : State) : State :=
  { s.applyPending p with run := none, done := true }

/-- A step of the core sequencer (R20): a frame where one remains (R188), the completion after the
last (R200), and nothing where neither is enabled. -/
def State.coreStep (p : Params) (s : State) : State :=
  match s.run with
  | none => s
  | some r => if r.i < r.n then s.frame p r else if r.i = r.n then s.complete p else s

end Sys2Proof.Machine
end

