-- ==== Sys2Proof/Machine/Commands.lean ====
section
/-! DEFINITION. The meanings of the four commands (spec/47_host_commands.md R195 to R199). Each is
one atomic step inside the write to CMD (R65) and always answers a next state. -/

namespace Sys2Proof.Machine

/-- What a meaning answers. -/
abbrev Result := Host.Outcome State Fault Refusal

/-- NOP (R195). -/
def State.nop (s : State) : State := s.accept

/-- A successful PREPARE at the rate sr (R196). -/
def State.prepareAt (p : Params) (sr : Nat) (s : State) : State :=
  State.accept { s with sr := sr, prepared := true, dp := s.dp.prepare p sr s.amounts }

/-- PREPARE (R196), its checks in the order of R216. -/
def State.prepare (p : Params) (s : State) : State :=
  if s.busy then s.reject .busy
  else if s.srReq = 0 then s.reject .badRate
  else if p.maxSr < s.srReq then State.reject { s with prepared := false, sr := 0 } .capacity
  else s.prepareAt p s.srReq

/-- SET_PARAMETERS_BUSY(m) (R198). -/
def State.queueParameters (s : State) (m : Amounts) : State := State.accept { s with pend := some m }

/-- SET_PARAMETERS (R197). -/
def State.setParameters (p : Params) (s : State) : State :=
  let m := s.macroOperands
  if s.busy then s.queueParameters m
  else
    let s1 := { s with amounts := m }
    (if s.prepared then s1.derive p else s1).accept

/-- Whether a PROCESS request is a no-op (R199): no frames, or a null base. -/
def State.noopRequest (s : State) : Bool :=
  decide (s.nReq ≤ 0) || s.lbReq == 0 || s.rbReq == 0

/-- Whether a PROCESS request leaves the sample RAM (R199). -/
def State.outOfRam (p : Params) (s : State) : Bool :=
  decide (p.sampleRamWords < s.lbReq + s.nReq.toNat) ||
    decide (p.sampleRamWords < s.rbReq + s.nReq.toNat)

/-- A PROCESS accepted with frames to run (R199): the operands are latched. -/
def State.startProcess (s : State) : State :=
  State.accept
    { s with
      run := some { n := s.nReq.toNat, lb := s.lbReq, rb := s.rbReq, i := 0 }
      fidx := 0
      done := false }

/-- PROCESS (R199), its checks in the order of R216. -/
def State.process (p : Params) (s : State) : State :=
  if s.busy then s.reject .busy
  else if s.noopRequest then State.accept { s with done := true }
  else if !s.prepared then s.reject .notPrepared
  else if s.outOfRam p then s.reject .badAddr
  else s.startProcess

/-- The meaning of NOP (R195). -/
def execNop (s : State) : Result := .next s.nop

/-- The meaning of PREPARE (R196). -/
def execPrepare (s : State) : Result := .next (s.prepare Config.kso)

/-- The meaning of SET_PARAMETERS (R197, R198). -/
def execSetParameters (s : State) : Result := .next (s.setParameters Config.kso)

/-- The meaning of PROCESS (R199). -/
def execProcess (s : State) : Result := .next (s.process Config.kso)

end Sys2Proof.Machine
end

