-- ==== Sys2Proof/Machine/Dispatch.lean ====
section
/-! DEFINITION. One arm per constructor of Instr, each one direct call of its meaning. -/

namespace Sys2Proof.Machine

def exec (i : Instr) (s : State) : Host.Outcome State Fault Refusal :=
  match i with
  | .nop => Sys2Proof.Machine.execNop s
  | .prepare => Sys2Proof.Machine.execPrepare s
  | .setParameters => Sys2Proof.Machine.execSetParameters s
  | .process => Sys2Proof.Machine.execProcess s

end Sys2Proof.Machine
end

