-- ==== Sys2Proof/Machine/Bus.lean ====
section
/-! DEFINITION. Host bus accesses (spec/10_state.md R21 to R31; spec/20_memory.md R61 to R68), the
issue of a command by a write to CMD (spec/30_encoding.md R80), and the events of the total order
(R64, R65; spec/70_reset_and_hazards.md R240). -/

namespace Sys2Proof.Machine

/-- The byte offset of a register (R21). -/
def Reg.offset : Reg → Nat
  | .id => 0x000
  | .ctrl => 0x004
  | .status => 0x008
  | .cmd => 0x00C
  | .sampleRate => 0x010
  | .macroDoubler => 0x014
  | .macroFilter => 0x018
  | .macroReverb => 0x01C
  | .macroMaster => 0x020
  | .numSamples => 0x024
  | .leftBase => 0x028
  | .rightBase => 0x02C
  | .activeRate => 0x030
  | .frameIndex => 0x034

/-- Every register, in the order of R21. -/
def allRegs : List Reg :=
  [.id, .ctrl, .status, .cmd, .sampleRate, .macroDoubler, .macroFilter, .macroReverb, .macroMaster,
   .numSamples, .leftBase, .rightBase, .activeRate, .frameIndex]

/-- The host address of a register. -/
def Reg.addr (r : Reg) : HostAddr := BitVec.ofNat 20 (Reg.offset r)

/-- The register at a host byte address, where there is one (R21). -/
def regAt (addr : Nat) : Option Reg := allRegs.find? fun r => Reg.offset r == addr

/-- What a host read of a register returns (R21 to R31): a WO register reads 0. -/
def State.readReg (s : State) : Reg → Word
  | .id => idValue
  | .ctrl => s.ctrlWord
  | .status => s.statusWord
  | .cmd => 0#32
  | .sampleRate => s.sampleRate
  | .macroDoubler => s.macroDoubler
  | .macroFilter => s.macroFilter
  | .macroReverb => s.macroReverb
  | .macroMaster => s.macroMaster
  | .numSamples => s.numSamples
  | .leftBase => s.leftBase
  | .rightBase => s.rightBase
  | .activeRate => BitVec.ofNat 32 s.sr
  | .frameIndex => BitVec.ofNat 32 s.fidx

/-- A host write of a register other than CMD (R21 to R31): an RO register ignores it. CMD holds
nothing (R25): what a write to it does is `issueCommand`. -/
def State.writeReg (s : State) (v : Word) : Reg → State
  | .id => s
  | .ctrl => s.writeCtrl v
  | .status => s.writeStatus v
  | .cmd => s
  | .sampleRate => { s with sampleRate := v }
  | .macroDoubler => { s with macroDoubler := v }
  | .macroFilter => { s with macroFilter := v }
  | .macroReverb => { s with macroReverb := v }
  | .macroMaster => { s with macroMaster := v }
  | .numSamples => { s with numSamples := v }
  | .leftBase => { s with leftBase := v }
  | .rightBase => { s with rightBase := v }
  | .activeRate => s
  | .frameIndex => s

/-- A write to CMD issues the command the word encodes (R25, R80); an illegal word only sets
STATUS.ERR to ILLEGAL_CMD (R84). `run` is what runs a command: `exec` in the machine. -/
def issueCommand (run : Instr → State → Result) (s : State) (w : Word) : Result :=
  match decodeBytes (bytesOfWord w) with
  | .command i => run i s
  | .reservedBits => .next (s.reject .illegalCmd)
  | .reservedOpcode => .next (s.reject .illegalCmd)
  | .notOneWord => .next (s.reject .illegalCmd)

/-- An admitted access to sample-RAM word k (R61, R64, R68). -/
def ramAccess (s : State) (k : Nat) (kind : AccessKind) (v : Word) : Result :=
  if s.races k then raiseFault (.ramRace k kind)
  else match kind with
    | .read => .next { s with busData := s.ramRead k }
    | .write => .next (s.ramWrite k v)

/-- An admitted access to a register (R21, R66). -/
def regAccess (run : Instr → State → Result) (s : State) (r : Reg) (kind : AccessKind) (v : Word) :
    Result :=
  match kind with
  | .read => .next { s with busData := s.readReg r }
  | .write => if r = .cmd then issueCommand run s v else .next (s.writeReg v r)

/-- An admitted access to an address that names nothing: reads 0, ignores the write (R21, R61). -/
def unmappedAccess (s : State) (kind : AccessKind) : Result :=
  match kind with
  | .read => .next { s with busData := 0#32 }
  | .write => .next s

/-- One host bus access (R61, R62). -/
def busAccess (run : Instr → State → Result) (p : Params) (s : State) (a : Access) : Result :=
  if a.wf then
    match regAt a.addr.toNat, ramIndex p a.addr.toNat with
    | some r, _ => regAccess run s r a.kind a.data
    | none, some k => ramAccess s k a.kind a.data
    | none, none => unmappedAccess s a.kind
  else raiseFault (.busError a.addr a.width a.kind)

/-- RESET (R240): every piece of state at its reset value in one step; the sample RAM is unspecified
anew (R242). The events to come stay to come. -/
def State.hardReset (p : Params) (s : State) : State := State.resetWith p (s.ramEpoch + 1) s.sched

/-- One event of the total order (R64, R65, R240). -/
def runEvent (run : Instr → State → Result) (p : Params) (e : Event) (s : State) : Result :=
  match e with
  | .bus a => busAccess run p s a
  | .core => .next (s.coreStep p)
  | .hardReset => .next (s.hardReset p)

/-- The next step: the next event, or, with none to come, the step of the core sequencer that
fairness grants a running PROCESS (R252); an idle core changes nothing (R230). -/
def nextStep (run : Instr → State → Result) (p : Params) (s : State) : Result :=
  match s.sched with
  | [] => .next (s.coreStep p)
  | e :: rest => runEvent run p e { s with sched := rest }

/-- The host access that writes a word to CMD (R87: `cmd.raw`). -/
def cmdWrite (w : Word) : Access := ⟨.write, 32, Reg.addr .cmd, w⟩

end Sys2Proof.Machine
end

