-- ==== Sys2Proof/Machine/Step.lean ====
section
/-! DEFINITION. The step of the machine: one event of the total order. -/

namespace Sys2Proof.Machine

/-- One step (spec/10_state.md R20; spec/20_memory.md R64, R65). -/
def step (s : State) : Host.Outcome State Fault Refusal := nextStep exec Config.kso s

/-- The state in which the very next event is the host write of the table row's word to CMD
(spec/10_state.md R25; spec/20_memory.md R72: KSO-CORE fetches nothing, a command is the word written
to CMD). -/
def State.withFetchWord (s : State) (nbits w : Nat) : State :=
  { s with sched := .bus (cmdWrite (tableWord nbits w)) :: s.sched }

end Sys2Proof.Machine
end

