-- ==== Sys2Proof/Machine/Script.lean ====
section
/-! DEFINITION. The host script of spec/30_encoding.md R87 and R88: the bus accesses each statement
stands for. It drives the machine and is no part of it. -/

namespace Sys2Proof.Machine

/-- The three forms of a value (R87). -/
inductive ScriptValue where
  /-- A decimal or hexadecimal integer, taken modulo 2^32. -/
  | int (n : Int)
  /-- `f:<real>`: the bits of the binary32 value nearest to the real number `±num/den`. -/
  | real (neg : Bool) (num den : Nat)
  /-- `h:<8 hex digits>`: raw bits. -/
  | raw (w : Word)
  deriving DecidableEq, Repr

/-- The word a value stands for (R87). -/
def ScriptValue.word : ScriptValue → Word
  | .int n => BitVec.ofInt 32 n
  | .real neg num den => fOfRatio neg num den
  | .raw w => w

/-- The statements and the loop-free pseudo-statements of R87 and R88. `process` leaves out its
`poll`, which is `poll` below. -/
inductive ScriptStmt where
  | wr (r : Reg) (v : ScriptValue)
  | rd (r : Reg)
  | cmd (i : Instr)
  | cmdRaw (v : ScriptValue)
  | ramWr (k : Nat) (v : ScriptValue)
  | ramRd (k : Nat)
  | clrdone
  | prepare (sr : ScriptValue)
  | setparams (d f r m : ScriptValue)
  | process (n lb rb : ScriptValue)
  deriving DecidableEq, Repr

/-- A 32-bit write of v to a register. -/
def wrAccess (r : Reg) (v : Word) : Access := ⟨.write, 32, Reg.addr r, v⟩

/-- A 32-bit read of a register. -/
def rdAccess (r : Reg) : Access := ⟨.read, 32, Reg.addr r, 0#32⟩

/-- The host address of sample-RAM word k (R61). -/
def ramAddr (k : Nat) : HostAddr := BitVec.ofNat 20 (ramByteAddr k 0)

/-- The bus accesses of a statement, in order (R87, R88). -/
def ScriptStmt.accesses : ScriptStmt → List Access
  | .wr r v => [wrAccess r v.word]
  | .rd r => [rdAccess r]
  | .cmd i => [cmdWrite (encode i)]
  | .cmdRaw v => [cmdWrite v.word]
  | .ramWr k v => [⟨.write, 32, ramAddr k, v.word⟩]
  | .ramRd k => [⟨.read, 32, ramAddr k, 0#32⟩]
  | .clrdone => [wrAccess .status 0x4#32]
  | .prepare sr => [wrAccess .sampleRate sr.word, cmdWrite (encode .prepare)]
  | .setparams d f r m =>
    [wrAccess .macroDoubler d.word, wrAccess .macroFilter f.word, wrAccess .macroReverb r.word,
     wrAccess .macroMaster m.word, cmdWrite (encode .setParameters)]
  | .process n lb rb =>
    [wrAccess .numSamples n.word, wrAccess .leftBase lb.word, wrAccess .rightBase rb.word,
     cmdWrite (encode .process)]

/-- The events of a script run by one host agent with no core step between its accesses. -/
def scriptEvents (l : List ScriptStmt) : List Event := (l.flatMap ScriptStmt.accesses).map .bus

/-- `poll` (R88) under the schedule PS of spec/95_test_vectors.md section 12: read STATUS until BUSY
reads 0, the core taking one step after each read that finds it 1; at most `fuel` reads. -/
def poll (p : Params) : Nat → State → State
  | 0, s => s
  | fuel + 1, s =>
    let s1 := { s with busData := s.readReg .status }
    if s1.busData.toNat % 2 = 0 then s1 else poll p fuel (s1.coreStep p)

end Sys2Proof.Machine
end

