-- ==== Sys2Proof/Safety.lean ====
section
/-! DEFINITION. What claims about runs speak of: the invariants that spec/10_state.md states (R31,
R34 to R36, R39 to R41), the form of the memory, and the bound on what a PROCESS writes
(spec/46_orchestrator.md R190). -/

namespace Sys2Proof.Machine

/-- x is a number in [lo, hi]; -0.0 is in [0, 1] (R35). -/
def inRange (lo hi x : F32) : Bool := fLe lo x && fLe x hi

/-- Every macro amount lies in [0, 1] or is -0.0 (R35). -/
def Amounts.inUnit (a : Amounts) : Bool :=
  inRange f0 f1 a.dbl && inRange f0 f1 a.flt && inRange f0 f1 a.rev && inRange f0 f1 a.mst

/-- The active and the pending amounts are clamped (R35). -/
def State.AmountsClamped (s : State) : Prop :=
  s.amounts.inUnit = true ∧ ∀ m, s.pend = some m → m.inUnit = true

/-- R34: not prepared implies a rate of 0, and prepared implies 1 ≤ sr ≤ MAX_SR. -/
def State.RateOk (p : Params) (s : State) : Prop :=
  (s.prepared = false → s.sr = 0) ∧ (s.prepared = true → 1 ≤ s.sr ∧ s.sr ≤ p.maxSr)

/-- R36: the invariant of a running PROCESS. -/
def Run.Ok (p : Params) (r : Run) : Prop :=
  1 ≤ r.n ∧ 1 ≤ r.lb ∧ 1 ≤ r.rb ∧ r.lb + r.n ≤ p.sampleRamWords ∧ r.rb + r.n ≤ p.sampleRamWords ∧
    r.i ≤ r.n

/-- R31 and R36: a running PROCESS is well formed and FRAME_INDEX shows its frame index; R198: a
pending set never outlives its PROCESS; R199: a PROCESS runs only on a prepared core. -/
def State.RunOk (p : Params) (s : State) : Prop :=
  (∀ r, s.run = some r → r.Ok p ∧ s.fidx = r.i ∧ s.prepared = true) ∧
    (s.run = none → s.pend = none)

/-- The delay lines of the datapath: 2 doubler lines, then 24 reverb lines (R39). -/
def Datapath.doublerLines (d : Datapath) : List DelayLine := [d.dbl.l.line, d.dbl.r.line]
def Datapath.reverbLines (d : Datapath) : List DelayLine :=
  d.rev.early.l.toList.map EarlyComb.line ++ d.rev.early.r.toList.map EarlyComb.line ++
    d.rev.late.l.toList.map LateComb.line ++ d.rev.late.r.toList.map LateComb.line

/-- Every delay line (R39). -/
def Datapath.lines (d : Datapath) : List DelayLine := d.doublerLines ++ d.reverbLines

/-- The 31 smoothers (R38): one for each line, and five of the reverb (R44). -/
def Datapath.smoothers (d : Datapath) : List Smoother :=
  d.lines.map DelayLine.dly ++ [d.rev.sDamp, d.rev.sFb, d.rev.sDry, d.rev.sW1, d.rev.sW2]

/-- The four biquads (R41). -/
def Datapath.biquads (d : Datapath) : List Biquad := [d.lp.l, d.lp.r, d.hp.l, d.hp.r]

/-- R39: cap ≤ phys; the cursor stays inside the capacity, at 0 when there is none; and the form of
`buf`: rising slots, none of them listed with +0.0, all inside the physical storage. -/
def DelayLine.Ok (phys : Nat) (l : DelayLine) : Prop :=
  l.cap ≤ phys ∧ (0 < l.cap → l.w < l.cap) ∧ (l.cap = 0 → l.w = 0) ∧
    risingFrom 0 l.buf = true ∧ ∀ c ∈ l.buf, c.2 ≠ f0 ∧ c.1 < phys

/-- R39 for all 26 lines. -/
def Datapath.LinesOk (p : Params) (d : Datapath) : Prop :=
  (∀ l ∈ d.doublerLines, l.Ok (physDoubler p)) ∧ (∀ l ∈ d.reverbLines, l.Ok (physReverb p))

/-- R41, R141: the cached coefficients are those of the current parameters. -/
def Biquad.Coherent (p : Params) (srF : F32) (b : Biquad) : Prop :=
  b.coefRate = srF ∧ b.coefs = coef p b.type b.cutoff b.q srF

/-- A biquad that PREPARE has configured holds parameters that are numbers above 0 and the
coefficients of them (R41, R184); before that its coefRate is +0.0. -/
def Biquad.Configured (p : Params) (b : Biquad) : Prop :=
  b.coefRate = f0 ∨
    (fLt f0 b.cutoff = true ∧ fLt f0 b.q = true ∧ fLt f0 b.coefRate = true ∧
      b.coefs = coef p b.type b.cutoff b.q b.coefRate)

/-- The types of the four biquads are constant (R41). -/
def Datapath.TypesOk (d : Datapath) : Prop :=
  d.lp.l.type = .lp ∧ d.lp.r.type = .lp ∧ d.hp.l.type = .hp ∧ d.hp.r.type = .hp

/-- R41, R141 for the four biquads of the state. -/
def State.BiquadsOk (p : Params) (s : State) : Prop :=
  s.dp.TypesOk ∧ (∀ b ∈ s.dp.biquads, b.Configured p) ∧
    (s.prepared = true → ∀ b ∈ s.dp.biquads, b.Coherent p (toF32 s.sr))

/-- R40: the feedback gain of each doubler lies in [0, 1] or is -0.0. -/
def Datapath.FeedbackOk (d : Datapath) : Prop :=
  inRange f0 f1 d.dbl.l.fb = true ∧ inRange f0 f1 d.dbl.r.fb = true

/-- The sample RAM keeps its canonical form. -/
def State.RamOk (s : State) : Prop := Memory.wf s.ram = true

/-- A sample word PROCESS may leave behind: a number in [-1.2, 1.2] (R190). -/
def outOk (w : Word) : Bool := inRange outLimitNeg outLimit w

/-- R190 along a run: every word the running PROCESS has written so far holds a number in
[-1.2, 1.2]. -/
def State.WrittenOk (s : State) : Prop :=
  ∀ r, s.run = some r → ∀ j, j < r.i →
    outOk (s.ramRead (r.lb + j)) = true ∧ outOk (s.ramRead (r.rb + j)) = true

/-- What every step keeps of the control state: R31, R34, R36, R37 and R198. -/
def State.ControlOk (p : Params) (s : State) : Prop := s.RateOk p ∧ s.RunOk p ∧ s.fidx < 2 ^ 31

/-- m is the magnitude that the quotient num / den, in units of 2^-149, rounds to under R12: infinity
from midway between the greatest finite number and 2^128 on, and below that a nearest finite magnitude,
the even one of two equally near. Magnitudes are numbered as their patterns, so an even one is a
pattern whose last fraction bit is 0. -/
def Rounds (num den m : Nat) : Prop :=
  if (2 ^ 25 - 1) * 2 ^ 252 * den ≤ num then m = infMag
  else m < infMag ∧ ∀ k, k < infMag →
    let err (j : Nat) : Int := |(magUnits j : Int) * den - num|
    err m ≤ err k ∧ (err m = err k → k ≠ m → m % 2 = 0)

/-- The core sequencer takes the next step, with the events `rest` to come after it: it is scheduled,
or nothing else is (R20, R252). -/
def State.CoreTurn (s : State) (rest : List Event) : Prop :=
  s.sched = .core :: rest ∨ (s.sched = [] ∧ rest = [])

/-- A host access is the next step, with the events `rest` to come after it (R20). -/
def State.HostTurn (s : State) (a : Access) (rest : List Event) : Prop := s.sched = .bus a :: rest

/-- s as a PROCESS of n frames at lb and rb leaves it on acceptance (R199). -/
def State.started (s : State) (n lb rb : Nat) : State :=
  { s with run := some ⟨n, lb, rb, 0⟩, fidx := 0, done := false, err := .noError }

/-- The registers that hold operands of commands (R81). -/
def operandRegs : List Reg :=
  [.sampleRate, .macroDoubler, .macroFilter, .macroReverb, .macroMaster, .numSamples, .leftBase,
   .rightBase]

/-- The smoother after k calls of next (R104). -/
def Smoother.afterNext : Nat → Smoother → Smoother
  | 0, s => s
  | k + 1, s => (Smoother.afterNext k s).next.2

/-- The outputs of a line in mode NONE, read and then fed with each sample in turn (R120). -/
def DelayLine.readThenPush : DelayLine → List F32 → List F32
  | _, [] => []
  | l, x :: t => (l.read .none).1 :: DelayLine.readThenPush ((l.read .none).2.push x) t

/-- The outputs of a line in mode NONE, fed with each sample and then read (R119, R120). -/
def DelayLine.pushThenRead : DelayLine → List F32 → List F32
  | _, [] => []
  | l, x :: t => (l.pushAndRead x .none).1 :: DelayLine.pushThenRead (l.pushAndRead x .none).2 t

/-- The outputs of a biquad fed with each sample in turn, and the biquad after them (R143, R145). -/
def Biquad.processAll : Biquad → List F32 → List F32 × Biquad
  | b, [] => ([], b)
  | b, x :: t =>
    let y := b.process x
    let r := Biquad.processAll y.2 t
    (y.1 :: r.1, r.2)

end Sys2Proof.Machine
end

