-- ==== Sys2Proof/Certificates/Slice0/Obligations.lean ====
section
/-! DEFINITION. The statements for the provers. Each docstring names the rule of spec/ it formalises,
or the log entry of the model's choice it rests on. -/

open Sys2Proof Sys2Proof.Machine

/-! ### Decoding (spec/30_encoding.md) -/

/-- R86, R84: the decoder on every 32-bit word. -/
def Obligations.DecoderIsTotalAndExact : Prop :=
  ∀ w : Word,
    (w.extractLsb' 4 28 ≠ 0#28 → decode w = .reservedBits) ∧
    (w.extractLsb' 4 28 = 0#28 →
      (w.extractLsb' 0 4 = 0#4 → decode w = .command .nop) ∧
      (w.extractLsb' 0 4 = 1#4 → decode w = .command .prepare) ∧
      (w.extractLsb' 0 4 = 2#4 → decode w = .command .setParameters) ∧
      (w.extractLsb' 0 4 = 3#4 → decode w = .command .process) ∧
      (4#4 ≤ w.extractLsb' 0 4 → decode w = .reservedOpcode))

/-- R83, R85, R63: the decoder, given the byte lanes of any word, reads the command i exactly where
the word is the command word of i; so decoding what encode writes gives the command back. -/
def Obligations.DecodeEncodeRoundTrip : Prop :=
  (∀ w : Word, decodeBytes (bytesOfWord w) = decode w) ∧
    (∀ (w : Word) (i : Instr), decodeBytes (bytesOfWord w) = .command i ↔ w = encode i) ∧
    ∀ i : Instr, i.wf = true → decodeTableWord 32 (encode i).toNat = some i

/-- R83, R86, R89: some words and what they decode to. -/
def Obligations.WrittenOutWordsDecode : Prop :=
  decode 0b00000000000000000000000000000000#32 = .command .nop ∧
    decode 0b00000000000000000000000000000001#32 = .command .prepare ∧
    decode 0b00000000000000000000000000000010#32 = .command .setParameters ∧
    decode 0b00000000000000000000000000000011#32 = .command .process ∧
    decode 0b00000000000000000000000000000100#32 = .reservedOpcode ∧
    decode 0b00000000000000000000000000001111#32 = .reservedOpcode ∧
    decode 0b00000000000000000000000000010011#32 = .reservedBits ∧
    decode 0b10000000000000000000000000000011#32 = .reservedBits

/-- R25, R80: when the next event writes a command word to CMD, the step is that command's meaning,
with the event taken from the schedule (the model's own field, log entry 3). -/
def Obligations.StepRunsDecodedCommand : Prop :=
  ∀ (s : State) (w : Word) (rest : List Event) (i : Instr),
    s.HostTurn ⟨.write, 32, 0x00C#20, w⟩ rest → decodeBytes (bytesOfWord w) = .command i → i.wf = true →
      step s = exec i { s with sched := rest }

/-- R84: a write of an illegal word to CMD only sets STATUS.ERR to ILLEGAL_CMD. -/
def Obligations.IllegalWordOnlySetsErr : Prop :=
  ∀ (s : State) (w : Word) (rest : List Event),
    s.HostTurn ⟨.write, 32, 0x00C#20, w⟩ rest → (w.extractLsb' 4 28 ≠ 0#28 ∨ 4#4 ≤ w.extractLsb' 0 4) →
      step s = .next { s with sched := rest, err := .illegalCmd }

/-! ### The four commands (spec/47_host_commands.md) -/

/-- R195: NOP only reports success, in every state. -/
def Obligations.NopOnlyReportsSuccess : Prop :=
  decode 0x00000000#32 = .command .nop ∧
    ∀ s : State, exec .nop s = .next { s with err := .noError }

/-- R196, R216: PREPARE in its four cases, the first that applies. On acceptance the datapath is
cleared (`Datapath.clear`), every parameter is re-derived from the active amounts at the new rate
(`Datapath.derive`), and every ramp is ended (`Datapath.snap`). -/
def Obligations.PrepareOutcomeAndEffect : Prop :=
  ∀ s : State,
    exec .prepare s = .next (
      if s.run ≠ none then { s with err := .busy }
      else if s.sampleRate = 0#32 then { s with err := .badRate }
      else if Config.kso.maxSr < s.sampleRate.toNat then
        { s with prepared := false, sr := 0, err := .capacity }
      else
        { s with
          sr := s.sampleRate.toNat
          prepared := true
          err := .noError
          dp := ((s.dp.clear Config.kso s.sampleRate.toNat).derive Config.kso
            s.sampleRate.toNat s.amounts).snap })

/-- R196, R100, R103, R110, R144, R165: what an accepted PREPARE leaves: every line sized and cleared,
with its duration; every biquad register and early-comb store cleared; every smoother with the ramp
length of the rate and its duration, at rest on the target that DERIVE gave it; and all else as DERIVE
left it. DERIVE runs on the datapath c, whose smoothers rest on their old targets. R100 compares with 2147483647, and no binary32 number lies between that and 2^31 (log entry
12). -/
def Obligations.PrepareClearsAndRests : Prop :=
  ∀ s : State, s.run = none → s.sampleRate ≠ 0#32 → s.sampleRate.toNat ≤ Config.kso.maxSr →
    let sr := s.sampleRate.toNat
    let c := s.dp.clear Config.kso sr
    let d := c.derive Config.kso sr s.amounts
    let ramp (dur : F32) : Nat :=
      let p := fMul (toF32 sr) dur
      if isNaN p = true ∨ fLe p 0x00000000#32 = true then 0
      else if fLe 0x4F000000#32 p = true then 2147483647
      else (floorI p).toNat
    let rest (dur : F32) (m : Smoother) : Smoother :=
      { m with steps := ramp dur, cur := m.tgt, cnt := 0 }
    let line (l : DelayLine) := (l.cap, l.w, l.rate, l.lastSm, l.dly)
    let prepared (dur : F32) (l : DelayLine) := (sr, 0, sr, dur, rest dur l.dly)
    let own (r : Reverb) := [r.sDamp, r.sFb, r.sDry, r.sW1, r.sW2]
    let params (r : Reverb) := (r.damping, r.size, r.mix, r.width, r.spread, r.wet)
    (c.doublerLines.map line = s.dp.doublerLines.map (prepared 0x3CF5C28F#32) ∧
      c.reverbLines.map line = s.dp.reverbLines.map (prepared Config.kso.revTimeSmoothS) ∧
      own c.rev = (own s.dp.rev).map (rest Config.kso.revSmoothS) ∧
      c.biquads = s.dp.biquads.map (fun b => { b with z1 := f0, z2 := f0 }) ∧
      c.dbl.map (fun k => (k.fb, k.wet, k.mode)) = s.dp.dbl.map (fun k => (k.fb, k.wet, k.mode)) ∧
      params c.rev = params s.dp.rev) ∧
    ∃ t, exec .prepare s = .next t ∧
      t.prepared = true ∧ t.sr = sr ∧ t.err = .noError ∧ t.amounts = s.amounts ∧
      (∀ l ∈ t.dp.lines, l.cap = sr ∧ l.w = 0 ∧ l.rate = sr ∧ ∀ j, j < l.cap → l.slot j = f0) ∧
      (∀ l ∈ t.dp.doublerLines, l.lastSm = 0x3CF5C28F#32 ∧ l.dly.steps = ramp 0x3CF5C28F#32) ∧
      (∀ l ∈ t.dp.reverbLines, l.lastSm = Config.kso.revTimeSmoothS ∧
        l.dly.steps = ramp Config.kso.revTimeSmoothS) ∧
      (∀ m ∈ own t.dp.rev, m.steps = ramp Config.kso.revSmoothS) ∧
      (∀ b ∈ t.dp.biquads, b.z1 = f0 ∧ b.z2 = f0 ∧ b.enabled = true) ∧
      (∀ c ∈ t.dp.rev.early.l.toList ++ t.dp.rev.early.r.toList, c.store = f0) ∧
      (∀ m ∈ t.dp.smoothers, m.cur = m.tgt ∧ m.cnt = 0) ∧
      t.dp.smoothers.length = 31 ∧
      t.dp.smoothers = d.smoothers.map (fun m => { m with cur := m.tgt, cnt := 0 }) ∧
      t.dp.lines.map (fun l => (l.cap, l.buf, l.w, l.rate, l.lastSm)) =
        d.lines.map (fun l => (l.cap, l.buf, l.w, l.rate, l.lastSm)) ∧
      t.dp.dbl.map (fun c => (c.fb, c.wet, c.mode)) = d.dbl.map (fun c => (c.fb, c.wet, c.mode)) ∧
      t.dp.biquads = d.biquads ∧ params t.dp.rev = params d.rev

/-- R201: a PREPARE right after a PREPARE changes nothing. -/
def Obligations.PrepareIsIdempotent : Prop :=
  ∀ s t : State, exec .prepare s = .next t → exec .prepare t = .next t

/-- R197, R198: SET_PARAMETERS clamps the four macro operands, and queues them while a PROCESS runs,
makes them active and derives from them on a prepared idle core, and only makes them active on an
unprepared one. -/
def Obligations.SetParametersOutcomeAndEffect : Prop :=
  ∀ s : State,
    let m : Amounts :=
      ⟨clampF s.macroDoubler f0 f1, clampF s.macroFilter f0 f1, clampF s.macroReverb f0 f1,
       clampF s.macroMaster f0 f1⟩
    exec .setParameters s = .next (
      if s.run ≠ none then { s with pend := some m, err := .noError }
      else if s.prepared = true then
        { s with amounts := m, err := .noError, dp := s.dp.derive Config.kso s.sr m }
      else { s with amounts := m, err := .noError })

/-- R182 (corner cases): a repeated identical SET_PARAMETERS is a no-op on the whole state. -/
def Obligations.RepeatedSetParametersIsNoOp : Prop :=
  ∀ s t : State, exec .setParameters s = .next t → exec .setParameters t = .next t

/-- R199, R216: PROCESS in its five cases, the first that applies. -/
def Obligations.ProcessOutcomeAndEffect : Prop :=
  ∀ s : State,
    exec .process s = .next (
      if s.run ≠ none then { s with err := .busy }
      else if s.numSamples.toInt ≤ 0 ∨ s.leftBase = 0#32 ∨ s.rightBase = 0#32 then
        { s with done := true, err := .noError }
      else if s.prepared = false then { s with err := .notPrepared }
      else if (Config.kso.sampleRamWords : Int) < s.leftBase.toNat + s.numSamples.toInt ∨
          (Config.kso.sampleRamWords : Int) < s.rightBase.toNat + s.numSamples.toInt then
        { s with err := .badAddr }
      else
        { s with
          run := some ⟨s.numSamples.toNat, s.leftBase.toNat, s.rightBase.toNat, 0⟩
          fidx := 0
          done := false
          err := .noError })

/-- R215: a command that ends with an outcome code other than NONE and CAPACITY changes nothing but
STATUS.ERR; with CAPACITY it also clears PREPARED and the active rate. -/
def Obligations.RejectedCommandOnlySetsErr : Prop :=
  ∀ (i : Instr) (s t : State), exec i s = .next t → t.err ≠ .noError →
    t = if t.err = .capacity then { s with err := .capacity, prepared := false, sr := 0 }
      else { s with err := t.err }

/-! ### The core sequencer (spec/46_orchestrator.md, spec/47_host_commands.md R200) -/

/-- R188: a frame step. The pending set is applied first; both inputs are read before either output is
written; each channel runs doubler, low-pass, high-pass; both run the reverb; the clamped outputs go
to words lb + i and rb + i, the right one last; every other byte of the sample RAM reads as before, and
every other field of the state is as before. -/
def Obligations.FrameStepInPlace : Prop :=
  ∀ (s : State) (rest : List Event) (r : Run),
    s.CoreTurn rest → s.run = some r → r.i < r.n →
    let d := (s.applyPending Config.kso).dp
    let cL := d.dbl.l.process (s.ramRead (r.lb + r.i))
    let cR := d.dbl.r.process (s.ramRead (r.rb + r.i))
    let lL := d.lp.l.process cL.1
    let lR := d.lp.r.process cR.1
    let hL := d.hp.l.process lL.1
    let hR := d.hp.r.process lR.1
    let v := d.rev.process Config.kso hL.1 hR.1
    ∃ t, step s = .next t ∧
      t = { s with
        sched := rest
        amounts := s.pend.getD s.amounts
        pend := none
        run := some { r with i := r.i + 1 }
        fidx := r.i + 1
        dp := ⟨⟨cL.2, cR.2⟩, ⟨lL.2, lR.2⟩, ⟨hL.2, hR.2⟩, v.2⟩
        ram := t.ram } ∧
      t.ramRead (r.rb + r.i) = clampF v.1.2 0xBF99999A#32 0x3F99999A#32 ∧
      (r.lb ≠ r.rb → t.ramRead (r.lb + r.i) = clampF v.1.1 0xBF99999A#32 0x3F99999A#32) ∧
      ∀ a, (a < 0x1000 + 4 * (r.lb + r.i) ∨ 0x1000 + 4 * (r.lb + r.i) + 4 ≤ a) →
        (a < 0x1000 + 4 * (r.rb + r.i) ∨ 0x1000 + 4 * (r.rb + r.i) + 4 ≤ a) →
        t.ramByte a = s.ramByte a

/-- R187: applying a pending set makes it active, clears it and re-derives every parameter; with none
pending nothing changes. -/
def Obligations.PendingSetCommitsWhole : Prop :=
  ∀ (s : State) (m : Amounts),
    (s.pend = some m → s.applyPending Config.kso =
      { s with amounts := m, pend := none, dp := s.dp.derive Config.kso s.sr m }) ∧
    (s.pend = none → s.applyPending Config.kso = s)

/-- R198, R188: of two SET_PARAMETERS between two frames, the next frame step runs as if only the
second had been issued. -/
def Obligations.LastPendingSetWins : Prop :=
  ∀ (s t u : State) (a b c d : Word), s.run ≠ none →
    exec .setParameters s = .next t →
    exec .setParameters
      { t with macroDoubler := a, macroFilter := b, macroReverb := c, macroMaster := d } = .next u →
    u.dp = s.dp ∧ u.amounts = s.amounts ∧
      exec .setParameters
        { s with macroDoubler := a, macroFilter := b, macroReverb := c, macroMaster := d } = .next u

/-- R200: the completion step, after the last frame. -/
def Obligations.CompletionStep : Prop :=
  ∀ (s : State) (rest : List Event) (r : Run),
    s.CoreTurn rest → s.run = some r → r.i = r.n →
    step s = .next
      { s with
        sched := rest
        amounts := s.pend.getD s.amounts
        dp := match s.pend with
          | none => s.dp
          | some m => s.dp.derive Config.kso s.sr m
        pend := none
        run := none
        done := true }

/-- R230: with BUSY = 0 and no event to come the core performs no step and changes no state. That
an idle core takes its turn at all is the model's choice (log entry 3). -/
def Obligations.IdleCoreChangesNothing : Prop :=
  ∀ (s : State) (rest : List Event), s.run = none → s.CoreTurn rest →
    step s = .next { s with sched := rest }

/-- R192: no step of the core sequencer changes the capacity of a line. -/
def Obligations.NoFrameChangesCapacity : Prop :=
  ∀ (s t : State) (rest : List Event), s.CoreTurn rest → step s = .next t →
    t.dp.lines.map DelayLine.cap = s.dp.lines.map DelayLine.cap

/-- R252, R200: with no host access to come, a running PROCESS with f frames left is completed after
exactly f + 1 core steps, and BUSY reads 1 until then. That the core steps when nothing is scheduled
is how the model states fairness (log entry 3). -/
def Obligations.ProcessCompletesAfterItsFrames : Prop :=
  ∀ (s : State) (r : Run), s.run = some r → r.Ok Config.kso → s.sched = [] →
    (∀ k, k ≤ r.n - r.i → ∃ t, Host.Core.run core k s = .next t ∧
      t.run = some { r with i := r.i + k } ∧ (1 ≤ k → t.fidx = r.i + k)) ∧
    ∃ t, Host.Core.run core (r.n - r.i + 1) s = .next t ∧ t.run = none ∧ t.done = true ∧
      t.pend = none ∧ t.err = s.err ∧ (r.i < r.n → t.fidx = r.n)

/-- R202: a PROCESS of n + m frames leaves what a PROCESS of n frames and then one of m frames over
the following words leave; only FRAME_INDEX tells them apart. -/
def Obligations.BlockSplitIsInvisible : Prop :=
  ∀ (s : State) (n m lb rb : Nat), s.sched = [] → s.pend = none → 1 ≤ n → 1 ≤ m →
    ∃ t u v, Host.Core.run core (n + m + 1) (s.started (n + m) lb rb) = .next t ∧
      Host.Core.run core (n + 1) (s.started n lb rb) = .next u ∧
      Host.Core.run core (m + 1) (u.started m (lb + n) (rb + n)) = .next v ∧
      t.fidx = n + m ∧ v = { t with fidx := m }

/-- R248: rewriting an operand register changes nothing about the steps of the core that follow but
the register itself. -/
def Obligations.OperandRewriteIsInvisible : Prop :=
  ∀ (k : Nat) (s : State) (r : Reg) (x : Word), r ∈ operandRegs → s.sched = [] →
    ∃ t, Host.Core.run core k s = .next t ∧
      Host.Core.run core k (s.writeReg x r) = .next (t.writeReg x r)

/-! ### Host bus accesses (spec/10_state.md R21 to R31, spec/20_memory.md) -/

/-- R66: a host read changes nothing but the word the bus returns (log entry 4). -/
def Obligations.HostReadHasNoSideEffect : Prop :=
  ∀ (s t : State) (a : Access) (rest : List Event), s.HostTurn a rest → a.kind = .read →
    step s = .next t → t = { s with sched := rest, busData := t.busData }

/-- R21, R22, R25 to R31: what a host read at the offset of each register but CTRL and STATUS returns.
The returned word is log entry 4, the width of the two counters log entry 16. -/
def Obligations.RegisterReadValues : Prop :=
  ∀ (s : State) (x : Word) (rest : List Event) (a : HostAddr) (v : Word),
    (a, v) ∈
        [(0x000#20, 0x4B534F07#32), (0x00C#20, 0x00000000#32), (0x010#20, s.sampleRate),
         (0x014#20, s.macroDoubler), (0x018#20, s.macroFilter), (0x01C#20, s.macroReverb),
         (0x020#20, s.macroMaster), (0x024#20, s.numSamples), (0x028#20, s.leftBase),
         (0x02C#20, s.rightBase), (0x030#20, BitVec.ofNat 32 s.sr),
         (0x034#20, BitVec.ofNat 32 s.fidx)] →
      s.HostTurn ⟨.read, 32, a, x⟩ rest → step s = .next { s with sched := rest, busData := v }

/-- R23, R24, R215: what a host read of CTRL and STATUS returns, bit by bit, with the number of each
outcome code (the returned word: log entry 4). -/
def Obligations.StatusAndCtrlFields : Prop :=
  ∀ (s : State) (x : Word) (rest : List Event),
    (s.HostTurn ⟨.read, 32, 0x008#20, x⟩ rest →
      ∃ v : Word, step s = .next { s with sched := rest, busData := v } ∧
        v.getLsbD 0 = s.run.isSome ∧ v.getLsbD 1 = s.prepared ∧ v.getLsbD 2 = s.done ∧
        v.getLsbD 3 = s.pend.isSome ∧
        v.extractLsb' 4 4 = (match s.err with
          | .noError => 0#4
          | .illegalCmd => 1#4
          | .busy => 2#4
          | .notPrepared => 3#4
          | .badRate => 4#4
          | .capacity => 5#4
          | .badAddr => 6#4) ∧
        v.extractLsb' 8 24 = 0#24) ∧
    (s.HostTurn ⟨.read, 32, 0x004#20, x⟩ rest →
      ∃ v : Word, step s = .next { s with sched := rest, busData := v } ∧
        v.getLsbD 0 = s.irqEn ∧ v.extractLsb' 1 31 = 0#31)

/-- R26 to R29: a host write to an operand register stores the word there, and changes nothing else,
the active rate and amounts among it. -/
def Obligations.OperandRegisterWrites : Prop :=
  ∀ (s : State) (x : Word) (rest : List Event),
    (s.HostTurn ⟨.write, 32, 0x010#20, x⟩ rest →
      step s = .next { s with sched := rest, sampleRate := x }) ∧
    (s.HostTurn ⟨.write, 32, 0x014#20, x⟩ rest →
      step s = .next { s with sched := rest, macroDoubler := x }) ∧
    (s.HostTurn ⟨.write, 32, 0x018#20, x⟩ rest →
      step s = .next { s with sched := rest, macroFilter := x }) ∧
    (s.HostTurn ⟨.write, 32, 0x01C#20, x⟩ rest →
      step s = .next { s with sched := rest, macroReverb := x }) ∧
    (s.HostTurn ⟨.write, 32, 0x020#20, x⟩ rest →
      step s = .next { s with sched := rest, macroMaster := x }) ∧
    (s.HostTurn ⟨.write, 32, 0x024#20, x⟩ rest →
      step s = .next { s with sched := rest, numSamples := x }) ∧
    (s.HostTurn ⟨.write, 32, 0x028#20, x⟩ rest →
      step s = .next { s with sched := rest, leftBase := x }) ∧
    (s.HostTurn ⟨.write, 32, 0x02C#20, x⟩ rest →
      step s = .next { s with sched := rest, rightBase := x })

/-- R22, R30, R31, R66: a host write to a read-only register has no effect. -/
def Obligations.ReadOnlyRegistersIgnoreWrites : Prop :=
  ∀ (s : State) (x : Word) (rest : List Event) (a : HostAddr),
    a ∈ [0x000#20, 0x030#20, 0x034#20] → s.HostTurn ⟨.write, 32, a, x⟩ rest →
      step s = .next { s with sched := rest }

/-- R24, R66: writing STATUS affects only DONE, and only by a 1 in bit 2. R23: writing CTRL sets
IRQ_EN to bit 0 and affects nothing else. -/
def Obligations.StatusAndCtrlWrites : Prop :=
  ∀ (s : State) (x : Word) (rest : List Event),
    (s.HostTurn ⟨.write, 32, 0x008#20, x⟩ rest →
      step s = .next { s with sched := rest, done := s.done && !x.getLsbD 2 }) ∧
    (s.HostTurn ⟨.write, 32, 0x004#20, x⟩ rest →
      step s = .next { s with sched := rest, irqEn := x.getLsbD 0 })

/-- R222: the interrupt level is DONE and IRQ_EN in every state. -/
def Obligations.IrqIsDoneAndEnable : Prop :=
  ∀ (s t : State) (rest : List Event) (x : Word),
    (s.irq = true ↔ s.done = true ∧ s.irqEn = true) ∧
    (s.HostTurn ⟨.write, 32, 0x004#20, x⟩ rest → step s = .next t →
      t.done = s.done ∧ (x.getLsbD 0 = true → t.irq = s.done) ∧ (x.getLsbD 0 = false → t.irq = false))

/-- R21, R61: an aligned 32-bit access to an offset that names neither a register nor a sample-RAM
word reads 0 or is ignored. -/
def Obligations.UnmappedReadsZeroIgnoresWrites : Prop :=
  ∀ (s : State) (a : Access) (rest : List Event), s.HostTurn a rest → a.wf = true →
    ((0x038 ≤ a.addr.toNat ∧ a.addr.toNat < 0x1000) ∨
      0x1000 + 4 * Config.kso.sampleRamWords ≤ a.addr.toNat) →
    (a.kind = .read → step s = .next { s with sched := rest, busData := 0#32 }) ∧
      (a.kind = .write → step s = .next { s with sched := rest })

/-- R61, R63, R64, R68: a host access to a sample-RAM word outside the running buffers. A read returns
the word, whose lane j is the byte at its address plus j, and changes nothing else; a write is what the
word then reads as, lane by lane, and every other byte reads as before. -/
def Obligations.HostRamAccess : Prop :=
  ∀ (s : State) (k : Nat) (x : Word) (rest : List Event), k < Config.kso.sampleRamWords →
    (∀ r, s.run = some r → ¬(r.lb ≤ k ∧ k < r.lb + r.n) ∧ ¬(r.rb ≤ k ∧ k < r.rb + r.n)) →
    (s.HostTurn ⟨.read, 32, BitVec.ofNat 20 (0x1000 + 4 * k), x⟩ rest →
      step s = .next { s with sched := rest, busData := s.ramRead k } ∧
        ∀ j, j < 4 → (s.ramRead k).extractLsb' (8 * j) 8 = s.ramByte (0x1000 + 4 * k + j)) ∧
    (s.HostTurn ⟨.write, 32, BitVec.ofNat 20 (0x1000 + 4 * k), x⟩ rest →
      ∃ t, step s = .next t ∧ t = { s with sched := rest, ram := t.ram } ∧ t.ramRead k = x ∧
        (∀ j, j < 4 → t.ramByte (0x1000 + 4 * k + j) = x.extractLsb' (8 * j) 8) ∧
        ∀ b, b < 0x1000 + 4 * k ∨ 0x1000 + 4 * k + 4 ≤ b → t.ramByte b = s.ramByte b)

/-- R68, R217: a host access to a word of the running buffers is the fault RAM_RACE; that
the run stops there is log entry 10. -/
def Obligations.RamRaceStops : Prop :=
  ∀ (s : State) (k : Nat) (kind : AccessKind) (x : Word) (rest : List Event) (r : Run),
    k < Config.kso.sampleRamWords → s.run = some r →
    ((r.lb ≤ k ∧ k < r.lb + r.n) ∨ (r.rb ≤ k ∧ k < r.rb + r.n)) →
    s.HostTurn ⟨kind, 32, BitVec.ofNat 20 (0x1000 + 4 * k), x⟩ rest →
      step s = .fault (.ramRace k kind)

/-- R62, R217: a host access that is not 32 bits wide or not aligned is the fault BUS_ERROR;
that the run stops there is log entry 10. -/
def Obligations.BusErrorStops : Prop :=
  ∀ (s : State) (a : Access) (rest : List Event), s.HostTurn a rest →
    (a.width ≠ 32 ∨ a.addr.toNat % 4 ≠ 0) → step s = .fault (.busError a.addr a.width a.kind)

/-- R217: no other condition faults, and no step is refused. -/
def Obligations.OnlyBusMisuseFaults : Prop :=
  ∀ s : State,
    (∀ q, step s ≠ .refused q) ∧
    ∀ f, step s = .fault f → ∃ a rest, s.HostTurn a rest ∧
      (((a.width ≠ 32 ∨ a.addr.toNat % 4 ≠ 0) ∧ f = .busError a.addr a.width a.kind) ∨
        ∃ k r, k < Config.kso.sampleRamWords ∧ a.addr.toNat = 0x1000 + 4 * k ∧ s.run = some r ∧
          ((r.lb ≤ k ∧ k < r.lb + r.n) ∨ (r.rb ≤ k ∧ k < r.rb + r.n)) ∧ f = .ramRace k a.kind)

/-- R215: only a write to CMD, and RESET, write STATUS.ERR. -/
def Obligations.ErrWrittenOnlyByCommands : Prop :=
  ∀ s t : State, step s = .next t → t.err ≠ s.err →
    (∃ w rest, s.HostTurn ⟨.write, 32, 0x00C#20, w⟩ rest) ∨ ∃ rest, s.sched = .hardReset :: rest

/-- R221: DONE is set only by the completion step and by a PROCESS accepted as a no-op, and cleared
only by a host write to STATUS with bit 2 = 1 and by the acceptance of a PROCESS with frames; and, as
every field, by RESET (R240). -/
def Obligations.DoneChangesOnlyAsListed : Prop :=
  ∀ s t : State, step s = .next t →
    (s.done = false → t.done = true →
      (∃ r rest, s.CoreTurn rest ∧ s.run = some r ∧ r.i = r.n ∧ t.run = none) ∨
      (∃ rest, s.HostTurn ⟨.write, 32, 0x00C#20, 0x00000003#32⟩ rest ∧ s.run = none ∧ t.run = none ∧
        t.err = .noError ∧
        (s.numSamples.toInt ≤ 0 ∨ s.leftBase = 0#32 ∨ s.rightBase = 0#32))) ∧
    (s.done = true → t.done = false →
      (∃ x rest, s.HostTurn ⟨.write, 32, 0x008#20, x⟩ rest ∧ x.getLsbD 2 = true) ∨
      (∃ r rest, s.HostTurn ⟨.write, 32, 0x00C#20, 0x00000003#32⟩ rest ∧ s.run = none ∧ t.run = some r ∧
        r.i = 0 ∧ 1 ≤ r.n) ∨
      ∃ rest, s.sched = .hardReset :: rest)

/-! ### Reset (spec/70_reset_and_hazards.md) -/

/-- R241: the state right after reset. -/
def Obligations.ResetValues : Prop :=
  let s := State.reset
  (s.irqEn = false ∧ s.done = false ∧ s.err = .noError ∧ s.fidx = 0 ∧ s.sampleRate = 0#32 ∧
    s.macroDoubler = 0#32 ∧ s.macroFilter = 0#32 ∧ s.macroReverb = 0#32 ∧ s.macroMaster = 0#32 ∧
    s.numSamples = 0#32 ∧ s.leftBase = 0#32 ∧ s.rightBase = 0#32 ∧ s.prepared = false ∧ s.sr = 0 ∧
    s.amounts = ⟨f0, f0, f0, f0⟩ ∧ s.pend = none ∧ s.run = none ∧ s.irq = false ∧
    s.statusWord = 0#32 ∧ s.ctrlWord = 0#32) ∧
  (∀ l ∈ s.dp.lines, l.cap = 0 ∧ l.w = 0 ∧ l.rate = 0 ∧ l.lastSm = 0xBF800000#32) ∧
  (∀ m ∈ s.dp.smoothers, m = ⟨f0, f0, 0, 0, f0⟩) ∧
  (∀ d ∈ s.dp.dbl.toList, d.fb = f0 ∧ d.wet = f0 ∧ d.mode = Config.kso.dblInterp) ∧
  (∀ b ∈ s.dp.biquads, b.cutoff = f0 ∧ b.q = f0 ∧ b.enabled = true ∧ b.coefs = ⟨f0, f0, f0, f0, f0⟩ ∧
    b.coefRate = f0 ∧ b.z1 = f0 ∧ b.z2 = f0) ∧
  (∀ c ∈ s.dp.rev.early.l.toList ++ s.dp.rev.early.r.toList, c.store = f0) ∧
  s.dp.rev.damping = f0 ∧ s.dp.rev.size = f0 ∧ s.dp.rev.mix = f0 ∧ s.dp.rev.width = f0 ∧
  s.dp.rev.spread = f0 ∧ s.dp.rev.wet = f0

/-- R240, R242: RESET sets every piece of state to its reset value in one step, from every state; a
running PROCESS and a pending set are gone, and the sample RAM is unspecified anew: its bytes are the
draws of the next RESET count (log entries 1 and 2). The events to come stay to come (log entry 3). -/
def Obligations.HardResetStep : Prop :=
  ∀ (s : State) (rest : List Event), s.sched = .hardReset :: rest →
    step s = .next { State.reset with sched := rest, ramEpoch := s.ramEpoch + 1 } ∧
      ∀ t, step s = .next t → t.run = none ∧ t.pend = none ∧
        ∀ a, t.ramByte a = Config.ramDraw (s.ramEpoch + 1) a

/-! ### Invariants that every step keeps -/

/-- R31, R34 to R37, R39 to R41, R190, R198: the reset state meets every invariant below. The form of
the sample RAM (`RamOk`) is the model's choice of log entry 1, the slot list inside `LinesOk` that of
log entry 9. -/
def Obligations.ResetMeetsInvariants : Prop :=
  State.reset.ControlOk Config.kso ∧ State.reset.AmountsClamped ∧
    State.reset.dp.LinesOk Config.kso ∧ State.reset.BiquadsOk Config.kso ∧
    State.reset.dp.FeedbackOk ∧ State.reset.RamOk ∧ State.reset.WrittenOk

/-- R31, R34, R36, R37, R198: every step keeps the invariant of the control state. -/
def Obligations.StepKeepsControl : Prop :=
  ∀ s t : State, s.ControlOk Config.kso → step s = .next t → t.ControlOk Config.kso

/-- R35: every step keeps the active and the pending amounts in [0, 1] or at -0.0. -/
def Obligations.StepKeepsAmountsClamped : Prop :=
  ∀ s t : State, s.AmountsClamped → step s = .next t → t.AmountsClamped

/-- R39: every step keeps the invariant of the 26 delay lines (their list form is log entry 9). -/
def Obligations.StepKeepsLines : Prop :=
  ∀ s t : State, s.dp.LinesOk Config.kso → step s = .next t → t.dp.LinesOk Config.kso

/-- R41, R141: every step keeps the cached coefficients of each biquad equal to COEF of its current
parameters whenever the core is prepared. -/
def Obligations.StepKeepsBiquadsCoherent : Prop :=
  ∀ s t : State, s.ControlOk Config.kso → s.BiquadsOk Config.kso → step s = .next t →
    t.BiquadsOk Config.kso

/-- R40: every step keeps the feedback gain of each doubler in [0, 1] or at -0.0. -/
def Obligations.StepKeepsFeedback : Prop :=
  ∀ s t : State, s.dp.FeedbackOk → step s = .next t → t.dp.FeedbackOk

/-- Every step keeps the canonical form of the sample RAM, the model's choice (log entry 1). -/
def Obligations.StepKeepsRamForm : Prop :=
  ∀ s t : State, s.RamOk → step s = .next t → t.RamOk

/-- R190: every word a running PROCESS has written holds a number in [-1.2, 1.2] after every step, and
at its completion every word of both buffers does. -/
def Obligations.StepKeepsOutputsBounded : Prop :=
  ∀ s t : State, s.ControlOk Config.kso → s.WrittenOk → step s = .next t →
    t.WrittenOk ∧
      ∀ r rest, s.CoreTurn rest → s.run = some r → t.run = none →
        ∀ j, j < r.n → outOk (t.ramRead (r.lb + j)) = true ∧ outOk (t.ramRead (r.rb + j)) = true

/-! ### Units of the datapath (spec/41 to spec/46) -/

/-- R14: clampF lands between its bounds, maps NaN to the lower one, and passes what is between them
bit for bit. R189: OUTCLAMP answers a number in [-1.2, 1.2]. -/
def Obligations.ClampLandsInRange : Prop :=
  (∀ x lo hi : F32, fLe lo hi = true →
    fLe lo (clampF x lo hi) = true ∧ fLe (clampF x lo hi) hi = true ∧
      (isNaN x = true → clampF x lo hi = lo) ∧ (fLt x lo = true → clampF x lo hi = lo) ∧
      (fLt hi x = true → clampF x lo hi = hi) ∧
      (fLe lo x = true → fLe x hi = true → clampF x lo hi = x)) ∧
    ∀ x : F32, isNaN (outClamp x) = false ∧ fLe 0xBF99999A#32 (outClamp x) = true ∧
      fLe (outClamp x) 0x3F99999A#32 = true

/-- R12: rounding answers the nearest binary32 magnitude of the exact quotient num / den (in units of
2^-149), the even one of two equally near, and infinity exactly from midway between the greatest finite
number and 2^128 on (`Rounds`). -/
def Obligations.RoundingIsNearestEven : Prop :=
  ∀ num den : Nat, 0 < den → Rounds num den (roundMag num den)

/-- R12, R14, R63: what the patterns of binary32 stand for, and each conversion, comparison and
operation on them. Of finite operands the exact result is rounded once; an exact sum of zero is +0.0
unless both addends are negative; and the NaNs and infinities are those of IEEE 754. `units` is a
magnitude in units of 2^-149 and `intValue` the signed value in them. -/
def Obligations.OperationsRoundOnce : Prop :=
  ∀ x y : F32,
    let e := (x.extractLsb' 23 8).toNat
    let frac := (x.extractLsb' 0 23).toNat
    let neg := signBit x != signBit y
    let sum := intValue x + intValue y
    let diff := intValue x - intValue y
    (signBit x = x.getLsbD 31 ∧ (isNaN x = true ↔ e = 255 ∧ frac ≠ 0) ∧
      (isInf x = true ↔ e = 255 ∧ frac = 0) ∧ (isFinite x = true ↔ e ≠ 255) ∧
      (isZero x = true ↔ e = 0 ∧ frac = 0) ∧
      (e = 0 → units x = frac) ∧ (1 ≤ e → e ≤ 254 → units x = (2 ^ 23 + frac) * 2 ^ (e - 1)) ∧
      intValue x = if signBit x = true then -(units x : Int) else (units x : Int)) ∧
    (∀ n : Nat, Rounds (n * 2 ^ 149) 1 (magBits (toF32 n)) ∧ signBit (toF32 n) = false) ∧
    (isFinite x = true → floorI x * 2 ^ 149 ≤ intValue x ∧ intValue x < (floorI x + 1) * 2 ^ 149) ∧
    (isNaN x = true ∨ isNaN y = true → fLt x y = false ∧ fLe x y = false ∧ fEq x y = false) ∧
    (isFinite x = true → isFinite y = true →
      (fLt x y = true ↔ intValue x < intValue y) ∧ (fLe x y = true ↔ intValue x ≤ intValue y) ∧
        (fEq x y = true ↔ intValue x = intValue y)) ∧
    (isInf x = true → isFinite y = true →
      fLt x y = signBit x ∧ fLe x y = signBit x ∧ fLt y x = !signBit x ∧ fLe y x = !signBit x ∧
        fEq x y = false ∧ fEq y x = false) ∧
    (isInf x = true → isInf y = true →
      fLt x y = (signBit x && !signBit y) ∧ fLe x y = (signBit x || !signBit y) ∧
        fEq x y = (signBit x == signBit y)) ∧
    (isNaN x = true ∨ isNaN y = true →
      isNaN (fAdd x y) = true ∧ isNaN (fSub x y) = true ∧ isNaN (fMul x y) = true ∧
        isNaN (fDiv x y) = true) ∧
    (isFinite x = true → isFinite y = true →
      (Rounds sum.natAbs 1 (magBits (fAdd x y)) ∧
        signBit (fAdd x y) = if sum = 0 then signBit x && signBit y else decide (sum < 0)) ∧
      (Rounds diff.natAbs 1 (magBits (fSub x y)) ∧
        signBit (fSub x y) = if diff = 0 then signBit x && !signBit y else decide (diff < 0)) ∧
      (Rounds (units x * units y) (2 ^ 149) (magBits (fMul x y)) ∧ signBit (fMul x y) = neg) ∧
      (isZero y = false →
        Rounds (units x * 2 ^ 149) (units y) (magBits (fDiv x y)) ∧ signBit (fDiv x y) = neg) ∧
      (isZero y = true → isZero x = false → isInf (fDiv x y) = true ∧ signBit (fDiv x y) = neg) ∧
      (isZero y = true → isZero x = true → isNaN (fDiv x y) = true)) ∧
    (isInf x = true → isFinite y = true →
      fAdd x y = x ∧ fSub x y = x ∧ (isZero y = true → isNaN (fMul x y) = true) ∧
        (isZero y = false → isInf (fMul x y) = true ∧ signBit (fMul x y) = neg) ∧
        isInf (fDiv x y) = true ∧ signBit (fDiv x y) = neg) ∧
    (isFinite x = true → isInf y = true →
      fAdd x y = y ∧ (isInf (fSub x y) = true ∧ signBit (fSub x y) = !signBit y) ∧
        (isZero x = true → isNaN (fMul x y) = true) ∧
        (isZero x = false → isInf (fMul x y) = true ∧ signBit (fMul x y) = neg) ∧
        isZero (fDiv x y) = true ∧ signBit (fDiv x y) = neg) ∧
    (isInf x = true → isInf y = true →
      (neg = false → fAdd x y = x ∧ isNaN (fSub x y) = true) ∧
        (neg = true → isNaN (fAdd x y) = true ∧ fSub x y = x) ∧
        (isInf (fMul x y) = true ∧ signBit (fMul x y) = neg) ∧ isNaN (fDiv x y) = true)

/-- R100 to R104: each operation of a smoother. reset sets the ramp length and ends the ramp; snapTo
jumps and keeps the ramp length; setTarget of the value of the target changes nothing, with no steps it
jumps, and with steps it starts a ramp from the current value; next takes one step of the ramp and
writes nothing but the count and the current value. So with steps = n > 0 each of the first n - 1 calls
of next after setTarget returns the value before it plus the increment, and the n-th and every later
call returns the new target exactly. R100 compares with 2147483647, and no binary32 number lies between
that and 2^31 (log entry 12). -/
def Obligations.SmootherRampLandsOnTarget : Prop :=
  ∀ (s : Smoother) (v dur : F32) (rate : Nat),
    (let p := fMul (toF32 rate) dur
     s.reset rate dur =
       { s with
         steps :=
           if isNaN p = true ∨ fLe p 0x00000000#32 = true then 0
           else if fLe 0x4F000000#32 p = true then 2147483647
           else (floorI p).toNat
         cur := s.tgt
         cnt := 0 }) ∧
    s.snapTo v = { s with tgt := v, cur := v, cnt := 0 } ∧
    (s.cnt = 0 → s.next = (s.tgt, s)) ∧
    (s.cnt ≠ 0 →
      let c := if s.cnt = 1 then s.tgt else fAdd s.cur s.stp
      s.next = (c, { s with cnt := s.cnt - 1, cur := c })) ∧
    (fEq v s.tgt = true → s.setTarget v = s) ∧
    (fEq v s.tgt = false → s.steps = 0 → s.setTarget v = { s with cur := v, tgt := v, cnt := 0 }) ∧
    (fEq v s.tgt = false → s.steps ≠ 0 →
      let s0 := s.setTarget v
      s0 = { s with
          tgt := v, cnt := s.steps, stp := fDiv (fSub v s.cur) (toF32 s.steps) } ∧
        (∀ k, k + 1 < s.steps →
          (s0.afterNext k).next.1 = fAdd (s0.afterNext k).cur s0.stp ∧
            (s0.afterNext (k + 1)).cur = (s0.afterNext k).next.1) ∧
        ∀ k, s.steps ≤ k + 1 → (s0.afterNext k).next.1 = v)

/-- R113, R114: after a push the pushed sample is at age 1 and every older sample still held is one age
older; a line with no slots ignores it. Age k is slot (w - k + cap) mod cap. -/
def Obligations.PushShiftsAges : Prop :=
  ∀ (phys : Nat) (l : DelayLine) (x : F32), l.Ok phys →
    (l.cap = 0 → l.push x = l) ∧
    (0 < l.cap →
      l.push x = { l with w := (l.w + 1) % l.cap, buf := (l.push x).buf } ∧ (l.push x).age 1 = x ∧
        (∀ k, 1 ≤ k → k < l.cap → (l.push x).age (k + 1) = l.age k) ∧
        ∀ k, 1 ≤ k → k ≤ l.cap → l.age k = l.slot ((l.w + l.cap - k) % l.cap))

/-- R115: the clamped offset keeps every age the reader touches inside [1, cap], in each mode. -/
def Obligations.ReadStaysInsideLine : Prop :=
  ∀ (cap rate : Nat) (dsec : F32) (mode : Interp), needSlots mode ≤ cap → cap ≤ 2 ^ 24 →
    let o := offsetOf mode cap rate dsec
    fLe f0 o.2 = true ∧ fLt o.2 f1 = true ∧
      match mode with
      | .none => 1 ≤ o.1 ∧ o.1 ≤ cap ∧ (fEq o.2 f0 = false → o.1 + 1 ≤ cap)
      | .linear => 1 ≤ o.1 ∧ o.1 + 1 ≤ cap
      | .cubic => 2 ≤ o.1 ∧ o.1 + 2 ≤ cap

/-- R115 to R118: a read takes one step of the delay smoother and answers +0.0 where the line has fewer
slots than the mode needs; elsewhere the clamped offset has an integer age i and a fraction f, and the
read answers S(i) bit for bit where f is zero, and what the mode makes of the neighbours where it is
not: S(i + 1), their linear blend, or the Catmull-Rom spline in the evaluation order of R118. -/
def Obligations.ZeroFractionIsPassthrough : Prop :=
  ∀ (l : DelayLine) (mode : Interp),
    let t := l.dly.next
    let need := match mode with | .none => 1 | .linear => 2 | .cubic => 4
    let lo : F32 := match mode with | .none => f1 | .linear => f1 | .cubic => f2
    let hi : F32 := match mode with
      | .none => toF32 l.cap
      | .linear => toF32 (l.cap - 1)
      | .cubic => toF32 (l.cap - 2)
    let d := clampF (fMul t.1 (toF32 l.rate)) lo hi
    let i := (floorI d).toNat
    let f := fSub d (toF32 i)
    let p0 := l.age (i - 1)
    let p1 := l.age i
    let p2 := l.age (i + 1)
    let p3 := l.age (i + 2)
    let c1 := fMul 0x3F000000#32 (fSub p2 p0)
    let c2 := fSub (fAdd (fSub p0 (fMul 0x40200000#32 p1)) (fMul 0x40000000#32 p2))
      (fMul 0x3F000000#32 p3)
    let c3 := fAdd (fMul 0x3F000000#32 (fSub p3 p0)) (fMul 0x3FC00000#32 (fSub p1 p2))
    (l.read mode).2 = { l with dly := t.2 } ∧
      (l.cap < need → (l.read mode).1 = f0) ∧
      (need ≤ l.cap → fEq f f0 = true → (l.read mode).1 = p1) ∧
      (need ≤ l.cap → fEq f f0 = false → (l.read mode).1 = match mode with
        | .none => p2
        | .linear => fAdd p1 (fMul f (fSub p2 p1))
        | .cubic => fAdd (fMul (fAdd (fMul (fAdd (fMul c3 f) c2) f) c1) f) p1)

/-- R120: on a cleared line with a constant offset of exactly n samples and mode NONE, read-then-push
returns each sample n steps later and +0.0 before, and push-then-read returns it n - 1 steps later. -/
def Obligations.DelayIsExact : Prop :=
  ∀ (phys n : Nat) (l : DelayLine) (xs : List F32), l.Ok phys → l.cap ≤ 2 ^ 24 → 1 ≤ n → n ≤ l.cap →
    (∀ j, j < l.cap → l.slot j = f0) → l.dly.cnt = 0 → fMul l.dly.tgt (toF32 l.rate) = toF32 n →
    (l.readThenPush xs).length = xs.length ∧ (l.pushThenRead xs).length = xs.length ∧
      ∀ j, j < xs.length →
        (l.readThenPush xs).getD j f0 = (if j < n then f0 else xs.getD (j - n) f0) ∧
          (l.pushThenRead xs).getD j f0 = (if j + 1 < n then f0 else xs.getD (j + 1 - n) f0)

/-- R145: a disabled biquad returns every input sequence unchanged, bit for bit, and keeps its
registers. -/
def Obligations.DisabledBiquadPassesThrough : Prop :=
  ∀ (b : Biquad) (xs : List F32), b.enabled = false → b.processAll xs = (xs, b)

/-- R143: the recurrence of an enabled biquad; z1 is computed from the old z2. -/
def Obligations.BiquadRecurrence : Prop :=
  ∀ (b : Biquad) (x : F32), b.enabled = true →
    let y := fAdd (fMul x b.coefs.a0) b.z1
    b.process x =
      (y, { b with
        z1 := fSub (fAdd (fMul x b.coefs.a1) b.z2) (fMul b.coefs.b1 y)
        z2 := fSub (fMul x b.coefs.a2) (fMul b.coefs.b2 y) })

/-- R15, R100, R101, R111, R112, R130, R140, R142, R180 to R184: what DERIVE leaves in the doublers and
the biquads. Each mapped parameter v is written out. A doubler is the old one but for its delay, its
gains and its mode: its delay smoother, reset where the duration is a new one, gets 1 / (freq + offset),
clamped to what the line holds, by setTarget (whose cases O49 states), the left offset on the left; its
feedback is clamped and its wet gain is not. A biquad takes its clamped cutoff and Q, and, where one of
them or the rate differs from what it held, the rate and the five coefficients of R142 for its type;
nothing else of it changes. On a core at a legal rate its coefficients are then always current, and it
stays inside its contract. The delay target is also given as an IEEE number, because a target equal to
the old one is not written (R101). -/
def Obligations.DeriveKeepsBiquadContract : Prop :=
  ∀ (d : Datapath) (a : Amounts) (sr : Nat),
    let amount (m : Mapped) : F32 := match m with
      | .dblFreq => a.dbl | .dblFeedback => a.dbl | .dblWet => a.dbl
      | .lpCutoff => a.flt | .lpQ => a.flt | .hpCutoff => a.flt | .hpQ => a.flt
      | .revDamping => a.rev | .revSize => a.rev | .revMix => a.rev | .revWidth => a.rev
      | .revSpread => a.rev
    let v (m : Mapped) : F32 :=
      let row := Config.kso.map m
      fAdd row.outMin
        (fMul (Config.kso.expr (fMul (amount m) a.mst) row.curve) (fSub row.outMax row.outMin))
    let t := d.derive Config.kso sr a
    let doubler (old new : Doubler) (off : F32) : Prop :=
      let l := old.line
      let maxSec := if l.rate = 0 then f0 else fDiv (toF32 l.cap) (toF32 l.rate)
      let sec := clampF (fDiv 0x3F800000#32 (fAdd (v .dblFreq) off)) 0x00000000#32 maxSec
      let m := if fEq 0x3CF5C28F#32 l.lastSm then l.dly else l.dly.reset l.rate 0x3CF5C28F#32
      new =
          { line := { l with lastSm := 0x3CF5C28F#32, dly := m.setTarget sec }
            fb := clampF (v .dblFeedback) 0x00000000#32 0x3F800000#32
            wet := v .dblWet
            mode := Config.kso.dblInterp } ∧
        fEq new.line.dly.tgt sec = true
    let srF := toF32 sr
    let fHi := fMul Config.kso.bqFmaxFrac srF
    let fLo := if fLt Config.kso.bqFminHz fHi then Config.kso.bqFminHz else fHi
    let coefs (type : FilterType) (cutoff q : F32) : Coefs :=
      let k := Config.kso.tan32 (fDiv (fMul 0x40490FDB#32 cutoff) srF)
      let kq := fDiv k q
      let kk := fMul k k
      let n := fDiv 0x3F800000#32 (fAdd (fAdd 0x3F800000#32 kq) kk)
      let a0 := match type with | .lp => fMul kk n | .hp => n
      { a0 := a0
        a1 := match type with | .lp => fMul 0x40000000#32 a0 | .hp => fMul 0xC0000000#32 a0
        a2 := a0
        b1 := fMul (fMul 0x40000000#32 (fSub kk 0x3F800000#32)) n
        b2 := fMul (fAdd (fSub 0x3F800000#32 kq) kk) n }
    let biquad (old new : Biquad) (cutoff q : F32) : Prop :=
      let fc := clampF cutoff fLo fHi
      let qc := clampF q Config.kso.bqQmin Config.kso.bqQmax
      let held := fEq fc old.cutoff && fEq qc old.q && fEq srF old.coefRate
      new = { old with
          cutoff := fc
          q := qc
          enabled := true
          coefRate := if held then old.coefRate else srF
          coefs := if held then old.coefs else coefs old.type fc qc } ∧
        (1 ≤ sr → sr ≤ Config.kso.maxSr → old.Configured Config.kso →
          new.coefRate = srF ∧ new.coefs = coefs old.type fc qc)
    (doubler d.dbl.l t.dbl.l Config.kso.dblOffsetLHz ∧
      doubler d.dbl.r t.dbl.r Config.kso.dblOffsetRHz) ∧
    (biquad d.lp.l t.lp.l (v .lpCutoff) (v .lpQ) ∧ biquad d.lp.r t.lp.r (v .lpCutoff) (v .lpQ) ∧
      biquad d.hp.l t.hp.l (v .hpCutoff) (v .hpQ) ∧ biquad d.hp.r t.hp.r (v .hpCutoff) (v .hpQ)) ∧
    (1 ≤ sr → sr ≤ Config.kso.maxSr → (∀ b ∈ d.biquads, b.Configured Config.kso) →
      ∀ b ∈ t.biquads,
        b.enabled = true ∧ fLt f0 b.cutoff = true ∧ fLe b.cutoff fHi = true ∧
          inRange Config.kso.bqQmin Config.kso.bqQmax b.q = true ∧ b.Coherent Config.kso srF)

/-- R15, R100, R101, R111, R112, R155 to R160, R180 to R182, R185: what the last step of DERIVE leaves in
the reverb, with each mapped parameter v written out. Damping and size are the clamped parameters, dry is
1 - wet, and each of their smoothers gets its value by setTarget (whose cases O49 states). The two wet
smoothers get two targets in a row: of the new wet and the old width, then of both new ones. The delay
smoother of each of the 24 lines, reset where the duration is a new one, gets the seed plus half the
spread on the left, minus half of it on the right, clamped to what the line holds. Nothing else changes.
The final targets are also given as IEEE numbers, because a target equal to the old one is not written
(R101). -/
def Obligations.ReverbTargetsFollowParameters : Prop :=
  ∀ (d : Datapath) (a : Amounts) (sr : Nat),
    let amount (m : Mapped) : F32 := match m with
      | .dblFreq => a.dbl | .dblFeedback => a.dbl | .dblWet => a.dbl
      | .lpCutoff => a.flt | .lpQ => a.flt | .hpCutoff => a.flt | .hpQ => a.flt
      | .revDamping => a.rev | .revSize => a.rev | .revMix => a.rev | .revWidth => a.rev
      | .revSpread => a.rev
    let v (m : Mapped) : F32 :=
      let row := Config.kso.map m
      fAdd row.outMin
        (fMul (Config.kso.expr (fMul (amount m) a.mst) row.curve) (fSub row.outMax row.outMin))
    let r := d.rev
    let t := (d.derive Config.kso sr a).rev
    let damping := clampF (v .revDamping) f0 f1
    let size := clampF (v .revSize) f0 f1
    let mix := clampF (v .revMix) f0 f1
    let wet := clampF (Config.kso.expr mix Config.kso.revMixCurve) f0 f1
    let width := clampF (v .revWidth) f0 f1
    let spread := clampF (v .revSpread) f0 fInf
    let half := fMul spread 0x3F000000#32
    let wet1 (w : F32) := fMul wet (fMul (fAdd f1 w) 0x3F000000#32)
    let wet2 (w : F32) := fMul wet (fMul (fSub f1 w) 0x3F000000#32)
    let dur := Config.kso.revTimeSmoothS
    let clamped (l : DelayLine) (sec : F32) :=
      clampF sec f0 (if l.rate = 0 then f0 else fDiv (toF32 l.cap) (toF32 l.rate))
    let set (l : DelayLine) (sec : F32) : DelayLine :=
      let u := if fEq dur l.lastSm then l else { l with lastSm := dur, dly := l.dly.reset l.rate dur }
      { u with dly := u.dly.setTarget (clamped l sec) }
    let lands (l : DelayLine) (sec : F32) : Prop :=
      fEq l.dly.tgt (clamped l sec) = true ∧ fEq l.lastSm dur = true
    let early := Config.kso.earlySeedS.toList
    let late := Config.kso.lateSeedS.toList
    t = { r with
        damping := damping, size := size, mix := mix, width := width, spread := spread, wet := wet
        sDamp := r.sDamp.setTarget damping
        sFb := r.sFb.setTarget size
        sDry := r.sDry.setTarget (fSub f1 wet)
        sW1 := (r.sW1.setTarget (wet1 r.width)).setTarget (wet1 width)
        sW2 := (r.sW2.setTarget (wet2 r.width)).setTarget (wet2 width)
        early := t.early
        late := t.late } ∧
      t.early.l.toList = (r.early.l.toList.zip early).map (fun c =>
        { c.1 with line := set c.1.line (fAdd c.2 half) }) ∧
      t.early.r.toList = (r.early.r.toList.zip early).map (fun c =>
        { c.1 with line := set c.1.line (fSub c.2 half) }) ∧
      t.late.l.toList = (r.late.l.toList.zip late).map (fun c => ⟨set c.1.line (fAdd c.2 half)⟩) ∧
      t.late.r.toList = (r.late.r.toList.zip late).map (fun c => ⟨set c.1.line (fSub c.2 half)⟩) ∧
      (fEq t.sDamp.tgt damping = true ∧ fEq t.sFb.tgt size = true ∧
        fEq t.sDry.tgt (fSub f1 wet) = true ∧ fEq t.sW1.tgt (wet1 width) = true ∧
        fEq t.sW2.tgt (wet2 width) = true) ∧
      (∀ c ∈ t.early.l.toList.zip early, lands c.1.line (fAdd c.2 half)) ∧
      (∀ c ∈ t.early.r.toList.zip early, lands c.1.line (fSub c.2 half)) ∧
      (∀ c ∈ t.late.l.toList.zip late, lands c.1.line (fAdd c.2 half)) ∧
      ∀ c ∈ t.late.r.toList.zip late, lands c.1.line (fSub c.2 half)

/-- R131: one sample through the doubler: the output taps the delayed sample, and the feedback is
pushed. -/
def Obligations.DoublerReadsThenPushes : Prop :=
  ∀ (d : Doubler) (x : F32),
    let t := d.line.read d.mode
    d.process x =
      (fAdd x (fMul t.1 d.wet), { d with line := t.2.push (fAdd x (fMul t.1 d.fb)) })

/-- R161 to R164: one stereo frame through the reverb, and the early and the late comb it runs. The
pre-gained sum of both inputs feeds each early comb; each of the five smoothers takes one step; in each
channel the early outputs are added from +0.0 in ascending order, and the sum runs through the late
combs in series; MIX weighs the own and the other late output and the channel's input. The late comb
inverts: it returns delayed - x. -/
def Obligations.ReverbCombs : Prop :=
  (∀ (mode : Interp) (e : EarlyComb) (c : LateComb) (input damp fb x : F32),
    (let t := e.line.read mode
     let damped := fAdd t.1 (fMul damp (fSub e.store t.1))
     e.process mode input damp fb =
      (t.1, { line := t.2.push (fAdd input (fMul damped fb)), store := damped })) ∧
    (let t := c.line.read mode
     c.process mode x =
      (fSub t.1 x, { line := t.2.push (fAdd x (fMul t.1 0x3F000000#32)) }))) ∧
  ∀ (p : Params) (r : Reverb) (inL inR : F32),
    let input := fMul (fAdd inL inR) 0x3C088889#32
    let damp := r.sDamp.next
    let fb := r.sFb.next
    let dry := r.sDry.next
    let w1 := r.sW1.next
    let w2 := r.sW2.next
    let early (c : EarlyComb) := c.process p.revInterp input damp.1 fb.1
    let sum (v : Eight EarlyComb) := (v.toList.map fun c => (early c).1).foldl fAdd 0x00000000#32
    let t0 (v : Four LateComb) (x : F32) := v.c0.process p.revInterp x
    let t1 (v : Four LateComb) (x : F32) := v.c1.process p.revInterp (t0 v x).1
    let t2 (v : Four LateComb) (x : F32) := v.c2.process p.revInterp (t1 v x).1
    let t3 (v : Four LateComb) (x : F32) := v.c3.process p.revInterp (t2 v x).1
    let late (v : Four LateComb) (x : F32) : Four LateComb :=
      ⟨(t0 v x).2, (t1 v x).2, (t2 v x).2, (t3 v x).2⟩
    let lateL := (t3 r.late.l (sum r.early.l)).1
    let lateR := (t3 r.late.r (sum r.early.r)).1
    r.process p inL inR =
      ((fAdd (fAdd (fMul lateL w1.1) (fMul lateR w2.1)) (fMul inL dry.1),
        fAdd (fAdd (fMul lateR w1.1) (fMul lateL w2.1)) (fMul inR dry.1)),
       { r with
         early := ⟨r.early.l.map fun c => (early c).2, r.early.r.map fun c => (early c).2⟩
         late := ⟨late r.late.l (sum r.early.l), late r.late.r (sum r.early.r)⟩
         sDamp := damp.2, sFb := fb.2, sDry := dry.2, sW1 := w1.2, sW2 := w2.2 })
end

