-- ==== Sys2Proof/Laws/State.lean ====
section
/-! SUPPORT. What each named update of the state does to each field of the state: one lemma per
field per update, so that no proof unfolds a record update. -/

namespace Sys2Proof.Machine

/-! ### State.reject -/

@[simp] theorem State.reject_irqEn (s : State) (e : ErrCode) : (s.reject e).irqEn = s.irqEn := rfl
@[simp] theorem State.reject_done (s : State) (e : ErrCode) : (s.reject e).done = s.done := rfl
@[simp] theorem State.reject_err (s : State) (e : ErrCode) : (s.reject e).err = e := rfl
@[simp] theorem State.reject_fidx (s : State) (e : ErrCode) : (s.reject e).fidx = s.fidx := rfl
@[simp] theorem State.reject_sampleRate (s : State) (e : ErrCode) :
    (s.reject e).sampleRate = s.sampleRate := rfl
@[simp] theorem State.reject_macroDoubler (s : State) (e : ErrCode) :
    (s.reject e).macroDoubler = s.macroDoubler := rfl
@[simp] theorem State.reject_macroFilter (s : State) (e : ErrCode) :
    (s.reject e).macroFilter = s.macroFilter := rfl
@[simp] theorem State.reject_macroReverb (s : State) (e : ErrCode) :
    (s.reject e).macroReverb = s.macroReverb := rfl
@[simp] theorem State.reject_macroMaster (s : State) (e : ErrCode) :
    (s.reject e).macroMaster = s.macroMaster := rfl
@[simp] theorem State.reject_numSamples (s : State) (e : ErrCode) :
    (s.reject e).numSamples = s.numSamples := rfl
@[simp] theorem State.reject_leftBase (s : State) (e : ErrCode) :
    (s.reject e).leftBase = s.leftBase := rfl
@[simp] theorem State.reject_rightBase (s : State) (e : ErrCode) :
    (s.reject e).rightBase = s.rightBase := rfl
@[simp] theorem State.reject_prepared (s : State) (e : ErrCode) :
    (s.reject e).prepared = s.prepared := rfl
@[simp] theorem State.reject_sr (s : State) (e : ErrCode) : (s.reject e).sr = s.sr := rfl
@[simp] theorem State.reject_amounts (s : State) (e : ErrCode) :
    (s.reject e).amounts = s.amounts := rfl
@[simp] theorem State.reject_pend (s : State) (e : ErrCode) : (s.reject e).pend = s.pend := rfl
@[simp] theorem State.reject_run (s : State) (e : ErrCode) : (s.reject e).run = s.run := rfl
@[simp] theorem State.reject_dp (s : State) (e : ErrCode) : (s.reject e).dp = s.dp := rfl
@[simp] theorem State.reject_ram (s : State) (e : ErrCode) : (s.reject e).ram = s.ram := rfl
@[simp] theorem State.reject_ramEpoch (s : State) (e : ErrCode) :
    (s.reject e).ramEpoch = s.ramEpoch := rfl
@[simp] theorem State.reject_busData (s : State) (e : ErrCode) :
    (s.reject e).busData = s.busData := rfl
@[simp] theorem State.reject_sched (s : State) (e : ErrCode) : (s.reject e).sched = s.sched := rfl

/-! ### State.accept -/

@[simp] theorem State.accept_irqEn (s : State) : (s.accept).irqEn = s.irqEn := rfl
@[simp] theorem State.accept_done (s : State) : (s.accept).done = s.done := rfl
@[simp] theorem State.accept_err (s : State) : (s.accept).err = .noError := rfl
@[simp] theorem State.accept_fidx (s : State) : (s.accept).fidx = s.fidx := rfl
@[simp] theorem State.accept_sampleRate (s : State) : (s.accept).sampleRate = s.sampleRate := rfl
@[simp] theorem State.accept_macroDoubler (s : State) :
    (s.accept).macroDoubler = s.macroDoubler := rfl
@[simp] theorem State.accept_macroFilter (s : State) : (s.accept).macroFilter = s.macroFilter := rfl
@[simp] theorem State.accept_macroReverb (s : State) : (s.accept).macroReverb = s.macroReverb := rfl
@[simp] theorem State.accept_macroMaster (s : State) : (s.accept).macroMaster = s.macroMaster := rfl
@[simp] theorem State.accept_numSamples (s : State) : (s.accept).numSamples = s.numSamples := rfl
@[simp] theorem State.accept_leftBase (s : State) : (s.accept).leftBase = s.leftBase := rfl
@[simp] theorem State.accept_rightBase (s : State) : (s.accept).rightBase = s.rightBase := rfl
@[simp] theorem State.accept_prepared (s : State) : (s.accept).prepared = s.prepared := rfl
@[simp] theorem State.accept_sr (s : State) : (s.accept).sr = s.sr := rfl
@[simp] theorem State.accept_amounts (s : State) : (s.accept).amounts = s.amounts := rfl
@[simp] theorem State.accept_pend (s : State) : (s.accept).pend = s.pend := rfl
@[simp] theorem State.accept_run (s : State) : (s.accept).run = s.run := rfl
@[simp] theorem State.accept_dp (s : State) : (s.accept).dp = s.dp := rfl
@[simp] theorem State.accept_ram (s : State) : (s.accept).ram = s.ram := rfl
@[simp] theorem State.accept_ramEpoch (s : State) : (s.accept).ramEpoch = s.ramEpoch := rfl
@[simp] theorem State.accept_busData (s : State) : (s.accept).busData = s.busData := rfl
@[simp] theorem State.accept_sched (s : State) : (s.accept).sched = s.sched := rfl

/-! ### State.ramWrite -/

@[simp] theorem State.ramWrite_irqEn (s : State) (k : Nat) (v : Word) :
    (s.ramWrite k v).irqEn = s.irqEn := rfl
@[simp] theorem State.ramWrite_done (s : State) (k : Nat) (v : Word) :
    (s.ramWrite k v).done = s.done := rfl
@[simp] theorem State.ramWrite_err (s : State) (k : Nat) (v : Word) :
    (s.ramWrite k v).err = s.err := rfl
@[simp] theorem State.ramWrite_fidx (s : State) (k : Nat) (v : Word) :
    (s.ramWrite k v).fidx = s.fidx := rfl
@[simp] theorem State.ramWrite_sampleRate (s : State) (k : Nat) (v : Word) :
    (s.ramWrite k v).sampleRate = s.sampleRate := rfl
@[simp] theorem State.ramWrite_macroDoubler (s : State) (k : Nat) (v : Word) :
    (s.ramWrite k v).macroDoubler = s.macroDoubler := rfl
@[simp] theorem State.ramWrite_macroFilter (s : State) (k : Nat) (v : Word) :
    (s.ramWrite k v).macroFilter = s.macroFilter := rfl
@[simp] theorem State.ramWrite_macroReverb (s : State) (k : Nat) (v : Word) :
    (s.ramWrite k v).macroReverb = s.macroReverb := rfl
@[simp] theorem State.ramWrite_macroMaster (s : State) (k : Nat) (v : Word) :
    (s.ramWrite k v).macroMaster = s.macroMaster := rfl
@[simp] theorem State.ramWrite_numSamples (s : State) (k : Nat) (v : Word) :
    (s.ramWrite k v).numSamples = s.numSamples := rfl
@[simp] theorem State.ramWrite_leftBase (s : State) (k : Nat) (v : Word) :
    (s.ramWrite k v).leftBase = s.leftBase := rfl
@[simp] theorem State.ramWrite_rightBase (s : State) (k : Nat) (v : Word) :
    (s.ramWrite k v).rightBase = s.rightBase := rfl
@[simp] theorem State.ramWrite_prepared (s : State) (k : Nat) (v : Word) :
    (s.ramWrite k v).prepared = s.prepared := rfl
@[simp] theorem State.ramWrite_sr (s : State) (k : Nat) (v : Word) :
    (s.ramWrite k v).sr = s.sr := rfl
@[simp] theorem State.ramWrite_amounts (s : State) (k : Nat) (v : Word) :
    (s.ramWrite k v).amounts = s.amounts := rfl
@[simp] theorem State.ramWrite_pend (s : State) (k : Nat) (v : Word) :
    (s.ramWrite k v).pend = s.pend := rfl
@[simp] theorem State.ramWrite_run (s : State) (k : Nat) (v : Word) :
    (s.ramWrite k v).run = s.run := rfl
@[simp] theorem State.ramWrite_dp (s : State) (k : Nat) (v : Word) :
    (s.ramWrite k v).dp = s.dp := rfl
@[simp] theorem State.ramWrite_ram (s : State) (k : Nat) (v : Word) :
    (s.ramWrite k v).ram = s.ram.writeWord k v := rfl
@[simp] theorem State.ramWrite_ramEpoch (s : State) (k : Nat) (v : Word) :
    (s.ramWrite k v).ramEpoch = s.ramEpoch := rfl
@[simp] theorem State.ramWrite_busData (s : State) (k : Nat) (v : Word) :
    (s.ramWrite k v).busData = s.busData := rfl
@[simp] theorem State.ramWrite_sched (s : State) (k : Nat) (v : Word) :
    (s.ramWrite k v).sched = s.sched := rfl

/-! ### State.derive -/

@[simp] theorem State.derive_irqEn (p : Params) (s : State) :
    (State.derive p s).irqEn = s.irqEn := rfl
@[simp] theorem State.derive_done (p : Params) (s : State) : (State.derive p s).done = s.done := rfl
@[simp] theorem State.derive_err (p : Params) (s : State) : (State.derive p s).err = s.err := rfl
@[simp] theorem State.derive_fidx (p : Params) (s : State) : (State.derive p s).fidx = s.fidx := rfl
@[simp] theorem State.derive_sampleRate (p : Params) (s : State) :
    (State.derive p s).sampleRate = s.sampleRate := rfl
@[simp] theorem State.derive_macroDoubler (p : Params) (s : State) :
    (State.derive p s).macroDoubler = s.macroDoubler := rfl
@[simp] theorem State.derive_macroFilter (p : Params) (s : State) :
    (State.derive p s).macroFilter = s.macroFilter := rfl
@[simp] theorem State.derive_macroReverb (p : Params) (s : State) :
    (State.derive p s).macroReverb = s.macroReverb := rfl
@[simp] theorem State.derive_macroMaster (p : Params) (s : State) :
    (State.derive p s).macroMaster = s.macroMaster := rfl
@[simp] theorem State.derive_numSamples (p : Params) (s : State) :
    (State.derive p s).numSamples = s.numSamples := rfl
@[simp] theorem State.derive_leftBase (p : Params) (s : State) :
    (State.derive p s).leftBase = s.leftBase := rfl
@[simp] theorem State.derive_rightBase (p : Params) (s : State) :
    (State.derive p s).rightBase = s.rightBase := rfl
@[simp] theorem State.derive_prepared (p : Params) (s : State) :
    (State.derive p s).prepared = s.prepared := rfl
@[simp] theorem State.derive_sr (p : Params) (s : State) : (State.derive p s).sr = s.sr := rfl
@[simp] theorem State.derive_amounts (p : Params) (s : State) :
    (State.derive p s).amounts = s.amounts := rfl
@[simp] theorem State.derive_pend (p : Params) (s : State) : (State.derive p s).pend = s.pend := rfl
@[simp] theorem State.derive_run (p : Params) (s : State) : (State.derive p s).run = s.run := rfl
@[simp] theorem State.derive_dp (p : Params) (s : State) :
    (State.derive p s).dp = s.dp.derive p s.sr s.amounts := rfl
@[simp] theorem State.derive_ram (p : Params) (s : State) : (State.derive p s).ram = s.ram := rfl
@[simp] theorem State.derive_ramEpoch (p : Params) (s : State) :
    (State.derive p s).ramEpoch = s.ramEpoch := rfl
@[simp] theorem State.derive_busData (p : Params) (s : State) :
    (State.derive p s).busData = s.busData := rfl
@[simp] theorem State.derive_sched (p : Params) (s : State) :
    (State.derive p s).sched = s.sched := rfl

/-! ### State.prepareAt -/

@[simp] theorem State.prepareAt_irqEn (p : Params) (n : Nat) (s : State) :
    (State.prepareAt p n s).irqEn = s.irqEn := rfl
@[simp] theorem State.prepareAt_done (p : Params) (n : Nat) (s : State) :
    (State.prepareAt p n s).done = s.done := rfl
@[simp] theorem State.prepareAt_err (p : Params) (n : Nat) (s : State) :
    (State.prepareAt p n s).err = .noError := rfl
@[simp] theorem State.prepareAt_fidx (p : Params) (n : Nat) (s : State) :
    (State.prepareAt p n s).fidx = s.fidx := rfl
@[simp] theorem State.prepareAt_sampleRate (p : Params) (n : Nat) (s : State) :
    (State.prepareAt p n s).sampleRate = s.sampleRate := rfl
@[simp] theorem State.prepareAt_macroDoubler (p : Params) (n : Nat) (s : State) :
    (State.prepareAt p n s).macroDoubler = s.macroDoubler := rfl
@[simp] theorem State.prepareAt_macroFilter (p : Params) (n : Nat) (s : State) :
    (State.prepareAt p n s).macroFilter = s.macroFilter := rfl
@[simp] theorem State.prepareAt_macroReverb (p : Params) (n : Nat) (s : State) :
    (State.prepareAt p n s).macroReverb = s.macroReverb := rfl
@[simp] theorem State.prepareAt_macroMaster (p : Params) (n : Nat) (s : State) :
    (State.prepareAt p n s).macroMaster = s.macroMaster := rfl
@[simp] theorem State.prepareAt_numSamples (p : Params) (n : Nat) (s : State) :
    (State.prepareAt p n s).numSamples = s.numSamples := rfl
@[simp] theorem State.prepareAt_leftBase (p : Params) (n : Nat) (s : State) :
    (State.prepareAt p n s).leftBase = s.leftBase := rfl
@[simp] theorem State.prepareAt_rightBase (p : Params) (n : Nat) (s : State) :
    (State.prepareAt p n s).rightBase = s.rightBase := rfl
@[simp] theorem State.prepareAt_prepared (p : Params) (n : Nat) (s : State) :
    (State.prepareAt p n s).prepared = true := rfl
@[simp] theorem State.prepareAt_sr (p : Params) (n : Nat) (s : State) :
    (State.prepareAt p n s).sr = n := rfl
@[simp] theorem State.prepareAt_amounts (p : Params) (n : Nat) (s : State) :
    (State.prepareAt p n s).amounts = s.amounts := rfl
@[simp] theorem State.prepareAt_pend (p : Params) (n : Nat) (s : State) :
    (State.prepareAt p n s).pend = s.pend := rfl
@[simp] theorem State.prepareAt_run (p : Params) (n : Nat) (s : State) :
    (State.prepareAt p n s).run = s.run := rfl
@[simp] theorem State.prepareAt_dp (p : Params) (n : Nat) (s : State) :
    (State.prepareAt p n s).dp = s.dp.prepare p n s.amounts := rfl
@[simp] theorem State.prepareAt_ram (p : Params) (n : Nat) (s : State) :
    (State.prepareAt p n s).ram = s.ram := rfl
@[simp] theorem State.prepareAt_ramEpoch (p : Params) (n : Nat) (s : State) :
    (State.prepareAt p n s).ramEpoch = s.ramEpoch := rfl
@[simp] theorem State.prepareAt_busData (p : Params) (n : Nat) (s : State) :
    (State.prepareAt p n s).busData = s.busData := rfl
@[simp] theorem State.prepareAt_sched (p : Params) (n : Nat) (s : State) :
    (State.prepareAt p n s).sched = s.sched := rfl

/-! ### State.queueParameters -/

@[simp] theorem State.queueParameters_irqEn (s : State) (m : Amounts) :
    (s.queueParameters m).irqEn = s.irqEn := rfl
@[simp] theorem State.queueParameters_done (s : State) (m : Amounts) :
    (s.queueParameters m).done = s.done := rfl
@[simp] theorem State.queueParameters_err (s : State) (m : Amounts) :
    (s.queueParameters m).err = .noError := rfl
@[simp] theorem State.queueParameters_fidx (s : State) (m : Amounts) :
    (s.queueParameters m).fidx = s.fidx := rfl
@[simp] theorem State.queueParameters_sampleRate (s : State) (m : Amounts) :
    (s.queueParameters m).sampleRate = s.sampleRate := rfl
@[simp] theorem State.queueParameters_macroDoubler (s : State) (m : Amounts) :
    (s.queueParameters m).macroDoubler = s.macroDoubler := rfl
@[simp] theorem State.queueParameters_macroFilter (s : State) (m : Amounts) :
    (s.queueParameters m).macroFilter = s.macroFilter := rfl
@[simp] theorem State.queueParameters_macroReverb (s : State) (m : Amounts) :
    (s.queueParameters m).macroReverb = s.macroReverb := rfl
@[simp] theorem State.queueParameters_macroMaster (s : State) (m : Amounts) :
    (s.queueParameters m).macroMaster = s.macroMaster := rfl
@[simp] theorem State.queueParameters_numSamples (s : State) (m : Amounts) :
    (s.queueParameters m).numSamples = s.numSamples := rfl
@[simp] theorem State.queueParameters_leftBase (s : State) (m : Amounts) :
    (s.queueParameters m).leftBase = s.leftBase := rfl
@[simp] theorem State.queueParameters_rightBase (s : State) (m : Amounts) :
    (s.queueParameters m).rightBase = s.rightBase := rfl
@[simp] theorem State.queueParameters_prepared (s : State) (m : Amounts) :
    (s.queueParameters m).prepared = s.prepared := rfl
@[simp] theorem State.queueParameters_sr (s : State) (m : Amounts) :
    (s.queueParameters m).sr = s.sr := rfl
@[simp] theorem State.queueParameters_amounts (s : State) (m : Amounts) :
    (s.queueParameters m).amounts = s.amounts := rfl
@[simp] theorem State.queueParameters_pend (s : State) (m : Amounts) :
    (s.queueParameters m).pend = some m := rfl
@[simp] theorem State.queueParameters_run (s : State) (m : Amounts) :
    (s.queueParameters m).run = s.run := rfl
@[simp] theorem State.queueParameters_dp (s : State) (m : Amounts) :
    (s.queueParameters m).dp = s.dp := rfl
@[simp] theorem State.queueParameters_ram (s : State) (m : Amounts) :
    (s.queueParameters m).ram = s.ram := rfl
@[simp] theorem State.queueParameters_ramEpoch (s : State) (m : Amounts) :
    (s.queueParameters m).ramEpoch = s.ramEpoch := rfl
@[simp] theorem State.queueParameters_busData (s : State) (m : Amounts) :
    (s.queueParameters m).busData = s.busData := rfl
@[simp] theorem State.queueParameters_sched (s : State) (m : Amounts) :
    (s.queueParameters m).sched = s.sched := rfl

/-! ### State.startProcess -/

@[simp] theorem State.startProcess_irqEn (s : State) : (s.startProcess).irqEn = s.irqEn := rfl
@[simp] theorem State.startProcess_done (s : State) : (s.startProcess).done = false := rfl
@[simp] theorem State.startProcess_err (s : State) : (s.startProcess).err = .noError := rfl
@[simp] theorem State.startProcess_fidx (s : State) : (s.startProcess).fidx = 0 := rfl
@[simp] theorem State.startProcess_sampleRate (s : State) :
    (s.startProcess).sampleRate = s.sampleRate := rfl
@[simp] theorem State.startProcess_macroDoubler (s : State) :
    (s.startProcess).macroDoubler = s.macroDoubler := rfl
@[simp] theorem State.startProcess_macroFilter (s : State) :
    (s.startProcess).macroFilter = s.macroFilter := rfl
@[simp] theorem State.startProcess_macroReverb (s : State) :
    (s.startProcess).macroReverb = s.macroReverb := rfl
@[simp] theorem State.startProcess_macroMaster (s : State) :
    (s.startProcess).macroMaster = s.macroMaster := rfl
@[simp] theorem State.startProcess_numSamples (s : State) :
    (s.startProcess).numSamples = s.numSamples := rfl
@[simp] theorem State.startProcess_leftBase (s : State) :
    (s.startProcess).leftBase = s.leftBase := rfl
@[simp] theorem State.startProcess_rightBase (s : State) :
    (s.startProcess).rightBase = s.rightBase := rfl
@[simp] theorem State.startProcess_prepared (s : State) :
    (s.startProcess).prepared = s.prepared := rfl
@[simp] theorem State.startProcess_sr (s : State) : (s.startProcess).sr = s.sr := rfl
@[simp] theorem State.startProcess_amounts (s : State) : (s.startProcess).amounts = s.amounts := rfl
@[simp] theorem State.startProcess_pend (s : State) : (s.startProcess).pend = s.pend := rfl
@[simp] theorem State.startProcess_run (s : State) :
    (s.startProcess).run = some ⟨s.nReq.toNat, s.lbReq, s.rbReq, 0⟩ := rfl
@[simp] theorem State.startProcess_dp (s : State) : (s.startProcess).dp = s.dp := rfl
@[simp] theorem State.startProcess_ram (s : State) : (s.startProcess).ram = s.ram := rfl
@[simp] theorem State.startProcess_ramEpoch (s : State) :
    (s.startProcess).ramEpoch = s.ramEpoch := rfl
@[simp] theorem State.startProcess_busData (s : State) : (s.startProcess).busData = s.busData := rfl
@[simp] theorem State.startProcess_sched (s : State) : (s.startProcess).sched = s.sched := rfl

/-! ### State.writeStatus -/

@[simp] theorem State.writeStatus_irqEn (s : State) (v : Word) :
    (s.writeStatus v).irqEn = s.irqEn := rfl
@[simp] theorem State.writeStatus_done (s : State) (v : Word) :
    (s.writeStatus v).done = if v.toNat / 4 % 2 = 1 then false else s.done := rfl
@[simp] theorem State.writeStatus_err (s : State) (v : Word) : (s.writeStatus v).err = s.err := rfl
@[simp] theorem State.writeStatus_fidx (s : State) (v : Word) :
    (s.writeStatus v).fidx = s.fidx := rfl
@[simp] theorem State.writeStatus_sampleRate (s : State) (v : Word) :
    (s.writeStatus v).sampleRate = s.sampleRate := rfl
@[simp] theorem State.writeStatus_macroDoubler (s : State) (v : Word) :
    (s.writeStatus v).macroDoubler = s.macroDoubler := rfl
@[simp] theorem State.writeStatus_macroFilter (s : State) (v : Word) :
    (s.writeStatus v).macroFilter = s.macroFilter := rfl
@[simp] theorem State.writeStatus_macroReverb (s : State) (v : Word) :
    (s.writeStatus v).macroReverb = s.macroReverb := rfl
@[simp] theorem State.writeStatus_macroMaster (s : State) (v : Word) :
    (s.writeStatus v).macroMaster = s.macroMaster := rfl
@[simp] theorem State.writeStatus_numSamples (s : State) (v : Word) :
    (s.writeStatus v).numSamples = s.numSamples := rfl
@[simp] theorem State.writeStatus_leftBase (s : State) (v : Word) :
    (s.writeStatus v).leftBase = s.leftBase := rfl
@[simp] theorem State.writeStatus_rightBase (s : State) (v : Word) :
    (s.writeStatus v).rightBase = s.rightBase := rfl
@[simp] theorem State.writeStatus_prepared (s : State) (v : Word) :
    (s.writeStatus v).prepared = s.prepared := rfl
@[simp] theorem State.writeStatus_sr (s : State) (v : Word) : (s.writeStatus v).sr = s.sr := rfl
@[simp] theorem State.writeStatus_amounts (s : State) (v : Word) :
    (s.writeStatus v).amounts = s.amounts := rfl
@[simp] theorem State.writeStatus_pend (s : State) (v : Word) :
    (s.writeStatus v).pend = s.pend := rfl
@[simp] theorem State.writeStatus_run (s : State) (v : Word) : (s.writeStatus v).run = s.run := rfl
@[simp] theorem State.writeStatus_dp (s : State) (v : Word) : (s.writeStatus v).dp = s.dp := rfl
@[simp] theorem State.writeStatus_ram (s : State) (v : Word) : (s.writeStatus v).ram = s.ram := rfl
@[simp] theorem State.writeStatus_ramEpoch (s : State) (v : Word) :
    (s.writeStatus v).ramEpoch = s.ramEpoch := rfl
@[simp] theorem State.writeStatus_busData (s : State) (v : Word) :
    (s.writeStatus v).busData = s.busData := rfl
@[simp] theorem State.writeStatus_sched (s : State) (v : Word) :
    (s.writeStatus v).sched = s.sched := rfl

/-! ### State.writeCtrl -/

@[simp] theorem State.writeCtrl_irqEn (s : State) (v : Word) :
    (s.writeCtrl v).irqEn = decide (v.toNat % 2 = 1) := rfl
@[simp] theorem State.writeCtrl_done (s : State) (v : Word) : (s.writeCtrl v).done = s.done := rfl
@[simp] theorem State.writeCtrl_err (s : State) (v : Word) : (s.writeCtrl v).err = s.err := rfl
@[simp] theorem State.writeCtrl_fidx (s : State) (v : Word) : (s.writeCtrl v).fidx = s.fidx := rfl
@[simp] theorem State.writeCtrl_sampleRate (s : State) (v : Word) :
    (s.writeCtrl v).sampleRate = s.sampleRate := rfl
@[simp] theorem State.writeCtrl_macroDoubler (s : State) (v : Word) :
    (s.writeCtrl v).macroDoubler = s.macroDoubler := rfl
@[simp] theorem State.writeCtrl_macroFilter (s : State) (v : Word) :
    (s.writeCtrl v).macroFilter = s.macroFilter := rfl
@[simp] theorem State.writeCtrl_macroReverb (s : State) (v : Word) :
    (s.writeCtrl v).macroReverb = s.macroReverb := rfl
@[simp] theorem State.writeCtrl_macroMaster (s : State) (v : Word) :
    (s.writeCtrl v).macroMaster = s.macroMaster := rfl
@[simp] theorem State.writeCtrl_numSamples (s : State) (v : Word) :
    (s.writeCtrl v).numSamples = s.numSamples := rfl
@[simp] theorem State.writeCtrl_leftBase (s : State) (v : Word) :
    (s.writeCtrl v).leftBase = s.leftBase := rfl
@[simp] theorem State.writeCtrl_rightBase (s : State) (v : Word) :
    (s.writeCtrl v).rightBase = s.rightBase := rfl
@[simp] theorem State.writeCtrl_prepared (s : State) (v : Word) :
    (s.writeCtrl v).prepared = s.prepared := rfl
@[simp] theorem State.writeCtrl_sr (s : State) (v : Word) : (s.writeCtrl v).sr = s.sr := rfl
@[simp] theorem State.writeCtrl_amounts (s : State) (v : Word) :
    (s.writeCtrl v).amounts = s.amounts := rfl
@[simp] theorem State.writeCtrl_pend (s : State) (v : Word) : (s.writeCtrl v).pend = s.pend := rfl
@[simp] theorem State.writeCtrl_run (s : State) (v : Word) : (s.writeCtrl v).run = s.run := rfl
@[simp] theorem State.writeCtrl_dp (s : State) (v : Word) : (s.writeCtrl v).dp = s.dp := rfl
@[simp] theorem State.writeCtrl_ram (s : State) (v : Word) : (s.writeCtrl v).ram = s.ram := rfl
@[simp] theorem State.writeCtrl_ramEpoch (s : State) (v : Word) :
    (s.writeCtrl v).ramEpoch = s.ramEpoch := rfl
@[simp] theorem State.writeCtrl_busData (s : State) (v : Word) :
    (s.writeCtrl v).busData = s.busData := rfl
@[simp] theorem State.writeCtrl_sched (s : State) (v : Word) :
    (s.writeCtrl v).sched = s.sched := rfl

/-! ### Smoother and delay-line updates -/

@[simp] theorem Smoother.reset_tgt (s : Smoother) (n : Nat) (d : F32) : (s.reset n d).tgt = s.tgt := rfl
@[simp] theorem Smoother.reset_cur (s : Smoother) (n : Nat) (d : F32) : (s.reset n d).cur = s.tgt := rfl
@[simp] theorem Smoother.reset_cnt (s : Smoother) (n : Nat) (d : F32) : (s.reset n d).cnt = 0 := rfl
@[simp] theorem Smoother.reset_stp (s : Smoother) (n : Nat) (d : F32) : (s.reset n d).stp = s.stp := rfl
@[simp] theorem Smoother.reset_steps (s : Smoother) (n : Nat) (d : F32) :
    (s.reset n d).steps = rampSteps n d := by simp only [Smoother.reset]
@[simp] theorem Smoother.snapTo_tgt (s : Smoother) (v : F32) : (s.snapTo v).tgt = v := rfl
@[simp] theorem Smoother.snapTo_cur (s : Smoother) (v : F32) : (s.snapTo v).cur = v := rfl
@[simp] theorem Smoother.snapTo_cnt (s : Smoother) (v : F32) : (s.snapTo v).cnt = 0 := rfl
@[simp] theorem Smoother.snapTo_steps (s : Smoother) (v : F32) : (s.snapTo v).steps = s.steps := rfl
@[simp] theorem Smoother.snapTo_stp (s : Smoother) (v : F32) : (s.snapTo v).stp = s.stp := rfl
@[simp] theorem DelayLine.prepare_w (l : DelayLine) (c n : Nat) (d : F32) : (l.prepare c n d).w = 0 := rfl
@[simp] theorem DelayLine.prepare_rate (l : DelayLine) (c n : Nat) (d : F32) :
    (l.prepare c n d).rate = n := rfl
@[simp] theorem DelayLine.prepare_lastSm (l : DelayLine) (c n : Nat) (d : F32) :
    (l.prepare c n d).lastSm = d := rfl
@[simp] theorem DelayLine.prepare_cap (l : DelayLine) (c n : Nat) (d : F32) :
    (l.prepare c n d).cap = min c (maxCapSeconds * n) := rfl
@[simp] theorem DelayLine.prepare_dly (l : DelayLine) (c n : Nat) (d : F32) :
    (l.prepare c n d).dly = l.dly.reset n d := rfl
@[simp] theorem DelayLine.snap_cap (l : DelayLine) : l.snap.cap = l.cap := rfl
@[simp] theorem DelayLine.snap_buf (l : DelayLine) : l.snap.buf = l.buf := rfl
@[simp] theorem DelayLine.snap_w (l : DelayLine) : l.snap.w = l.w := rfl
@[simp] theorem DelayLine.snap_rate (l : DelayLine) : l.snap.rate = l.rate := rfl
@[simp] theorem DelayLine.snap_lastSm (l : DelayLine) : l.snap.lastSm = l.lastSm := rfl
@[simp] theorem DelayLine.snap_dly (l : DelayLine) : l.snap.dly = l.dly.snap := rfl

end Sys2Proof.Machine
end

