-- ==== Sys2Proof/Laws/Commands.lean ====
section
/-! SUPPORT. What each command can do, said once: the cases of its meaning (R195 to R199). -/

namespace Sys2Proof.Machine

theorem State.busy_iff {s : State} : s.busy = true ↔ s.run ≠ none := by
  unfold State.busy
  cases s.run <;> simp

theorem State.not_busy_iff {s : State} : s.busy = false ↔ s.run = none := by
  unfold State.busy
  cases s.run <;> simp

/-- PREPARE does one of four things (R196). -/
theorem State.prepare_cases (p : Params) (s : State) :
    (s.run ≠ none ∧ s.prepare p = s.reject .busy) ∨
    (s.run = none ∧ s.srReq = 0 ∧ s.prepare p = s.reject .badRate) ∨
    (s.run = none ∧ p.maxSr < s.srReq ∧
      s.prepare p = State.reject { s with prepared := false, sr := 0 } .capacity) ∨
    (s.run = none ∧ 1 ≤ s.srReq ∧ s.srReq ≤ p.maxSr ∧ s.prepare p = s.prepareAt p s.srReq) := by
  unfold State.prepare
  split_ifs with h1 h2 h3
  · exact .inl ⟨State.busy_iff.1 h1, rfl⟩
  · exact .inr (.inl ⟨State.not_busy_iff.1 (by simpa using h1), h2, rfl⟩)
  · exact .inr (.inr (.inl ⟨State.not_busy_iff.1 (by simpa using h1), h3, rfl⟩))
  · exact .inr (.inr (.inr ⟨State.not_busy_iff.1 (by simpa using h1), by omega, by omega, rfl⟩))

/-- SET_PARAMETERS does one of three things (R197, R198). -/
theorem State.setParameters_cases (p : Params) (s : State) :
    (s.run ≠ none ∧ s.setParameters p = s.queueParameters s.macroOperands) ∨
    (s.run = none ∧ s.prepared = true ∧
      s.setParameters p = (State.derive p { s with amounts := s.macroOperands }).accept) ∨
    (s.run = none ∧ s.prepared = false ∧
      s.setParameters p = State.accept { s with amounts := s.macroOperands }) := by
  unfold State.setParameters
  dsimp only
  split_ifs with h1 h2
  · exact .inl ⟨State.busy_iff.1 h1, rfl⟩
  · exact .inr (.inl ⟨State.not_busy_iff.1 (by simpa using h1), h2, rfl⟩)
  · exact .inr (.inr ⟨State.not_busy_iff.1 (by simpa using h1), by simpa using h2, rfl⟩)

theorem State.noopRequest_iff {s : State} :
    s.noopRequest = true ↔ s.nReq ≤ 0 ∨ s.lbReq = 0 ∨ s.rbReq = 0 := by
  simp [State.noopRequest, or_assoc]

theorem State.outOfRam_eq_false {p : Params} {s : State} :
    s.outOfRam p = false ↔
      s.lbReq + s.nReq.toNat ≤ p.sampleRamWords ∧ s.rbReq + s.nReq.toNat ≤ p.sampleRamWords := by
  simp [State.outOfRam]

/-- PROCESS does one of five things (R199). -/
theorem State.process_cases (p : Params) (s : State) :
    (s.run ≠ none ∧ s.process p = s.reject .busy) ∨
    (s.run = none ∧ s.noopRequest = true ∧ s.process p = State.accept { s with done := true }) ∨
    (s.run = none ∧ s.noopRequest = false ∧ s.prepared = false ∧
      s.process p = s.reject .notPrepared) ∨
    (s.run = none ∧ s.noopRequest = false ∧ s.prepared = true ∧ s.outOfRam p = true ∧
      s.process p = s.reject .badAddr) ∨
    (s.run = none ∧ s.noopRequest = false ∧ s.prepared = true ∧ s.outOfRam p = false ∧
      s.process p = s.startProcess) := by
  unfold State.process
  split_ifs with h1 h2 h3 h4
  · exact .inl ⟨State.busy_iff.1 h1, rfl⟩
  · exact .inr (.inl ⟨State.not_busy_iff.1 (by simpa using h1), h2, rfl⟩)
  · exact .inr (.inr (.inl ⟨State.not_busy_iff.1 (by simpa using h1), by simpa using h2,
      by simpa using h3, rfl⟩))
  · exact .inr (.inr (.inr (.inl ⟨State.not_busy_iff.1 (by simpa using h1), by simpa using h2,
      by simpa using h3, h4, rfl⟩)))
  · exact .inr (.inr (.inr (.inr ⟨State.not_busy_iff.1 (by simpa using h1), by simpa using h2,
      by simpa using h3, by simpa using h4, rfl⟩)))

/-- What an accepted PROCESS latches satisfies the invariant of a running PROCESS (R36, R199). -/
theorem State.startProcess_run_ok {p : Params} {s : State} (hn : s.noopRequest = false)
    (ho : s.outOfRam p = false) :
    1 ≤ s.nReq.toNat ∧ 1 ≤ s.lbReq ∧ 1 ≤ s.rbReq ∧ s.lbReq + s.nReq.toNat ≤ p.sampleRamWords ∧
      s.rbReq + s.nReq.toNat ≤ p.sampleRamWords := by
  have h : ¬(s.nReq ≤ 0 ∨ s.lbReq = 0 ∨ s.rbReq = 0) := by
    rw [← State.noopRequest_iff, hn]
    exact Bool.false_ne_true
  have h' := State.outOfRam_eq_false.1 ho
  omega

/-! ### The arms of exec -/

theorem exec_nop (s : State) : exec .nop s = .next s.nop := rfl
theorem exec_prepare (s : State) : exec .prepare s = .next (s.prepare Config.kso) := rfl
theorem exec_setParameters (s : State) :
    exec .setParameters s = .next (s.setParameters Config.kso) := rfl
theorem exec_process (s : State) : exec .process s = .next (s.process Config.kso) := rfl

/-- Every command answers a next state. -/
theorem exec_next (i : Instr) (s : State) : ∃ t, exec i s = .next t := by
  cases i
  · exact ⟨_, exec_nop s⟩
  · exact ⟨_, exec_prepare s⟩
  · exact ⟨_, exec_setParameters s⟩
  · exact ⟨_, exec_process s⟩

end Sys2Proof.Machine
end

