-- ==== Sys2Proof/Laws/Config.lean ====
section
/-! SUPPORT. What is known of the machine's configuration: that it is well formed (R9), and each
constraint of R8 that follows. Nothing else can be known of it. -/

namespace Sys2Proof

open Machine

theorem Config.fallback_wf : Config.fallback.wf = true := by decide +kernel

/-- The configuration of the machine is well formed (R9). -/
theorem Config.kso_wf : Config.kso.wf = true := by
  unfold Config.kso Params.checked
  split
  · assumption
  · exact Config.fallback_wf

/-- Every well-formed configuration is one the machine can have: it is the supplied one. -/
theorem Params.checked_of_wf {p : Params} (h : p.wf = true) : p.checked = some p := by
  simp [Params.checked, h]

/-- An ill-formed configuration is refused (R9). -/
theorem Params.checked_of_not_wf {p : Params} (h : p.wf = false) : p.checked = none := by
  simp [Params.checked, h]

theorem Params.wf_cases {p : Params} (h : p.wf = true) :
    p.maxSrOk = true ∧ p.sampleRamOk = true ∧ p.seedsOk = true ∧ p.revSmoothOk = true ∧
      p.fminOk = true ∧ p.fmaxOk = true ∧ p.qOk = true ∧ p.tanArgOk = true := by
  simp only [Params.wf, Bool.and_eq_true] at h
  tauto

theorem Params.maxSr_pos {p : Params} (h : p.wf = true) : 1 ≤ p.maxSr := by
  have := (Params.wf_cases h).1
  simp only [Params.maxSrOk, Bool.and_eq_true, decide_eq_true_eq] at this
  exact this.1

theorem Params.maxSr_le {p : Params} (h : p.wf = true) : p.maxSr ≤ 2 ^ 24 := by
  have := (Params.wf_cases h).1
  simp only [Params.maxSrOk, Bool.and_eq_true, decide_eq_true_eq, combCapS, revCapS, max_self,
    mul_one] at this
  exact this.2

theorem Params.two_le_sampleRamWords {p : Params} (h : p.wf = true) : 2 ≤ p.sampleRamWords := by
  have := (Params.wf_cases h).2.1
  simp only [Params.sampleRamOk, Bool.and_eq_true, decide_eq_true_eq] at this
  exact this.1

theorem Params.sampleRamWords_le {p : Params} (h : p.wf = true) : p.sampleRamWords ≤ 261120 := by
  have := (Params.wf_cases h).2.1
  simp only [Params.sampleRamOk, Bool.and_eq_true, decide_eq_true_eq] at this
  exact this.2

end Sys2Proof
end

