-- ==== Sys2Proof/Laws/Storage.lean ====
section
/-! SUPPORT. Sparse storage: a read after a write, and the canonical form every operation keeps; the
same for the sample RAM and for the slots of a delay line. -/

namespace Sys2Proof.Machine

section
variable {β : Type}

theorem cellGet_cellPut_self (k : Nat) (v : β) (m : List (Nat × β)) :
    cellGet k (cellPut k v m) = some v := by
  induction m with
  | nil => simp [cellPut, cellGet]
  | cons c t ih =>
    obtain ⟨a, u⟩ := c
    simp only [cellPut]
    split_ifs with h1 h2
    · simp [cellGet]
    · simp [cellGet]
    · simp [cellGet, Ne.symm h2, ih]

theorem cellGet_cellPut_of_ne {k j : Nat} (h : j ≠ k) (v : β) (m : List (Nat × β)) :
    cellGet j (cellPut k v m) = cellGet j m := by
  induction m with
  | nil => simp [cellPut, cellGet, Ne.symm h]
  | cons c t ih =>
    obtain ⟨a, u⟩ := c
    simp only [cellPut]
    split_ifs with h1 h2
    · simp [cellGet, Ne.symm h]
    · subst h2; simp [cellGet, Ne.symm h]
    · simp [cellGet, ih]

theorem cellGet_of_risingFrom {b k : Nat} {m : List (Nat × β)} (h : risingFrom b m = true)
    (hk : k < b) : cellGet k m = none := by
  induction m generalizing b with
  | nil => rfl
  | cons c t ih =>
    obtain ⟨a, u⟩ := c
    simp only [risingFrom, Bool.and_eq_true, decide_eq_true_eq] at h
    simp only [cellGet]
    rw [if_neg (by omega)]
    exact ih h.2 (by omega)

theorem risingFrom_mono {b c : Nat} (hbc : b ≤ c) {m : List (Nat × β)}
    (h : risingFrom c m = true) : risingFrom b m = true := by
  cases m with
  | nil => rfl
  | cons x t =>
    obtain ⟨a, u⟩ := x
    simp only [risingFrom, Bool.and_eq_true, decide_eq_true_eq] at h ⊢
    exact ⟨by omega, h.2⟩

theorem risingFrom_cellPut {b k : Nat} (hb : b ≤ k) (v : β) {m : List (Nat × β)}
    (h : risingFrom b m = true) : risingFrom b (cellPut k v m) = true := by
  induction m generalizing b with
  | nil => simp [cellPut, risingFrom, hb]
  | cons c t ih =>
    obtain ⟨a, u⟩ := c
    simp only [risingFrom, Bool.and_eq_true, decide_eq_true_eq] at h
    simp only [cellPut]
    split_ifs with h1 h2
    · simp only [risingFrom, Bool.and_eq_true, decide_eq_true_eq]
      exact ⟨hb, by omega, h.2⟩
    · subst h2
      simp only [risingFrom, Bool.and_eq_true, decide_eq_true_eq]
      exact h
    · simp only [risingFrom, Bool.and_eq_true, decide_eq_true_eq]
      exact ⟨h.1, ih (by omega) h.2⟩

theorem risingFrom_cellDrop {b : Nat} (k : Nat) {m : List (Nat × β)}
    (h : risingFrom b m = true) : risingFrom b (cellDrop k m) = true := by
  induction m generalizing b with
  | nil => rfl
  | cons c t ih =>
    obtain ⟨a, u⟩ := c
    simp only [risingFrom, Bool.and_eq_true, decide_eq_true_eq] at h
    simp only [cellDrop]
    split_ifs with h1
    · exact risingFrom_mono (by omega) h.2
    · simp only [risingFrom, Bool.and_eq_true, decide_eq_true_eq]
      exact ⟨h.1, ih h.2⟩

theorem risingFrom_filter {b : Nat} (f : Nat × β → Bool) {m : List (Nat × β)}
    (h : risingFrom b m = true) : risingFrom b (m.filter f) = true := by
  induction m generalizing b with
  | nil => rfl
  | cons c t ih =>
    obtain ⟨a, u⟩ := c
    simp only [risingFrom, Bool.and_eq_true, decide_eq_true_eq] at h
    rw [List.filter_cons]
    split_ifs with h1
    · simp only [risingFrom, Bool.and_eq_true, decide_eq_true_eq]
      exact ⟨h.1, ih h.2⟩
    · exact risingFrom_mono (by omega) (ih h.2)

theorem cellGet_cellDrop_self {b : Nat} (k : Nat) {m : List (Nat × β)}
    (h : risingFrom b m = true) : cellGet k (cellDrop k m) = none := by
  induction m generalizing b with
  | nil => rfl
  | cons c t ih =>
    obtain ⟨a, u⟩ := c
    simp only [risingFrom, Bool.and_eq_true, decide_eq_true_eq] at h
    simp only [cellDrop]
    split_ifs with h1
    · subst h1
      exact cellGet_of_risingFrom h.2 (by omega)
    · simp only [cellGet, if_neg h1]
      exact ih h.2

theorem cellGet_cellDrop_of_ne {k j : Nat} (h : j ≠ k) (m : List (Nat × β)) :
    cellGet j (cellDrop k m) = cellGet j m := by
  induction m with
  | nil => rfl
  | cons c t ih =>
    obtain ⟨a, u⟩ := c
    simp only [cellDrop]
    split_ifs with h1
    · subst h1; simp [cellGet, Ne.symm h]
    · simp [cellGet, ih]

theorem cellGet_filter_ge (n j : Nat) (m : List (Nat × β)) :
    cellGet j (m.filter fun c => decide (n ≤ c.1)) = if n ≤ j then cellGet j m else none := by
  induction m with
  | nil => simp [cellGet]
  | cons c t ih =>
    obtain ⟨a, u⟩ := c
    by_cases ha : n ≤ a
    · rw [List.filter_cons_of_pos (by simpa using ha)]
      simp only [cellGet, ih]
      by_cases hj : a = j
      · subst hj; simp [ha]
      · simp [hj]
    · rw [List.filter_cons_of_neg (by simpa using ha), ih]
      by_cases hj : n ≤ j
      · simp [cellGet, hj, show a ≠ j by omega]
      · simp [hj]

theorem mem_cellPut {k : Nat} {v : β} {c : Nat × β} {m : List (Nat × β)}
    (h : c ∈ cellPut k v m) : c = (k, v) ∨ c ∈ m := by
  induction m with
  | nil => simpa [cellPut] using h
  | cons x t ih =>
    obtain ⟨a, u⟩ := x
    simp only [cellPut] at h
    split_ifs at h with h1 h2
    · simpa using h
    · rcases List.mem_cons.1 h with h | h
      · exact .inl h
      · exact .inr (List.mem_cons_of_mem _ h)
    · rcases List.mem_cons.1 h with h | h
      · exact .inr (h ▸ List.mem_cons_self)
      · exact (ih h).imp id (List.mem_cons_of_mem _)

theorem mem_cellDrop {k : Nat} {c : Nat × β} {m : List (Nat × β)} (h : c ∈ cellDrop k m) :
    c ∈ m := by
  induction m with
  | nil => exact h
  | cons x t ih =>
    obtain ⟨a, u⟩ := x
    simp only [cellDrop] at h
    split_ifs at h with h1
    · exact List.mem_cons_of_mem _ h
    · rcases List.mem_cons.1 h with h | h
      · exact h ▸ List.mem_cons_self
      · exact List.mem_cons_of_mem _ (ih h)

end

/-! ### Byte lanes (R63) -/

theorem wordOfBytes_byteLane (v : Word) :
    wordOfBytes (byteLane v 0) (byteLane v 1) (byteLane v 2) (byteLane v 3) = v := by
  apply BitVec.eq_of_toNat_eq
  have hv := v.isLt
  simp only [wordOfBytes, byteLane, BitVec.toNat_ofNat]
  omega

/-! ### The sample RAM -/

theorem State.ramByte_ramWrite_of_outside {s : State} {k : Nat} {v : Word} {a : Nat}
    (h : a < ramByteAddr k 0 ∨ ramByteAddr k 3 < a) : (s.ramWrite k v).ramByte a = s.ramByte a := by
  simp only [ramByteAddr] at h
  simp only [State.ramByte, State.ramWrite, Memory.writeWord]
  rw [cellGet_cellPut_of_ne (by simp only [ramByteAddr]; omega),
    cellGet_cellPut_of_ne (by simp only [ramByteAddr]; omega),
    cellGet_cellPut_of_ne (by simp only [ramByteAddr]; omega),
    cellGet_cellPut_of_ne (by simp only [ramByteAddr]; omega)]

theorem State.ramByte_ramWrite_lane (s : State) (k : Nat) (v : Word) {j : Nat} (hj : j < 4) :
    (s.ramWrite k v).ramByte (ramByteAddr k j) = byteLane v j := by
  have ne {i j : Nat} (h : i ≠ j) : ramByteAddr k i ≠ ramByteAddr k j := by
    simp only [ramByteAddr]; omega
  simp only [State.ramByte, State.ramWrite, Memory.writeWord]
  rcases (by omega : j = 0 ∨ j = 1 ∨ j = 2 ∨ j = 3) with rfl | rfl | rfl | rfl
  · rw [cellGet_cellPut_of_ne (ne (by decide)), cellGet_cellPut_of_ne (ne (by decide)),
      cellGet_cellPut_of_ne (ne (by decide)), cellGet_cellPut_self, Option.getD_some]
  · rw [cellGet_cellPut_of_ne (ne (by decide)), cellGet_cellPut_of_ne (ne (by decide)),
      cellGet_cellPut_self, Option.getD_some]
  · rw [cellGet_cellPut_of_ne (ne (by decide)), cellGet_cellPut_self, Option.getD_some]
  · rw [cellGet_cellPut_self, Option.getD_some]

/-- A word reads as what was written to it. -/
@[simp] theorem State.ramRead_ramWrite_self (s : State) (k : Nat) (v : Word) :
    (s.ramWrite k v).ramRead k = v := by
  simp only [State.ramRead, State.ramByte_ramWrite_lane, Nat.reduceLT, wordOfBytes_byteLane]

/-- A write leaves every other word alone. -/
theorem State.ramRead_ramWrite_of_ne {k j : Nat} (h : j ≠ k) (s : State) (v : Word) :
    (s.ramWrite k v).ramRead j = s.ramRead j := by
  have out (i : Nat) (hi : i < 4) : (s.ramWrite k v).ramByte (ramByteAddr j i) =
      s.ramByte (ramByteAddr j i) :=
    State.ramByte_ramWrite_of_outside (by simp only [ramByteAddr]; omega)
  simp only [State.ramRead, out, Nat.reduceLT]

/-- What a word reads as depends on the listed bytes and the RESET count alone. -/
theorem State.ramRead_congr {s t : State} (hr : t.ram = s.ram) (he : t.ramEpoch = s.ramEpoch)
    (k : Nat) : t.ramRead k = s.ramRead k := by
  simp only [State.ramRead, State.ramByte, hr, he]

/-- A write keeps the canonical form. -/
theorem Memory.wf_writeWord {m : Memory} (h : Memory.wf m = true) (k : Nat) (v : Word) :
    Memory.wf (m.writeWord k v) = true := by
  unfold Memory.wf Memory.writeWord at *
  exact risingFrom_cellPut (Nat.zero_le _) _ (risingFrom_cellPut (Nat.zero_le _) _
    (risingFrom_cellPut (Nat.zero_le _) _ (risingFrom_cellPut (Nat.zero_le _) _ h)))

theorem Memory.wf_nil : Memory.wf [] = true := rfl

/-! ### The slots of a delay line (R110, R113) -/

theorem risingFrom_slotWrite {buf : List (Nat × F32)} (h : risingFrom 0 buf = true) (j : Nat)
    (x : F32) : risingFrom 0 (slotWrite buf j x) = true := by
  unfold slotWrite
  split_ifs
  · exact risingFrom_cellDrop _ h
  · exact risingFrom_cellPut (Nat.zero_le _) _ h

theorem slot_slotWrite_self {buf : List (Nat × F32)} (h : risingFrom 0 buf = true) (j : Nat)
    (x : F32) : (cellGet j (slotWrite buf j x)).getD f0 = x := by
  unfold slotWrite
  split_ifs with hx
  · rw [cellGet_cellDrop_self _ h, hx]; rfl
  · rw [cellGet_cellPut_self]; rfl

theorem cellGet_slotWrite_of_ne {i j : Nat} (h : i ≠ j) (buf : List (Nat × F32)) (x : F32) :
    cellGet i (slotWrite buf j x) = cellGet i buf := by
  unfold slotWrite
  split_ifs
  · exact cellGet_cellDrop_of_ne h _
  · exact cellGet_cellPut_of_ne h _ _

theorem mem_slotWrite {buf : List (Nat × F32)} {j : Nat} {x : F32} {c : Nat × F32}
    (h : c ∈ slotWrite buf j x) : (c.1 = j ∧ c.2 ≠ f0) ∨ c ∈ buf := by
  unfold slotWrite at h
  split_ifs at h with hx
  · exact .inr (mem_cellDrop h)
  · rcases mem_cellPut h with rfl | h
    · exact .inl ⟨rfl, hx⟩
    · exact .inr h

/-- Slot j of a line after a push: the pushed sample at the cursor, the old slot elsewhere (R113). -/
theorem DelayLine.slot_push {l : DelayLine} (hr : risingFrom 0 l.buf = true) (hc : l.cap ≠ 0)
    (x : F32) (j : Nat) : (l.push x).slot j = if j = l.w then x else l.slot j := by
  simp only [DelayLine.push, if_neg hc, DelayLine.slot]
  split_ifs with h
  · subst h; exact slot_slotWrite_self hr _ _
  · rw [cellGet_slotWrite_of_ne h]

/-- Slots [0, n) read +0.0 once cleared (R110). -/
theorem slot_slotsClear {buf : List (Nat × F32)} {n j : Nat} (h : j < n) :
    (cellGet j (slotsClear buf n)).getD f0 = f0 := by
  unfold slotsClear
  rw [cellGet_filter_ge, if_neg (by omega)]
  rfl

end Sys2Proof.Machine
end

