-- ==== Sys2Proof/Laws/Decode.lean ====
section
/-! SUPPORT. The decoder says once which words are commands: `decode_command_iff`. -/

namespace Sys2Proof

open Machine

/-- The decoder on byte lanes reads the word they are the lanes of (R63). -/
theorem decodeBytes_bytesOfWord (w : Word) : decodeBytes (bytesOfWord w) = decode w := by
  simp only [bytesOfWord, decodeBytes, wordOfBytes_byteLane]

theorem decode_encode (i : Instr) : decode (encode i) = .command i := by cases i <;> rfl

/-- A word decodes to a command exactly where it is the command's word (R83, R85). -/
theorem decode_command_iff {w : Word} {i : Instr} : decode w = .command i ↔ w = encode i := by
  refine ⟨fun h => ?_, fun h => h ▸ decode_encode i⟩
  unfold decode at h
  split_ifs at h with hr
  have hlt : w.toNat < 16 := by
    simp only [rsvField, ne_eq, not_not] at hr
    omega
  have ho : opField w = w.toNat := Nat.mod_eq_of_lt hlt
  rw [ho] at h
  apply BitVec.eq_of_toNat_eq
  split at h <;> simp only [Decoded.command.injEq, reduceCtorEq] at h <;> subst h <;>
    simp_all [encode]

end Sys2Proof
end

