-- ==== Sys2Proof/Laws/Float.lean ====
section
/-! SUPPORT. Facts about the binary32 arithmetic of Machine/Float.lean: the parts of a pattern, what
rounding can answer, comparison, clamping, and the exact conversion of integers. -/

namespace Sys2Proof.Machine

theorem magBits_lt (x : F32) : magBits x < 2 ^ 31 := Nat.mod_lt _ (by decide)

theorem toNat_eq_sign_mag (x : F32) :
    x.toNat = (if signBit x then 2 ^ 31 else 0) + magBits x := by
  have hx := x.isLt
  simp only [signBit, magBits, decide_eq_true_eq]
  split <;> omega

/-- A pattern is its sign and its magnitude. -/
theorem f32_ext {x y : F32} (hs : signBit x = signBit y) (hm : magBits x = magBits y) : x = y := by
  apply BitVec.eq_of_toNat_eq
  rw [toNat_eq_sign_mag x, toNat_eq_sign_mag y, hs, hm]

theorem withSign_toNat {m : Nat} (h : m < 2 ^ 31) (neg : Bool) :
    (withSign neg m).toNat = (if neg then 2 ^ 31 else 0) + m := by
  simp only [withSign, BitVec.toNat_ofNat]
  cases neg
  · simp; omega
  · simp; omega

theorem magBits_withSign {m : Nat} (h : m < 2 ^ 31) (neg : Bool) :
    magBits (withSign neg m) = m := by
  simp only [magBits, withSign_toNat h]
  cases neg <;> simp <;> omega

theorem signBit_withSign {m : Nat} (h : m < 2 ^ 31) (neg : Bool) :
    signBit (withSign neg m) = neg := by
  simp only [signBit, withSign_toNat h]
  cases neg
  · simp; omega
  · simp

theorem roundMag_le (num den : Nat) : roundMag num den ≤ infMag := Nat.min_le_right _ _

theorem roundMag_lt (num den : Nat) : roundMag num den < 2 ^ 31 :=
  lt_of_le_of_lt (roundMag_le num den) (by decide)

/-- A rounded result is never a NaN. -/
theorem isNaN_withSign_roundMag (neg : Bool) (num den : Nat) :
    isNaN (withSign neg (roundMag num den)) = false := by
  simp only [isNaN, magBits_withSign (roundMag_lt num den), decide_eq_false_iff_not, Nat.not_lt]
  exact roundMag_le num den

theorem nearestEven_ge (n d : Nat) : n / d ≤ nearestEven n d := by
  unfold nearestEven
  dsimp only
  split_ifs <;> omega

/-- A quotient of at least one unit does not round to zero. -/
theorem roundMag_pos {num den : Nat} (hd : 0 < den) (h : den ≤ num) : 0 < roundMag num den := by
  unfold roundMag
  dsimp only
  generalize hs : Nat.log2 (num / den) - 23 = s
  refine lt_min ?_ (by decide)
  rcases Nat.eq_zero_or_pos s with rfl | hpos
  · have := nearestEven_ge num (den * 2 ^ 0)
    have h1 : 1 ≤ num / den := Nat.div_pos h hd
    simp only [pow_zero, mul_one] at this ⊢
    omega
  · exact Nat.add_pos_left (Nat.mul_pos hpos (by decide)) _

theorem nearestEven_mul (m d : Nat) (hd : 0 < d) : nearestEven (m * d) d = m := by
  unfold nearestEven
  simp [Nat.mul_div_cancel m hd, hd]

/-! ### Comparison -/

theorem not_isNaN_of_fLt_left {x y : F32} (h : fLt x y = true) : isNaN x = false := by
  simp only [fLt, Bool.and_eq_true, Bool.not_eq_true'] at h
  exact h.1.1

theorem not_isNaN_of_fLt_right {x y : F32} (h : fLt x y = true) : isNaN y = false := by
  simp only [fLt, Bool.and_eq_true, Bool.not_eq_true'] at h
  exact h.1.2

theorem fLt_iff {x y : F32} (hx : isNaN x = false) (hy : isNaN y = false) :
    fLt x y = true ↔ orderKey x < orderKey y := by simp [fLt, hx, hy]

theorem fLe_iff {x y : F32} (hx : isNaN x = false) (hy : isNaN y = false) :
    fLe x y = true ↔ orderKey x ≤ orderKey y := by simp [fLe, hx, hy]

theorem fEq_iff {x y : F32} (hx : isNaN x = false) (hy : isNaN y = false) :
    fEq x y = true ↔ orderKey x = orderKey y := by simp [fEq, hx, hy]

theorem fEq_refl {x : F32} (h : isNaN x = false) : fEq x x = true := by simp [fEq, h]

theorem fEq_not_nan {x y : F32} (h : fEq x y = true) : isNaN x = false ∧ isNaN y = false := by
  simp only [fEq, Bool.and_eq_true, Bool.not_eq_true'] at h
  exact h.1

theorem fLe_of_fLt {x y : F32} (h : fLt x y = true) : fLe x y = true := by
  have hx := not_isNaN_of_fLt_left h
  have hy := not_isNaN_of_fLt_right h
  rw [fLt_iff hx hy] at h
  rw [fLe_iff hx hy]
  omega

/-- Equal numbers that are not zero are the same pattern. -/
theorem eq_of_fEq {x y : F32} (h : fEq x y = true) (h0 : orderKey x ≠ 0) : x = y := by
  obtain ⟨hx, hy⟩ := fEq_not_nan h
  rw [fEq_iff hx hy] at h
  have hmx := magBits_lt x
  have hmy := magBits_lt y
  unfold orderKey at h h0
  apply f32_ext
  · cases hsx : signBit x <;> cases hsy : signBit y <;> simp [hsx, hsy] at h h0 ⊢ <;> omega
  · cases hsx : signBit x <;> cases hsy : signBit y <;> simp [hsx, hsy] at h h0 ⊢ <;> omega

/-! ### Clamping (R14) -/

/-- A clamp with a lower bound that is a number answers a number. -/
theorem clampF_not_nan {x lo hi : F32} (hlo : isNaN lo = false) : isNaN (clampF x lo hi) = false := by
  unfold clampF
  split_ifs with h1 h2 h3
  · exact hlo
  · exact hlo
  · exact not_isNaN_of_fLt_left h3
  · simpa using h1

/-- A clamp lands between its bounds. -/
theorem clampF_inRange {x lo hi : F32} (h : fLe lo hi = true) :
    inRange lo hi (clampF x lo hi) = true := by
  have hl : isNaN lo = false := by simp only [fLe, Bool.and_eq_true, Bool.not_eq_true'] at h; exact h.1.1
  have hh : isNaN hi = false := by simp only [fLe, Bool.and_eq_true, Bool.not_eq_true'] at h; exact h.1.2
  have hk := (fLe_iff hl hh).1 h
  unfold inRange clampF
  split_ifs with h1 h2 h3
  · simp [fLe, hl, hh, hk]
  · simp [fLe, hl, hh, hk]
  · simp [fLe, hl, hh, hk]
  · have hx : isNaN x = false := by simpa using h1
    rw [fLt_iff hx hl] at h2
    rw [fLt_iff hh hx] at h3
    rw [Bool.and_eq_true, fLe_iff hl hx, fLe_iff hx hh]
    omega

/-- A number between the bounds passes through a clamp bit for bit. -/
theorem clampF_of_inRange {x lo hi : F32} (h : inRange lo hi x = true) : clampF x lo hi = x := by
  simp only [inRange, fLe, Bool.and_eq_true, Bool.not_eq_true', decide_eq_true_eq] at h
  unfold clampF
  rw [if_neg (by simp [h.1.1.2]), if_neg (by simp [fLt]; omega), if_neg (by simp [fLt]; omega)]

/-- Clamping twice is clamping once. -/
theorem clampF_idem {x lo hi : F32} (h : fLe lo hi = true) :
    clampF (clampF x lo hi) lo hi = clampF x lo hi := clampF_of_inRange (clampF_inRange h)

/-! ### Integers -/

theorem log2_mul_pow (n k : Nat) (h : n ≠ 0) : Nat.log2 (n * 2 ^ k) = Nat.log2 n + k := by
  rw [Nat.log2_eq_iff (by positivity)]
  have h1 := (Nat.log2_eq_iff (n := n) (k := Nat.log2 n) h).1 rfl
  constructor
  · rw [pow_add]; exact Nat.mul_le_mul_right _ h1.1
  · rw [show n.log2 + k + 1 = (n.log2 + 1) + k by omega, pow_add]
    exact Nat.mul_lt_mul_of_pos_right h1.2 (by positivity)

/-- The magnitude of a positive integer below 2^24 as a pattern. -/
theorem roundMag_int {n : Nat} (h0 : n ≠ 0) (h : n < 2 ^ 24) :
    roundMag (n * 2 ^ 149) 1 = (126 + n.log2) * 2 ^ 23 + n * 2 ^ (23 - n.log2) := by
  have hlog : n.log2 ≤ 23 := by have := (Nat.log2_lt h0).2 h; omega
  have hb := (Nat.log2_eq_iff (n := n) (k := Nat.log2 n) h0).1 rfl
  unfold roundMag
  simp only [Nat.div_one, one_mul]
  rw [log2_mul_pow n 149 h0, show n.log2 + 149 - 23 = 126 + n.log2 by omega]
  have hsplit : n * 2 ^ 149 = n * 2 ^ (23 - n.log2) * 2 ^ (126 + n.log2) := by
    rw [mul_assoc, ← pow_add]; congr 2; omega
  rw [hsplit, nearestEven_mul _ _ (by positivity)]
  apply Nat.min_eq_left
  have h3 : n * 2 ^ (23 - n.log2) < 2 ^ 24 := by
    calc n * 2 ^ (23 - n.log2) < 2 ^ (n.log2 + 1) * 2 ^ (23 - n.log2) :=
          Nat.mul_lt_mul_of_pos_right hb.2 (by positivity)
      _ = 2 ^ 24 := by rw [← pow_add]; congr 1; omega
  have h4 : (126 + n.log2) * 2 ^ 23 ≤ 149 * 2 ^ 23 := Nat.mul_le_mul_right _ (by omega)
  exact le_trans (Nat.add_le_add h4 h3.le) (by decide)

theorem toF32_zero : toF32 0 = f0 := by decide +kernel

theorem toF32_eq (n : Nat) : toF32 n = withSign false (roundMag (n * 2 ^ 149) 1) := by
  simp [toF32, fOfRatio]

theorem signBit_toF32 (n : Nat) : signBit (toF32 n) = false := by
  rw [toF32_eq, signBit_withSign (roundMag_lt _ _)]

theorem magBits_toF32 (n : Nat) : magBits (toF32 n) = roundMag (n * 2 ^ 149) 1 := by
  rw [toF32_eq, magBits_withSign (roundMag_lt _ _)]

theorem isNaN_toF32 (n : Nat) : isNaN (toF32 n) = false := by
  rw [toF32_eq]; exact isNaN_withSign_roundMag _ _ _

/-- f32(n) is exact up to 2^24 (R14). -/
theorem units_toF32 {n : Nat} (h : n ≤ 2 ^ 24) : units (toF32 n) = n * 2 ^ 149 := by
  rcases Nat.eq_zero_or_pos n with rfl | hpos
  · decide +kernel
  rcases Nat.lt_or_eq_of_le h with hlt | rfl
  · have h0 : n ≠ 0 := by omega
    have hlog : n.log2 ≤ 23 := by have := (Nat.log2_lt h0).2 hlt; omega
    have hb := (Nat.log2_eq_iff (n := n) (k := Nat.log2 n) h0).1 rfl
    unfold units magUnits
    rw [magBits_toF32, roundMag_int h0 hlt]
    generalize hM : n * 2 ^ (23 - n.log2) = M
    have hlo : 2 ^ 23 ≤ M := by
      rw [← hM]
      calc 2 ^ 23 = 2 ^ n.log2 * 2 ^ (23 - n.log2) := by rw [← pow_add]; congr 1; omega
        _ ≤ n * 2 ^ (23 - n.log2) := Nat.mul_le_mul_right _ hb.1
    have hhi : M < 2 ^ 24 := by
      rw [← hM]
      calc n * 2 ^ (23 - n.log2) < 2 ^ (n.log2 + 1) * 2 ^ (23 - n.log2) :=
            Nat.mul_lt_mul_of_pos_right hb.2 (by positivity)
        _ = 2 ^ 24 := by rw [← pow_add]; congr 1; omega
    have he : ((126 + n.log2) * 2 ^ 23 + M) / 2 ^ 23 = 127 + n.log2 := by omega
    have hf : ((126 + n.log2) * 2 ^ 23 + M) % 2 ^ 23 = M - 2 ^ 23 := by omega
    simp only [he, hf]
    rw [if_neg (by omega), show 2 ^ 23 + (M - 2 ^ 23) = M by omega,
      show 127 + n.log2 - 1 = 126 + n.log2 by omega, ← hM, mul_assoc, ← pow_add]
    congr 2
    omega
  · decide +kernel

theorem isFinite_toF32 {n : Nat} (h : n ≤ 2 ^ 24) : isFinite (toF32 n) = true := by
  rcases Nat.eq_zero_or_pos n with rfl | hpos
  · decide +kernel
  rcases Nat.lt_or_eq_of_le h with hlt | rfl
  · have h0 : n ≠ 0 := by omega
    have hlog : n.log2 ≤ 23 := by have := (Nat.log2_lt h0).2 hlt; omega
    have hb := (Nat.log2_eq_iff (n := n) (k := Nat.log2 n) h0).1 rfl
    have hhi : n * 2 ^ (23 - n.log2) < 2 ^ 24 := by
      calc n * 2 ^ (23 - n.log2) < 2 ^ (n.log2 + 1) * 2 ^ (23 - n.log2) :=
            Nat.mul_lt_mul_of_pos_right hb.2 (by positivity)
        _ = 2 ^ 24 := by rw [← pow_add]; congr 1; omega
    have : (126 + n.log2) * 2 ^ 23 ≤ 149 * 2 ^ 23 := Nat.mul_le_mul_right _ (by omega)
    simp only [isFinite, magBits_toF32, roundMag_int h0 hlt, infMag, decide_eq_true_eq]
    omega
  · decide +kernel

theorem floorI_toF32 {n : Nat} (h : n ≤ 2 ^ 24) : floorI (toF32 n) = n := by
  simp only [floorI, intValue, signBit_toF32, units_toF32 h, Bool.false_eq_true, if_false]
  push_cast
  exact Int.mul_ediv_cancel _ (by positivity)

end Sys2Proof.Machine
end

