-- ==== Sys2Proof/Laws/PerInstr.lean ====
section
/-! SUPPORT. One statement about every command as syntax, proved per constructor: its word has RSV = 0
and its own OP, and the decoder reads it back (spec/30_encoding.md R83, R86). -/

namespace Sys2Proof.Laws

/-- The opcode of a command in the map of R83. -/
def WordOfTable.op : Instr → Nat
  | .nop => 0
  | .prepare => 1
  | .setParameters => 2
  | .process => 3

/-- A command is well formed, its word is its OP with RSV = 0, and every word of that OP with RSV = 0
decodes to it. -/
def WordOfTable.Statement (i : Instr) : Prop :=
  i.wf = true ∧ opField (encode i) = WordOfTable.op i ∧ rsvField (encode i) = 0 ∧
    ∀ w : Word, rsvField w = 0 → opField w = WordOfTable.op i → decode w = .command i

theorem WordOfTable.nop : WordOfTable.Statement .nop := by
  refine ⟨rfl, rfl, rfl, fun w hr ho => ?_⟩
  simp only [decode, hr, ho, WordOfTable.op, ne_eq, not_true_eq_false, if_false]

theorem WordOfTable.prepare : WordOfTable.Statement .prepare := by
  refine ⟨rfl, rfl, rfl, fun w hr ho => ?_⟩
  simp only [decode, hr, ho, WordOfTable.op, ne_eq, not_true_eq_false, if_false]

theorem WordOfTable.setParameters : WordOfTable.Statement .setParameters := by
  refine ⟨rfl, rfl, rfl, fun w hr ho => ?_⟩
  simp only [decode, hr, ho, WordOfTable.op, ne_eq, not_true_eq_false, if_false]

theorem WordOfTable.process : WordOfTable.Statement .process := by
  refine ⟨rfl, rfl, rfl, fun w hr ho => ?_⟩
  simp only [decode, hr, ho, WordOfTable.op, ne_eq, not_true_eq_false, if_false]

end Sys2Proof.Laws
end

