-- ==== Sys2Proof/Laws/Step.lean ====
section
/-! SUPPORT. What a step can do, said once: the cases of a core step, of a command write, of a bus
access and of a step, and the package that turns them into one proof of an invariant. -/

namespace Sys2Proof.Machine

/-! ### The core sequencer -/

/-- With a set pending, it becomes active and every parameter is re-derived (R187). -/
theorem State.applyPending_some {p : Params} {s : State} {m : Amounts} (h : s.pend = some m) :
    s.applyPending p = { s with amounts := m, pend := none, dp := s.dp.derive p s.sr m } := by
  simp only [State.applyPending, h]
  rfl

/-- With no set pending, nothing changes (R187). -/
theorem State.applyPending_none {p : Params} {s : State} (h : s.pend = none) :
    s.applyPending p = s := by
  simp only [State.applyPending, h]

/-- What applying the pending set can change (R187). -/
theorem State.applyPending_eq (p : Params) (s : State) :
    s.applyPending p =
      { s with
        amounts := s.pend.getD s.amounts
        pend := none
        dp := match s.pend with
          | none => s.dp
          | some m => s.dp.derive p s.sr m } := by
  rcases h : s.pend with _ | m
  · rw [State.applyPending_none h]
    simp only [Option.getD_none]
    rw [← h]
  · rw [State.applyPending_some h]; rfl

/-- What a frame step writes into the state (R188). -/
theorem State.frame_eq (p : Params) (r : Run) (s : State) :
    s.frame p r =
      let d := (s.applyPending p).dp
      let t := d.frame p (s.ramRead (r.lb + r.i)) (s.ramRead (r.rb + r.i))
      { s with
        amounts := s.pend.getD s.amounts
        pend := none
        run := some { r with i := r.i + 1 }
        fidx := r.i + 1
        dp := t.2
        ram := (s.ram.writeWord (r.lb + r.i) (outClamp t.1.1)).writeWord (r.rb + r.i)
          (outClamp t.1.2) } := by
  unfold State.frame
  rw [State.applyPending_eq]
  rfl

/-- A core step is a frame, the completion, or nothing (R20, R188, R200). -/
theorem State.coreStep_cases (p : Params) (s : State) :
    (s.run = none ∧ s.coreStep p = s) ∨
    (∃ r, s.run = some r ∧ r.i < r.n ∧ s.coreStep p = s.frame p r) ∨
    (∃ r, s.run = some r ∧ r.i = r.n ∧ s.coreStep p = s.complete p) ∨
    (∃ r, s.run = some r ∧ r.n < r.i ∧ s.coreStep p = s) := by
  unfold State.coreStep
  rcases h : s.run with _ | r
  · exact .inl ⟨rfl, rfl⟩
  · dsimp only
    split_ifs with h1 h2
    · exact .inr (.inl ⟨r, rfl, h1, rfl⟩)
    · exact .inr (.inr (.inl ⟨r, rfl, h2, rfl⟩))
    · exact .inr (.inr (.inr ⟨r, rfl, by omega, rfl⟩))

theorem State.coreStep_idle {p : Params} {s : State} (h : s.run = none) : s.coreStep p = s := by
  simp only [State.coreStep, h]

theorem State.coreStep_frame {p : Params} {s : State} {r : Run} (h : s.run = some r)
    (hi : r.i < r.n) : s.coreStep p = s.frame p r := by
  simp only [State.coreStep, h, if_pos hi]

theorem State.coreStep_complete {p : Params} {s : State} {r : Run} (h : s.run = some r)
    (hi : r.i = r.n) : s.coreStep p = s.complete p := by
  simp only [State.coreStep, h, if_neg (by omega : ¬r.i < r.n), if_pos hi]

/-! ### The bus -/

/-- The registers are found at the offsets of R21. -/
theorem regAt_offset (r : Reg) : regAt (Reg.offset r) = some r := by cases r <;> rfl

theorem offset_of_regAt {n : Nat} {r : Reg} (h : regAt n = some r) : n = Reg.offset r := by
  have := List.find?_some h
  exact (by simpa using this : Reg.offset r = n).symm

/-- No register stands at 0x038 or above (R21). -/
theorem regAt_eq_none {n : Nat} (h : 0x038 ≤ n) : regAt n = none := by
  rcases hr : regAt n with _ | r
  · rfl
  · have := offset_of_regAt hr
    cases r <;> simp [Reg.offset] at this <;> omega

theorem Reg.addr_toNat (r : Reg) : (Reg.addr r).toNat = Reg.offset r := by cases r <;> rfl

theorem ramIndex_eq_some {p : Params} {n k : Nat} (h : ramIndex p n = some k) :
    k < p.sampleRamWords ∧ ramBase ≤ n ∧ k = (n - ramBase) / 4 := by
  unfold ramIndex at h
  split_ifs at h with hb
  simp only [Option.some.injEq] at h
  omega

theorem ramIndex_word {p : Params} {k : Nat} (h : k < p.sampleRamWords) :
    ramIndex p (0x1000 + 4 * k) = some k := by
  unfold ramIndex
  rw [if_pos (by simp only [ramBase]; omega)]
  simp only [ramBase, Option.some.injEq]
  omega

theorem Access.wf_iff {a : Access} : a.wf = true ↔ a.width = 32 ∧ a.addr.toNat % 4 = 0 := by
  simp [Access.wf, Access.widthOk, Access.alignOk]

/-- An admitted access to a register's address is that register's access. -/
theorem Access.eq_of_regAt {a : Access} {r : Reg} (hw : a.wf = true)
    (h : regAt a.addr.toNat = some r) : a = ⟨a.kind, 32, Reg.addr r, a.data⟩ := by
  obtain ⟨k, w, d, x⟩ := a
  have h1 := (Access.wf_iff.1 hw).1
  have h2 : d = Reg.addr r := by
    apply BitVec.eq_of_toNat_eq
    rw [Reg.addr_toNat]
    exact offset_of_regAt h
  simp_all

/-- A write to CMD runs the command the word encodes, or only sets STATUS.ERR (R80, R84). -/
theorem issueCommand_eq (s : State) (w : Word) :
    (∃ i, w = encode i ∧ issueCommand exec s w = exec i s) ∨
    ((∀ i, w ≠ encode i) ∧ issueCommand exec s w = .next (s.reject .illegalCmd)) := by
  unfold issueCommand
  rw [decodeBytes_bytesOfWord]
  rcases h : decode w with i | _ | _ | _
  · exact .inl ⟨i, decode_command_iff.1 h, rfl⟩
  all_goals
    refine .inr ⟨fun i hi => ?_, rfl⟩
    rw [decode_command_iff.2 hi] at h
    exact Decoded.noConfusion h

/-- An access of a register that answers a next state read it, issued a command or wrote it. -/
theorem regAccess_cases {p : Params} {s t : State} {a : Access} {r : Reg} (hw : a.wf = true)
    (hr : regAt a.addr.toNat = some r) (h : regAccess exec s r a.kind a.data = .next t) :
    (a.kind = .read ∧ ∃ v, t = { s with busData := v }) ∨
    (∃ r, r ≠ .cmd ∧ a = wrAccess r a.data ∧ t = s.writeReg a.data r) ∨
    (a = cmdWrite a.data ∧ issueCommand exec s a.data = .next t) ∨
    (∃ k, a.kind = .write ∧ k < p.sampleRamWords ∧ s.races k = false ∧ t = s.ramWrite k a.data) ∨
    (a.kind = .write ∧ t = s) := by
  have ha := Access.eq_of_regAt hw hr
  unfold regAccess at h
  rcases hkind : a.kind with _ | _
  · simp only [hkind, Host.Outcome.next.injEq] at h
    exact .inl ⟨rfl, _, h.symm⟩
  · rw [hkind] at ha
    simp only [hkind] at h
    split_ifs at h with hc
    · subst hc
      exact .inr (.inr (.inl ⟨ha, h⟩))
    · simp only [Host.Outcome.next.injEq] at h
      exact .inr (.inl ⟨r, hc, ha, h.symm⟩)

/-- A bus access that answers a next state read something, wrote a register, issued a command, wrote a
word of sample RAM outside the running buffers, or did nothing. -/
theorem busAccess_cases {p : Params} {s t : State} {a : Access}
    (h : busAccess exec p s a = .next t) :
    (a.kind = .read ∧ ∃ v, t = { s with busData := v }) ∨
    (∃ r, r ≠ .cmd ∧ a = wrAccess r a.data ∧ t = s.writeReg a.data r) ∨
    (a = cmdWrite a.data ∧ issueCommand exec s a.data = .next t) ∨
    (∃ k, a.kind = .write ∧ k < p.sampleRamWords ∧ s.races k = false ∧ t = s.ramWrite k a.data) ∨
    (a.kind = .write ∧ t = s) := by
  unfold busAccess raiseFault at h
  split_ifs at h with hw
  rcases hr : regAt a.addr.toNat with _ | r <;> rcases hk : ramIndex p a.addr.toNat with _ | k <;>
    simp only [hr, hk] at h
  · rcases hkind : a.kind <;> simp only [unmappedAccess, hkind, Host.Outcome.next.injEq] at h
    · exact .inl ⟨rfl, 0#32, h.symm⟩
    · exact .inr (.inr (.inr (.inr ⟨rfl, h.symm⟩)))
  · unfold ramAccess raiseFault at h
    split_ifs at h with hrace
    rcases hkind : a.kind <;> simp only [hkind, Host.Outcome.next.injEq] at h
    · exact .inl ⟨rfl, _, h.symm⟩
    · exact .inr (.inr (.inr (.inl ⟨k, rfl, (ramIndex_eq_some hk).1, by simpa using hrace,
        h.symm⟩)))
  all_goals exact regAccess_cases hw hr h

/-- The access of a register, admitted, is that register's. -/
theorem busAccess_reg (p : Params) (s : State) (k : AccessKind) (r : Reg) (x : Word) :
    busAccess exec p s ⟨k, 32, Reg.addr r, x⟩ = regAccess exec s r k x := by
  have hw : Access.wf ⟨k, 32, Reg.addr r, x⟩ = true := by
    rw [Access.wf_iff, Reg.addr_toNat]
    exact ⟨rfl, by cases r <;> rfl⟩
  unfold busAccess
  simp only [hw, if_true, Reg.addr_toNat, regAt_offset]

/-- The access of a sample-RAM word, admitted, is that word's. -/
theorem busAccess_ram {p : Params} (s : State) (kind : AccessKind) {k : Nat} (x : Word)
    (hk : k < p.sampleRamWords) (hp : p.sampleRamWords ≤ 261120) :
    busAccess exec p s ⟨kind, 32, BitVec.ofNat 20 (0x1000 + 4 * k), x⟩ = ramAccess s k kind x := by
  have ha : (BitVec.ofNat 20 (0x1000 + 4 * k)).toNat = 0x1000 + 4 * k := by
    rw [BitVec.toNat_ofNat]; omega
  have hw : Access.wf ⟨kind, 32, BitVec.ofNat 20 (0x1000 + 4 * k), x⟩ = true := by
    rw [Access.wf_iff, ha]
    exact ⟨rfl, by omega⟩
  unfold busAccess
  simp only [hw, if_true, ha, regAt_eq_none (show 0x038 ≤ 0x1000 + 4 * k by omega),
    ramIndex_word hk]

/-! ### The step -/

theorem step_core {s : State} {rest : List Event} (h : s.CoreTurn rest) :
    step s = .next (State.coreStep Config.kso { s with sched := rest }) := by
  rcases h with h | ⟨h, rfl⟩
  · simp only [step, nextStep, h, runEvent]
  · simp only [step, nextStep, h]
    rw [← h]

theorem step_bus {s : State} {a : Access} {rest : List Event} (h : s.HostTurn a rest) :
    step s = busAccess exec Config.kso { s with sched := rest } a := by
  simp only [State.HostTurn] at h
  simp only [step, nextStep, h, runEvent]

theorem step_hardReset {s : State} {rest : List Event} (h : s.sched = .hardReset :: rest) :
    step s = .next (State.hardReset Config.kso { s with sched := rest }) := by
  simp only [step, nextStep, h, runEvent]

/-- Every state has the core's turn, a host access or a RESET next. -/
theorem turn_cases (s : State) :
    (∃ rest, s.CoreTurn rest) ∨ (∃ a rest, s.HostTurn a rest) ∨
      ∃ rest, s.sched = .hardReset :: rest := by
  rcases h : s.sched with _ | ⟨e, rest⟩
  · exact .inl ⟨[], .inr ⟨h, rfl⟩⟩
  · rcases e with a | _ | _
    · exact .inr (.inl ⟨a, rest, h⟩)
    · exact .inl ⟨rest, .inl h⟩
    · exact .inr (.inr ⟨rest, rfl⟩)

/-- What a step that answers a next state did. -/
theorem step_cases {s t : State} (h : step s = .next t) :
    (∃ rest, s.CoreTurn rest ∧ t = State.coreStep Config.kso { s with sched := rest }) ∨
    (∃ a rest, s.HostTurn a rest ∧
      busAccess exec Config.kso { s with sched := rest } a = .next t) ∨
    (∃ rest, s.sched = .hardReset :: rest ∧
      t = State.hardReset Config.kso { s with sched := rest }) := by
  rcases turn_cases s with ⟨rest, hr⟩ | ⟨a, rest, hr⟩ | ⟨rest, hr⟩
  · rw [step_core hr, Host.Outcome.next.injEq] at h
    exact .inl ⟨rest, hr, h.symm⟩
  · rw [step_bus hr] at h
    exact .inr (.inl ⟨a, rest, hr, h⟩)
  · rw [step_hardReset hr, Host.Outcome.next.injEq] at h
    exact .inr (.inr ⟨rest, hr, h.symm⟩)

/-- The steps of the core with nothing scheduled. -/
theorem run_succ {s : State} (h : s.sched = []) (k : Nat) :
    Host.Core.run core (k + 1) s = Host.Core.run core k (s.coreStep Config.kso) := by
  have : core.step s = .next (s.coreStep Config.kso) := by
    show step s = _
    rw [step_core (.inr ⟨h, rfl⟩)]
    congr 2
    rw [← h]
  simp only [Host.Core.run, this]

/-! ### One proof for an invariant -/

/-- A property of the state that a core step, each command, a rejected word, a host write of a
register or of an unraced word of sample RAM, and RESET keep, and that reads neither the schedule nor
the returned word, is kept by every step. -/
theorem step_keeps (P : State → Prop)
    (hsched : ∀ s l, P s → P { s with sched := l })
    (hbus : ∀ s v, P s → P { s with busData := v })
    (hcore : ∀ s, P s → P (s.coreStep Config.kso))
    (hexec : ∀ i s t, P s → exec i s = .next t → P t)
    (hillegal : ∀ s, P s → P (s.reject .illegalCmd))
    (hreg : ∀ s v r, r ≠ .cmd → P s → P (s.writeReg v r))
    (hram : ∀ s k v, s.races k = false → P s → P (s.ramWrite k v))
    (hreset : ∀ s, P s → P (s.hardReset Config.kso))
    {s t : State} (hs : P s) (h : step s = .next t) : P t := by
  rcases step_cases h with ⟨rest, -, rfl⟩ | ⟨a, rest, -, hb⟩ | ⟨rest, -, rfl⟩
  · exact hcore _ (hsched _ _ hs)
  · have h0 : P { s with sched := rest } := hsched _ _ hs
    rcases busAccess_cases hb with ⟨-, v, rfl⟩ | ⟨r, hr, -, rfl⟩ | ⟨-, hc⟩ | ⟨k, -, -, hk, rfl⟩ |
      ⟨-, rfl⟩
    · exact hbus _ _ h0
    · exact hreg _ _ _ hr h0
    · rcases issueCommand_eq { s with sched := rest } a.data with ⟨i, -, hi⟩ | ⟨-, hi⟩
      · rw [hi] at hc
        exact hexec _ _ _ h0 hc
      · rw [hi, Host.Outcome.next.injEq] at hc
        exact hc ▸ hillegal _ h0
    · exact hram _ _ _ hk h0
    · exact h0
  · exact hreset _ (hsched _ _ hs)

end Sys2Proof.Machine
end

