-- ==== Sys2Proof/Laws/Units.lean ====
section
/-! SUPPORT. What the datapath operations keep: the geometry of a delay line, the target of a smoother,
the parameters of a biquad; and the shape of the lists of lines, smoothers and biquads. -/

namespace Sys2Proof.Machine

/-! ### Smoothers (R100 to R103) -/

/-- setTarget of a number leaves a target equal to it (R101). -/
theorem Smoother.setTarget_tgt_eq (s : Smoother) {v : F32} (hv : isNaN v = false) :
    fEq v (s.setTarget v).tgt = true := by
  unfold Smoother.setTarget
  split_ifs with h1 h2
  · exact h1
  · exact fEq_refl hv
  · exact fEq_refl hv

/-- setTarget of the value of the current target changes nothing (R101). -/
theorem Smoother.setTarget_of_eq {s : Smoother} {v : F32} (h : fEq v s.tgt = true) :
    s.setTarget v = s := by
  simp only [Smoother.setTarget, if_pos h]

/-- A second setTarget of the same number changes nothing (R101). -/
theorem Smoother.setTarget_idem (s : Smoother) {v : F32} (hv : isNaN v = false) :
    (s.setTarget v).setTarget v = s.setTarget v :=
  Smoother.setTarget_of_eq (s.setTarget_tgt_eq hv)

@[simp] theorem Smoother.setTarget_steps (s : Smoother) (v : F32) :
    (s.setTarget v).steps = s.steps := by
  unfold Smoother.setTarget
  split_ifs <;> rfl

/-- next keeps the target, the ramp length and the increment (R102). -/
theorem Smoother.next_keeps (s : Smoother) :
    s.next.2.tgt = s.tgt ∧ s.next.2.steps = s.steps ∧ s.next.2.stp = s.stp := by
  unfold Smoother.next
  split_ifs <;> exact ⟨rfl, rfl, rfl⟩

/-- At rest next returns the target and changes nothing (R102). -/
theorem Smoother.next_rest {s : Smoother} (h : s.cnt = 0) : s.next = (s.tgt, s) := by
  simp only [Smoother.next, if_pos h]

/-! ### Delay lines (R110 to R119) -/

/-- The geometry of a line: what setDelayTime, read and snap leave alone. -/
structure DelayLine.SameGeometry (l m : DelayLine) : Prop where
  cap : m.cap = l.cap
  buf : m.buf = l.buf
  w : m.w = l.w
  rate : m.rate = l.rate

theorem DelayLine.setDelayTime_geometry (l : DelayLine) (sec dur : F32) :
    l.SameGeometry (l.setDelayTime sec dur) := by
  unfold DelayLine.setDelayTime DelayLine.withDuration
  dsimp only
  split_ifs <;> exact ⟨rfl, rfl, rfl, rfl⟩

theorem DelayLine.snap_geometry (l : DelayLine) : l.SameGeometry l.snap := ⟨rfl, rfl, rfl, rfl⟩

theorem DelayLine.read_geometry (l : DelayLine) (mode : Interp) :
    l.SameGeometry (l.read mode).2 := ⟨rfl, rfl, rfl, rfl⟩

/-- push keeps the capacity, the rate and the smoother (R113). -/
theorem DelayLine.push_keeps (l : DelayLine) (x : F32) :
    (l.push x).cap = l.cap ∧ (l.push x).rate = l.rate ∧ (l.push x).dly = l.dly ∧
      (l.push x).lastSm = l.lastSm := by
  unfold DelayLine.push
  split_ifs <;> exact ⟨rfl, rfl, rfl, rfl⟩

/-- What a read does: one step of the delay smoother, and +0.0 where the line has too few slots for the
mode, or the value at the clamped offset (R115 to R118). -/
theorem DelayLine.read_cases (l : DelayLine) (mode : Interp) :
    (l.cap < needSlots mode ∧ l.read mode = (f0, { l with dly := l.dly.next.2 })) ∨
    (needSlots mode ≤ l.cap ∧
      l.read mode =
        (l.readAt mode (offsetOf mode l.cap l.rate l.dly.next.1).1
          (offsetOf mode l.cap l.rate l.dly.next.1).2, { l with dly := l.dly.next.2 })) := by
  unfold DelayLine.read DelayLine.readOffset
  by_cases h : l.cap < needSlots mode
  · simp only [if_pos h]
    exact .inl ⟨h, trivial⟩
  · simp only [if_neg h]
    exact .inr ⟨not_lt.1 h, by cases mode <;> rfl⟩

theorem DelayLine.Ok.of_geometry {phys : Nat} {l m : DelayLine} (h : l.Ok phys)
    (g : l.SameGeometry m) : m.Ok phys := by
  unfold DelayLine.Ok at *
  rw [g.cap, g.w, g.buf]
  exact h

theorem DelayLine.Ok.push {phys : Nat} {l : DelayLine} (h : l.Ok phys) (x : F32) :
    (l.push x).Ok phys := by
  by_cases hc : l.cap = 0
  · simp only [DelayLine.push, if_pos hc]
    exact h
  · obtain ⟨h1, h2, h3, h4, h5⟩ := h
    have hw := h2 (by omega)
    simp only [DelayLine.push, if_neg hc]
    refine ⟨h1, fun _ => Nat.mod_lt _ (by omega), fun h0 => absurd h0 hc,
      risingFrom_slotWrite h4 _ _, fun c hcm => ?_⟩
    rcases mem_slotWrite hcm with ⟨hj, hx⟩ | hm
    · exact ⟨hx, by omega⟩
    · exact h5 c hm

theorem DelayLine.Ok.prepare {phys : Nat} {l : DelayLine} (h : l.Ok phys) {capReq : Nat} (rate : Nat)
    (dur : F32) (hc : capReq ≤ phys) : (l.prepare capReq rate dur).Ok phys := by
  obtain ⟨h1, h2, h3, h4, h5⟩ := h
  refine ⟨le_trans (Nat.min_le_left _ _) hc, fun h0 => h0, fun _ => rfl,
    risingFrom_filter _ h4, fun c hcm => h5 c (List.mem_of_mem_filter hcm)⟩

/-! ### Biquads (R140 to R144) -/

@[simp] theorem Biquad.configure_type (p : Params) (r : F32) (b : Biquad) (c q : F32) (en : Bool) :
    (b.configure p r c q en).type = b.type := by
  unfold Biquad.configure
  split_ifs <;> rfl

@[simp] theorem Biquad.configure_enabled (p : Params) (r : F32) (b : Biquad) (c q : F32) (en : Bool) :
    (b.configure p r c q en).enabled = en := by
  unfold Biquad.configure
  split_ifs <;> rfl

@[simp] theorem Biquad.configure_cutoff (p : Params) (r : F32) (b : Biquad) (c q : F32) (en : Bool) :
    (b.configure p r c q en).cutoff = c := by
  unfold Biquad.configure
  split_ifs <;> rfl

@[simp] theorem Biquad.configure_q (p : Params) (r : F32) (b : Biquad) (c q : F32) (en : Bool) :
    (b.configure p r c q en).q = q := by
  unfold Biquad.configure
  split_ifs <;> rfl

@[simp] theorem Biquad.configure_z (p : Params) (r : F32) (b : Biquad) (c q : F32) (en : Bool) :
    (b.configure p r c q en).z1 = b.z1 ∧ (b.configure p r c q en).z2 = b.z2 := by
  unfold Biquad.configure
  split_ifs <;> exact ⟨rfl, rfl⟩

/-- process changes nothing of a biquad but z1 and z2 (R143). -/
theorem Biquad.process_keeps (b : Biquad) (x : F32) :
    (b.process x).2 = { b with z1 := (b.process x).2.z1, z2 := (b.process x).2.z2 } := by
  unfold Biquad.process
  split_ifs <;> rfl

end Sys2Proof.Machine
end

