-- ==== Sys2Proof/Tests/Slice0.lean ====
section
/-! SUPPORT. Tests: the checks refuse ill-formed terms, words written out from spec/30_encoding.md
decode to their commands, vectors of spec/95_test_vectors.md, and, in the second half, for each
statement with hypotheses a state that meets them. -/

namespace Sys2Proof.Tests

/- One test after another: each waiting kernel check holds a thread and its stack, and all of them
together come close to the memory limit of the check. -/
set_option Elab.async false

open Machine

/-! ### Well-formedness (spec/00_scope.md R8, R9; spec/20_memory.md R62) -/

/-- The rates and rows of configuration RT of spec/95_test_vectors.md section 1.2, with a 64-word
sample RAM. Its TAN32 is the constant 1.0, the value the section 6.1 rows at 12000 Hz need. -/
def rt : Params where
  maxSr := 8
  sampleRamWords := 64
  earlySeedS := ⟨0x3E800000#32, 0x3EC00000#32, 0x3F000000#32, 0x3F200000#32,
    0x3E800000#32, 0x3EC00000#32, 0x3F000000#32, 0x3F200000#32⟩
  lateSeedS := ⟨0x3E000000#32, 0x3E800000#32, 0x3E000000#32, 0x3EC00000#32⟩
  revSmoothS := f0
  revTimeSmoothS := f0
  revInterp := .none
  revMixCurve := f1
  dblInterp := .none
  dblOffsetLHz := f0
  dblOffsetRHz := f1
  map := fun _ => ⟨f1, f0, f1⟩
  expr := fun a _ => a
  tan32 := fun _ => f1
  bqFminHz := 0x41A00000#32
  bqFmaxFrac := 0x3EE66666#32
  bqQmin := 0x3DCCCCCD#32
  bqQmax := 0x41200000#32
  ksoBase := 0
  ksoIrqLine := 0

theorem test_params_wf : rt.wf = true := by decide +kernel
theorem test_params_admitted : rt.checked.isSome = true := by decide +kernel
theorem test_maxSrOk_refuses_zero : Params.maxSrOk { rt with maxSr := 0 } = false := by decide
theorem test_maxSrOk_refuses_above : Params.maxSrOk { rt with maxSr := 2 ^ 24 + 1 } = false := by decide
theorem test_sampleRamOk_refuses_below : Params.sampleRamOk { rt with sampleRamWords := 1 } = false := by
  decide
theorem test_sampleRamOk_refuses_above :
    Params.sampleRamOk { rt with sampleRamWords := 261121 } = false := by decide
theorem test_seedsOk_refuses :
    Params.seedsOk { rt with lateSeedS := Four.replicate fMinus1 } = false := by decide +kernel
theorem test_revSmoothOk_refuses_nan :
    Params.revSmoothOk { rt with revSmoothS := nan32 } = false := by decide +kernel
theorem test_fminOk_refuses : Params.fminOk { rt with bqFminHz := f0 } = false := by decide +kernel
theorem test_fmaxOk_refuses : Params.fmaxOk { rt with bqFmaxFrac := fHalf } = false := by decide +kernel
theorem test_qOk_refuses : Params.qOk { rt with bqQmin := f2, bqQmax := f1 } = false := by decide +kernel
/-- At 0.5 the TAN32 argument reaches pi/2 (item I2). -/
theorem test_tanArgOk_refuses :
    Params.tanArgOk { rt with bqFmaxFrac := fHalf } = false := by decide +kernel
theorem test_checked_refuses : (Params.checked { rt with maxSr := 0 }).isNone = true := by decide
/-- R21: the offset of each register, in the order of the table. -/
theorem test_register_offsets :
    allRegs.map Reg.addr = [0x000#20, 0x004#20, 0x008#20, 0x00C#20, 0x010#20, 0x014#20, 0x018#20,
      0x01C#20, 0x020#20, 0x024#20, 0x028#20, 0x02C#20, 0x030#20, 0x034#20] := by decide
theorem test_access_refuses_width : Access.wf ⟨.read, 16, 0x004#20, 0#32⟩ = false := by decide
theorem test_access_refuses_align : Access.wf ⟨.write, 32, 0x00E#20, 0#32⟩ = false := by decide
theorem test_instr_wf : Instr.wf .process = true := by decide

/-! ### Decoding (spec/30_encoding.md R80, R83, R84, R89) -/

theorem test_decode_nop : decode 0b00000000000000000000000000000000#32 = .command .nop := by decide
theorem test_decode_prepare :
    decode 0b00000000000000000000000000000001#32 = .command .prepare := by decide
theorem test_decode_setParameters :
    decode 0b00000000000000000000000000000010#32 = .command .setParameters := by decide
theorem test_decode_process :
    decode 0b00000000000000000000000000000011#32 = .command .process := by decide
/-- R89: OP = 3 and RSV = 1. -/
theorem test_decode_reservedBits : decode 0x00000013#32 = .reservedBits := by decide
theorem test_decode_reservedOpcode : decode 0x00000004#32 = .reservedOpcode := by decide
theorem test_decodeBytes_low_lane_first : decodeBytes [0x03#8, 0#8, 0#8, 0#8] = .command .process := by
  decide
theorem test_decodeBytes_one_length : decodeBytes [0x03#8, 0#8] = .notOneWord := by decide
theorem test_tableWord_prepare : decodeTableWord 32 1 = some .prepare := by decide
theorem test_tableWord_illegal : decodeTableWord 32 0x13 = none := by decide

/-- The four rows of the table run as the first instruction after reset. -/
theorem test_first_nop : step (State.reset.withFetchWord 32 0) = exec .nop State.reset := rfl
theorem test_first_prepare : step (State.reset.withFetchWord 32 1) = exec .prepare State.reset := rfl
theorem test_first_setParameters :
    step (State.reset.withFetchWord 32 2) = exec .setParameters State.reset := rfl
theorem test_first_process : step (State.reset.withFetchWord 32 3) = exec .process State.reset := rfl

/-! ### Vectors of spec/95_test_vectors.md -/

/-- R8: PREGAIN = 0.1 /f 12, and U4. -/
theorem test_pregain : fDiv (fOfRatio false 1 10) (toF32 12) = pregain := by decide +kernel
theorem test_U4 : fMul (fAdd f1 f1) pregain = 0x3C888889#32 := by decide +kernel
/-- R189, the example. -/
theorem test_outClamp :
    [0x3FC00000#32, 0x7FC00001#32, 0xFF800000#32, 0x80000000#32].map outClamp =
      [0x3F99999A#32, 0xBF99999A#32, 0xBF99999A#32, 0x80000000#32] := by decide +kernel

/-- S2 and S6. -/
theorem test_S2 :
    (Smoother.reset0.reset 8 fHalf).setTarget f1 = ⟨f0, f1, 4, 4, 0x3E800000#32⟩ := by decide +kernel
theorem test_S6 :
    let s := (Smoother.reset0.reset 3 f1).setTarget f1
    (List.range 4).map (fun k => (s.afterNext k).next.1) =
      [0x3EAAAAAB#32, 0x3F2AAAAB#32, f1, f1] := by decide +kernel
/-- R102: the last step of a ramp writes the count and the current value alone. -/
theorem test_ramp_last_step :
    let s := ((Smoother.reset0.reset 8 fHalf).setTarget f1).afterNext 3
    s.next = (f1, { s with cnt := 0, cur := f1 }) := by decide +kernel
/-- S10 and S11. -/
theorem test_S10 : rampSteps 44100 fInf = 2147483647 ∧ rampSteps 0 fInf = 0 := by decide +kernel
theorem test_S11 : [44100, 48000, 0, 192000].map (rampSteps · combSmoothS) = [1323, 1440, 0, 5760] := by
  decide +kernel

/-- The line of section 4.2 (L1): 1.0 to 8.0 pushed into eight slots. -/
def lineL1 : DelayLine :=
  (List.range 8).foldl (fun l k => l.push (toF32 (k + 1))) (DelayLine.reset0.prepare 8 8 f0)

/-- A read of L1 at d samples. -/
def readL1 (mode : Interp) (d : F32) : F32 :=
  ({ lineL1 with dly := lineL1.dly.snapTo (fDiv d (toF32 8)) }.read mode).1

/-- The rows 2.5, 7.5, -3.0 and +inf of section 4.2. -/
theorem test_line_none :
    [0x40200000#32, 0x40F00000#32, 0xC0400000#32, fInf].map (readL1 .none) =
      [toF32 6, toF32 1, toF32 8, toF32 1] := by decide +kernel
theorem test_line_linear :
    [0x40200000#32, 0x40F00000#32, 0xC0400000#32, fInf].map (readL1 .linear) =
      [0x40D00000#32, toF32 2, toF32 8, toF32 2] := by decide +kernel
theorem test_line_cubic :
    [0x40200000#32, 0x40F00000#32, 0xC0400000#32, fInf].map (readL1 .cubic) =
      [0x40D00000#32, toF32 3, toF32 7, toF32 3] := by decide +kernel
/-- Section 4.6, N = 3, both uses. -/
theorem test_delay_exact :
    let l := (DelayLine.reset0.prepare 8 8 f0).setDelayTime (fDiv (toF32 3) (toF32 8)) f0
    l.readThenPush [f1, f0, f0, f0, f0, f0] = [f0, f0, f0, f1, f0, f0] ∧
      l.pushThenRead [f1, f0, f0, f0, f0, f0] = [f0, f0, f1, f0, f0, f0] := by decide +kernel

/-- The outputs of a doubler fed with each sample in turn. -/
def runDoubler : Doubler → List F32 → List F32
  | _, [] => []
  | d, x :: t => (d.process x).1 :: runDoubler (d.process x).2 t

/-- Section 4.3: the squares 0 to 49, read by CUBIC and LINEAR at 2.25. -/
theorem test_line_curved :
    let l := [0, 1, 4, 9, 16, 25, 36, 49].foldl (fun l k => l.push (toF32 k))
      (DelayLine.reset0.prepare 8 8 f0)
    let l := { l with dly := l.dly.snapTo (fDiv 0x40100000#32 (toF32 8)) }
    (l.read .cubic).1 = 0x42044000#32 ∧ (l.read .linear).1 = fOfRatio false 133 4 := by decide +kernel

/-- The doubler of section 5 at 2 Hz. -/
def doublerCB (fb wet : F32) : Doubler :=
  Doubler.setParameters ⟨DelayLine.reset0.prepare 8 8 combSmoothS, f0, f0, .none⟩ f2 fb wet .none f0

/-- CB2 and CB4. -/
theorem test_CB2 :
    runDoubler (doublerCB fHalf f1) [f1, f0, f0, f0, f0, f0, f0, f0, f0] =
      [f1, f0, f0, f0, f1, f0, f0, f0, fHalf] := by decide +kernel
theorem test_CB4 :
    runDoubler (doublerCB nan32 f1) [f1, f0, f0, f0, f0, f0, f0, f0, f0] =
      [f1, f0, f0, f0, f1, f0, f0, f0, f0] := by decide +kernel

/-- Section 6.1, cutoff 12000, Q 0x3F3504F3, rate 48000, where TAN32 answers 1.0. -/
theorem test_coef_lp :
    coef rt .lp 0x463B8000#32 0x3F3504F3#32 0x473B8000#32 =
      ⟨0x3E95F619#32, 0x3F15F619#32, 0x3E95F619#32, 0x00000000#32, 0x3E2FB0CD#32⟩ := by decide +kernel
theorem test_coef_hp :
    coef rt .hp 0x463B8000#32 0x3F3504F3#32 0x473B8000#32 =
      ⟨0x3E95F619#32, 0xBF15F619#32, 0x3E95F619#32, 0x00000000#32, 0x3E2FB0CD#32⟩ := by decide +kernel

/-- Configuration EX1 of spec/95_test_vectors.md section 1.1, but with the seeds and the sample RAM of
`rt`. TAN32 is tabulated: the binary32 tangents of the arguments of 500, 1000 and 2000 Hz at the rate
44100. -/
def ex1 : Params :=
  { rt with
    maxSr := 192000
    revSmoothS := 0x3D4CCCCD#32
    revTimeSmoothS := 0x3D4CCCCD#32
    revInterp := .linear
    dblInterp := .cubic
    map := fun m => match m with
      | .dblFreq => ⟨f1, 0x42480000#32, 0x43FA0000#32⟩
      | .dblFeedback => ⟨f1, f0, 0x3F333333#32⟩
      | .dblWet => ⟨f1, f0, fHalf⟩
      | .lpCutoff => ⟨f1, 0x469C4000#32, 0x44FA0000#32⟩
      | .lpQ => ⟨f1, 0x3F34FDF4#32, 0x3F34FDF4#32⟩
      | .hpCutoff => ⟨f1, 0x41A00000#32, 0x43FA0000#32⟩
      | .hpQ => ⟨f1, 0x3F34FDF4#32, 0x3F34FDF4#32⟩
      | .revDamping => ⟨f1, 0x3E4CCCCD#32, 0x3F19999A#32⟩
      | .revSize => ⟨f1, fHalf, 0x3F666666#32⟩
      | .revMix => ⟨f1, f0, 0x3F19999A#32⟩
      | .revWidth => ⟨f1, f1, f1⟩
      | .revSpread => ⟨f1, f0, 0x3A08B816#32⟩
    tan32 := fun x =>
      if x = 0x3D11E531#32 then 0x3D11F4FF#32
      else if x = 0x3D91E531#32 then 0x3D922480#32
      else 0x3E12E3FB#32 }

/-- Section 6.1, cutoff 1000, Q 0x3F34FDF4, rate 44100, both types. -/
theorem test_coef_1000 :
    [FilterType.lp, .hp].map (coef ex1 · 0x447A0000#32 0x3F34FDF4#32 0x472C4400#32) =
      [⟨0x3B96DC9B#32, 0x3C16DC9B#32, 0x3B96DC9B#32, 0xBFE647FA#32, 0x3F5146DB#32⟩,
        ⟨0x3F6775B4#32, 0xBFE775B4#32, 0x3F6775B4#32, 0xBFE647FA#32, 0x3F5146DB#32⟩] := by
  decide +kernel

/-- R185: from reset, setMix at the old width 0 starts a ramp of wet2 towards 0.5; setWidth to 1 gives
wet2 its old target 0.0 again, and a ramp of floorI(44100 *f 0.05) = 2205 steps is left. -/
theorem test_setter_order :
    let r := (Reverb.reset0.prepare ex1 44100).setMix ex1 f1
    let t := r.setWidth f1
    r.sW2.tgt = fHalf ∧ r.sW2.cnt = 2205 ∧ t.sW2.tgt = f0 ∧ t.sW2.cnt = 2205 := by decide +kernel

/-- The macro setting (0.65, 1, 0.7, 1) of section 8.1, and the datapath it gives at 44100. -/
def amounts81 : Amounts := ⟨0x3F266666#32, f1, 0x3F333333#32, f1⟩

def datapath81 : Datapath := (Datapath.reset0 ex1).prepare ex1 44100 amounts81

/-- Section 8.1, the twelve mapped parameters. -/
theorem test_mapped :
    [Mapped.dblFreq, .dblFeedback, .dblWet, .lpCutoff, .lpQ, .hpCutoff, .hpQ, .revDamping, .revSize,
        .revMix, .revWidth, .revSpread].map (mapped ex1 amounts81) =
      [0x43AB4000#32, 0x3EE8F5C2#32, 0x3EA66666#32, 0x44FA0000#32, 0x3F34FDF4#32, 0x43FA0000#32,
        0x3F34FDF4#32, 0x3EF5C290#32, 0x3F47AE14#32, 0x3ED70A3E#32, f1, 0x39BF681F#32] := by
  decide +kernel
/-- Section 8.1, the delay targets of D[L] and D[R], and what else DERIVE leaves in them. -/
theorem test_combDerive :
    datapath81.dbl.toList.map (fun d => (d.line.dly.tgt, d.line.lastSm, d.fb, d.wet, d.mode)) =
      [(0x3B3F5892#32, 0x3CF5C28F#32, 0x3EE8F5C2#32, 0x3EA66666#32, .cubic),
        (0x3B3EC9F8#32, 0x3CF5C28F#32, 0x3EE8F5C2#32, 0x3EA66666#32, .cubic)] := by decide +kernel
/-- Section 8.1, the cutoffs and the coefficients of the low-pass and the high-pass. -/
theorem test_biquadDerive :
    [datapath81.lp.l, datapath81.hp.r].map (fun b => (b.cutoff, b.coefs)) =
      [(0x44FA0000#32,
          ⟨0x3C89C76E#32, 0x3D09C76E#32, 0x3C89C76E#32, 0xBFCCEF48#32, 0x3F2B177D#32⟩),
        (0x43FA0000#32,
          ⟨0x3F736C09#32, 0xBFF36C09#32, 0x3F736C09#32, 0xBFF31CE9#32, 0x3F677653#32⟩)] := by
  decide +kernel
/-- Section 8.2, O1: at 20 Hz both cutoffs are 9.0, a doubler has 0 ramp steps and the reverb 1. -/
theorem test_lowRate :
    let d := (Datapath.reset0 ex1).prepare ex1 20 ⟨f0, f0, f0, f0⟩
    d.biquads.map Biquad.cutoff = [0x41100000#32, 0x41100000#32, 0x41100000#32, 0x41100000#32] ∧
      d.dbl.l.line.dly.steps = 0 ∧ d.rev.early.l.c0.line.dly.steps = 1 ∧ d.rev.sDry.steps = 1 := by
  decide +kernel

/-- The high-pass biquad of section 6.2. -/
def biquadB1 : Biquad :=
  (Biquad.reset0 .hp).configure rt 0x473B8000#32 0x463B8000#32 0x3F3504F3#32 true

/-- B1, and B5 for the same biquad disabled. -/
theorem test_B1 :
    (biquadB1.processAll [f1, f0, f0, f0, f0]).1 =
      [0x3E95F619#32, 0xBF15F619#32, 0x3E7876CC#32, 0x3DCDD599#32, 0xBD2A84CE#32] := by decide +kernel
theorem test_B5 :
    ({ biquadB1 with enabled := false }.processAll
        [0x3F800000#32, 0x7FC00000#32, 0x80000000#32, 0x7F800000#32]) =
      ([0x3F800000#32, 0x7FC00000#32, 0x80000000#32, 0x7F800000#32],
        { biquadB1 with enabled := false }) := by decide +kernel

/-- A line of cap 8 whose newest sample is x, read at age 1. -/
def lineAt1 (x : F32) : DelayLine := (DelayLine.reset0.prepare 8 8 f0).push x

/-- U1, U2 and U3. -/
theorem test_U1 :
    let t := EarlyComb.process .none ⟨lineAt1 f1, f0⟩ f0 0x3E800000#32 fHalf
    t.1 = f1 ∧ t.2.store = 0x3F400000#32 ∧ t.2.line.age 1 = 0x3EC00000#32 := by decide +kernel
theorem test_U2 :
    let t := LateComb.process .none ⟨lineAt1 fHalf⟩ 0x3E800000#32
    t.1 = 0x3E800000#32 ∧ t.2.line.age 1 = fHalf := by decide +kernel
theorem test_U3 :
    let t := LateComb.process .none ⟨DelayLine.reset0.prepare 8 8 f0⟩ f1
    t.1 = fMinus1 ∧ t.2.line.age 1 = f1 := by decide +kernel

/-- The reverb of section 7.3 (RV1). -/
def reverbRV1 : Reverb :=
  ((((Reverb.prepare rt 8 Reverb.reset0).setDamping 0x3E800000#32).setSize fHalf).setMix rt fHalf
    |>.setWidth f1).setSpread rt f0

/-- RV1: frames 0 and 2 of the impulse. -/
theorem test_RV1 :
    let t0 := reverbRV1.process rt f1 f0
    let t1 := t0.2.process rt f0 f0
    let t2 := t1.2.process rt f0 f0
    t0.1 = (0x3F000000#32, f0) ∧ t1.1 = (f0, f0) ∧ t2.1 = (0x3C088889#32, 0x3C088889#32) := by
  decide +kernel

/-! ### Commands and the bus (spec/95_test_vectors.md sections 11 and 12), under `rt` -/

/-- The reset state of `rt` with the operands of PROCESS set. -/
def idle (n lb rb : Nat) : State :=
  { State.resetWith rt 0 [] with
    numSamples := BitVec.ofNat 32 n, leftBase := BitVec.ofNat 32 lb, rightBase := BitVec.ofNat 32 rb }

/-- Section 11.2: NOT_PREPARED, the two no-ops, BAD_RATE, CAPACITY. -/
theorem test_process_rejected : ((idle 4 16 32).process rt).statusWord = 0x30#32 := by decide +kernel
theorem test_process_noop :
    ((idle 4 0 32).process rt).statusWord = 0x04#32 ∧
      ((idle 0xFFFFFFFF 16 32).process rt).statusWord = 0x04#32 := by decide +kernel
theorem test_prepare_badRate : ((idle 0 0 0).prepare rt).statusWord = 0x40#32 := by decide +kernel
theorem test_prepare_capacity :
    (State.prepare rt { idle 0 0 0 with sampleRate := 9#32 }).statusWord = 0x50#32 := by decide +kernel
/-- The bounds of section 11.2 on a prepared core: the last word, and one beyond. -/
theorem test_process_bounds :
    (State.process rt { idle 4 60 32 with prepared := true, sr := 8 }).statusWord = 0x03#32 ∧
      (State.process rt { idle 4 61 32 with prepared := true, sr := 8 }).statusWord = 0x62#32 := by
  decide +kernel
/-- R197, the example: NaN clamps to 0.0, 2.0 to 1.0; queued while BUSY (R198). -/
theorem test_setParameters :
    (State.setParameters rt { idle 0 0 0 with macroDoubler := nan32, macroMaster := f2 }).amounts =
      ⟨f0, f0, f0, f1⟩ := by decide +kernel
theorem test_setParameters_busy :
    let t := State.setParameters rt { idle 0 0 0 with run := some ⟨1, 1, 1, 0⟩, macroFilter := f1 }
    t.pend = some ⟨f0, f1, f0, f0⟩ ∧ t.amounts = ⟨f0, f0, f0, f0⟩ := by decide +kernel
/-- R195, the example: ERR = 1 before, 0 after. -/
theorem test_nop : (State.nop { idle 0 0 0 with err := .illegalCmd }).statusWord = 0#32 := by
  decide +kernel

/-- A prepared core with aliased buffers at word 5 that hold 1.5: the write is clamped to 1.2 or
inside, FRAME_INDEX is 1, and the completion follows. -/
def oneFrame : State :=
  State.started (State.prepare rt { (idle 0 0 0).ramWrite 5 0x3FC00000#32 with sampleRate := 8#32 })
    1 5 5

theorem test_frame :
    (oneFrame.coreStep rt).fidx = 1 ∧ outOk ((oneFrame.coreStep rt).ramRead 5) = true := by
  decide +kernel
theorem test_completion :
    ((oneFrame.coreStep rt).coreStep rt).statusWord = 0x06#32 := by decide +kernel

/-- R63: word 5 is stored with its least significant byte at the lowest address. -/
theorem test_ram_little_endian :
    ((idle 0 0 0).ramWrite 5 0x3F266666#32).ram =
      [(0x1014, 0x66#8), (0x1015, 0x66#8), (0x1016, 0x26#8), (0x1017, 0x3F#8)] := by decide +kernel
/-- R89: the bus write of `wr MACRO_MASTER, f:0.65`. -/
theorem test_script_write :
    ScriptStmt.accesses (.wr .macroMaster (.real false 65 100)) =
      [⟨.write, 32, 0x020#20, 0x3F266666#32⟩] := by decide +kernel

/-! ### For each statement with hypotheses, a state that meets them

A theorem `wit_<Name>` belongs to `Obligations.<Name>`. A statement that takes the same hypotheses as one
before it is named in that one's docstring. -/

/-- The reset state, with one host access to come. -/
def bus (a : Access) : State := { State.reset with sched := [.bus a] }

/-- The reset state prepared at 1 Hz, running a PROCESS of one frame over word 1 at frame index i, with
+0.0 in that word and the core's turn next. -/
def running (i : Nat) : State :=
  { State.reset with
    prepared := true, sr := 1, run := some ⟨1, 1, 1, i⟩, fidx := i
    ram := Memory.writeWord [] 1 f0, sched := [.core] }

/-- The idle core with SAMPLE_RATE = MAX_SR. -/
def atMaxRate : State := { State.reset with sampleRate := BitVec.ofNat 32 Config.kso.maxSr }

/-- The prepared idle core with the operands of a PROCESS of n frames. -/
def request (n lb rb : Word) : State :=
  { State.reset with prepared := true, sr := 1, numSamples := n, leftBase := lb, rightBase := rb }

theorem atMaxRate_toNat : atMaxRate.sampleRate.toNat = Config.kso.maxSr := by
  have := Params.maxSr_le Config.kso_wf
  show (BitVec.ofNat 32 Config.kso.maxSr).toNat = _
  rw [BitVec.toNat_ofNat]
  omega

theorem word_toNat {k : Nat} (h : k ≤ 261120) : (BitVec.ofNat 32 k).toNat = k := by
  rw [BitVec.toNat_ofNat]
  omega

theorem wit_DecoderIsTotalAndExact :
    (0x00000010#32).extractLsb' 4 28 ≠ 0#28 ∧ (0x00000004#32).extractLsb' 4 28 = 0#28 ∧
      4#4 ≤ (0x00000004#32).extractLsb' 0 4 ∧ 4#4 ≤ (0x0000000F#32).extractLsb' 0 4 ∧
      (0x00000003#32).extractLsb' 0 4 = 3#4 := by decide

theorem wit_StepRunsDecodedCommand (i : Instr) :
    (bus (cmdWrite (encode i))).HostTurn (cmdWrite (encode i)) [] ∧
      decodeBytes (bytesOfWord (encode i)) = .command i ∧ i.wf = true := by
  cases i <;> exact ⟨rfl, rfl, rfl⟩

theorem wit_IllegalWordOnlySetsErr :
    (bus (cmdWrite 0x10#32)).HostTurn (cmdWrite 0x10#32) [] ∧
      (0x10#32).extractLsb' 4 28 ≠ 0#28 ∧
      (bus (cmdWrite 0x4#32)).HostTurn (cmdWrite 0x4#32) [] ∧ 4#4 ≤ (0x4#32).extractLsb' 0 4 :=
  ⟨rfl, by decide, rfl, by decide⟩

/-- The four cases of PREPARE, the last at the largest rate; and the hypotheses of
PrepareClearsAndRests. -/
theorem wit_PrepareOutcomeAndEffect :
    (running 0).run ≠ none ∧ (State.reset.run = none ∧ State.reset.sampleRate = 0#32) ∧
      Config.kso.maxSr < (0xFFFFFFFF#32).toNat ∧
      (atMaxRate.run = none ∧ atMaxRate.sampleRate ≠ 0#32 ∧
        atMaxRate.sampleRate.toNat ≤ Config.kso.maxSr) := by
  have h1 := Params.maxSr_pos Config.kso_wf
  have h2 := Params.maxSr_le Config.kso_wf
  have h3 : (0xFFFFFFFF#32).toNat = 4294967295 := rfl
  refine ⟨Option.some_ne_none _, ⟨rfl, rfl⟩, by omega, rfl, fun h => ?_, atMaxRate_toNat.le⟩
  have h4 := atMaxRate_toNat
  rw [h] at h4
  have h5 : (0#32).toNat = 0 := rfl
  omega

/-- Also for RepeatedSetParametersIsNoOp. -/
theorem wit_PrepareIsIdempotent :
    exec .prepare atMaxRate = .next (atMaxRate.prepare Config.kso) ∧
      exec .setParameters State.reset = .next (State.reset.setParameters Config.kso) := ⟨rfl, rfl⟩

theorem wit_SetParametersOutcomeAndEffect :
    (running 0).run ≠ none ∧ ((request 0 0 0).run = none ∧ (request 0 0 0).prepared = true) ∧
      (State.reset.run = none ∧ State.reset.prepared = false) :=
  ⟨Option.some_ne_none _, ⟨rfl, rfl⟩, rfl, rfl⟩

/-- The cases of PROCESS: n = 0 and n = -1, a null base, one word too many, and the last word. -/
theorem wit_ProcessOutcomeAndEffect :
    ((0#32).toInt ≤ 0 ∧ (0xFFFFFFFF#32).toInt ≤ 0 ∧ (1#32).toInt = 1) ∧
      (request 1 0 1).leftBase = 0#32 ∧ State.reset.prepared = false ∧
      (let w := BitVec.ofNat 32 Config.kso.sampleRamWords
       (Config.kso.sampleRamWords : Int) < (request 1 w 1).leftBase.toNat + (request 1 w 1).numSamples.toInt) ∧
      (let w := BitVec.ofNat 32 (Config.kso.sampleRamWords - 1)
       ((request 1 w w).rightBase.toNat + (request 1 w w).numSamples.toInt : Int) =
         Config.kso.sampleRamWords ∧ (request 1 w w).rightBase ≠ 0#32) := by
  have h1 := Params.two_le_sampleRamWords Config.kso_wf
  have h2 := Params.sampleRamWords_le Config.kso_wf
  have hn : (1#32).toInt = 1 := rfl
  have hw := word_toNat h2
  have hv : (BitVec.ofNat 32 (Config.kso.sampleRamWords - 1)).toNat = Config.kso.sampleRamWords - 1 :=
    word_toNat (by omega)
  refine ⟨by decide, rfl, rfl, ?_, ?_, fun h => ?_⟩
  · show (Config.kso.sampleRamWords : Int) <
      (BitVec.ofNat 32 Config.kso.sampleRamWords).toNat + (1#32).toInt
    rw [hw, hn]; omega
  · show ((BitVec.ofNat 32 (Config.kso.sampleRamWords - 1)).toNat + (1#32).toInt : Int) = _
    rw [hv, hn]; omega
  · have : (0#32).toNat = 0 := rfl
    replace h : BitVec.ofNat 32 (Config.kso.sampleRamWords - 1) = 0#32 := h
    rw [h] at hv
    omega

/-- A rejection with BAD_RATE, and one with CAPACITY. -/
theorem wit_RejectedCommandOnlySetsErr :
    (exec .prepare State.reset = .next (State.reset.prepare Config.kso) ∧
      (State.reset.prepare Config.kso).err = .badRate) ∧
      let s := { State.reset with sampleRate := 0xFFFFFFFF#32 }
      exec .prepare s = .next (s.prepare Config.kso) ∧ (s.prepare Config.kso).err = .capacity := by
  have h2 := Params.maxSr_le Config.kso_wf
  refine ⟨⟨rfl, rfl⟩, rfl, ?_⟩
  have h : Config.kso.maxSr < 4294967295 := by omega
  show (if Config.kso.maxSr < 4294967295 then _ else _ : State).err = _
  rw [if_pos h]
  rfl

/-- Also for NoFrameChangesCapacity. -/
theorem wit_FrameStepInPlace :
    (running 0).CoreTurn [] ∧ (running 0).run = some ⟨1, 1, 1, 0⟩ ∧
      (∃ t, step (running 0) = .next t) ∧ (Run.mk 1 1 2 0).lb ≠ (Run.mk 1 1 2 0).rb :=
  ⟨.inl rfl, rfl, ⟨_, step_core (.inl rfl)⟩, by decide⟩

theorem wit_PendingSetCommitsWhole :
    State.pend { running 0 with pend := some ⟨f1, f1, f1, f1⟩ } = some ⟨f1, f1, f1, f1⟩ ∧
      (running 0).pend = none := ⟨rfl, rfl⟩

theorem wit_LastPendingSetWins :
    (running 0).run ≠ none ∧
      ∃ t, exec .setParameters (running 0) = .next t ∧
        ∃ u, exec .setParameters { t with
          macroDoubler := f1, macroFilter := f1, macroReverb := f1, macroMaster := f1 } = .next u :=
  ⟨Option.some_ne_none _, _, rfl, _, rfl⟩

theorem wit_CompletionStep :
    (running 1).CoreTurn [] ∧ (running 1).run = some ⟨1, 1, 1, 1⟩ ∧ (Run.mk 1 1 1 1).i = (Run.mk 1 1 1 1).n :=
  ⟨.inl rfl, rfl, rfl⟩

theorem wit_IdleCoreChangesNothing :
    State.reset.run = none ∧ State.reset.CoreTurn [] ∧
      State.CoreTurn { State.reset with sched := [.core, .core] } [.core] :=
  ⟨rfl, .inr ⟨rfl, rfl⟩, .inl rfl⟩

/-- The first frame index and the last. -/
theorem wit_ProcessCompletesAfterItsFrames :
    let s (i : Nat) : State := { running i with sched := [] }
    (s 0).run = some ⟨1, 1, 1, 0⟩ ∧ (s 1).run = some ⟨1, 1, 1, 1⟩ ∧ (s 0).sched = [] ∧
      Run.Ok Config.kso ⟨1, 1, 1, 0⟩ ∧ Run.Ok Config.kso ⟨1, 1, 1, 1⟩ := by
  have h := Params.two_le_sampleRamWords Config.kso_wf
  exact ⟨rfl, rfl, rfl, ⟨le_refl _, le_refl _, le_refl _, h, h, by decide⟩,
    ⟨le_refl _, le_refl _, le_refl _, h, h, by decide⟩⟩

/-- Also for OperandRewriteIsInvisible. -/
theorem wit_BlockSplitIsInvisible :
    State.sched { running 0 with sched := [] } = [] ∧ (running 0).pend = none ∧ 1 ≤ 1 ∧
      Reg.sampleRate ∈ operandRegs ∧ Reg.rightBase ∈ operandRegs := by
  exact ⟨rfl, rfl, le_refl _, by decide, by decide⟩

/-- For HostReadHasNoSideEffect, RegisterReadValues, StatusAndCtrlFields, OperandRegisterWrites,
ReadOnlyRegistersIgnoreWrites, StatusAndCtrlWrites and IrqIsDoneAndEnable: an access of either kind to
any address, CTRL and STATUS with each outcome code among them, comes next. -/
theorem wit_RegisterReadValues :
    (∀ e k a x, State.HostTurn { bus ⟨k, 32, a, x⟩ with err := e } ⟨k, 32, a, x⟩ []) ∧
      (∃ t, step (bus ⟨.read, 32, 0x034#20, 1#32⟩) = .next t) ∧
      (∃ t, step (bus ⟨.write, 32, 0x004#20, 1#32⟩) = .next t) ∧ (1#32).getLsbD 0 = true ∧
      (0xFFFFFFFE#32).getLsbD 0 = false :=
  ⟨fun _ _ _ _ => rfl, ⟨_, rfl⟩, ⟨_, rfl⟩, rfl, rfl⟩

/-- The ends of the hole below the sample RAM, and, where the RAM does not fill the space, its last
word above it. -/
theorem wit_UnmappedReadsZeroIgnoresWrites :
    (∀ k x, (bus ⟨k, 32, 0x038#20, x⟩).HostTurn ⟨k, 32, 0x038#20, x⟩ [] ∧
      Access.wf ⟨k, 32, 0x038#20, x⟩ = true ∧ Access.wf ⟨k, 32, 0xFFC#20, x⟩ = true) ∧
      (0x038 ≤ (0x038#20).toNat ∧ (0xFFC#20).toNat < 0x1000) ∧
      (Config.kso.sampleRamWords < 261120 → ∀ k x, Access.wf ⟨k, 32, 0xFFFFC#20, x⟩ = true ∧
        0x1000 + 4 * Config.kso.sampleRamWords ≤ (0xFFFFC#20).toNat) := by
  refine ⟨fun _ _ => ⟨rfl, Access.wf_iff.2 ⟨rfl, (by decide : (0x038#20).toNat % 4 = 0)⟩,
    Access.wf_iff.2 ⟨rfl, (by decide : (0xFFC#20).toNat % 4 = 0)⟩⟩, by decide,
    fun h _ _ => ⟨Access.wf_iff.2 ⟨rfl, (by decide : (0xFFFFC#20).toNat % 4 = 0)⟩, ?_⟩⟩
  have : (0xFFFFC#20).toNat = 1048572 := rfl
  omega

/-- The first and the last word, on an idle core; and word 0 while a PROCESS runs over word 1. -/
theorem wit_HostRamAccess :
    0 < Config.kso.sampleRamWords ∧
      Config.kso.sampleRamWords - 1 < Config.kso.sampleRamWords ∧
      (∀ a, (bus a).HostTurn a [] ∧ (bus a).run = none) ∧
      ∀ r, (running 0).run = some r → ¬(r.lb ≤ 0 ∧ 0 < r.lb + r.n) ∧ ¬(r.rb ≤ 0 ∧ 0 < r.rb + r.n) := by
  have h := Params.two_le_sampleRamWords Config.kso_wf
  refine ⟨by omega, by omega, fun _ => ⟨rfl, rfl⟩, fun r hr => ?_⟩
  cases hr
  decide

theorem wit_RamRaceStops :
    1 < Config.kso.sampleRamWords ∧ (running 0).run = some ⟨1, 1, 1, 0⟩ ∧
      ((Run.mk 1 1 1 0).lb ≤ 1 ∧ 1 < (Run.mk 1 1 1 0).lb + (Run.mk 1 1 1 0).n) ∧
      ∀ a, State.HostTurn { running 0 with sched := [.bus a] } a [] :=
  ⟨Params.two_le_sampleRamWords Config.kso_wf, rfl, by decide, fun _ => rfl⟩

/-- Also for OnlyBusMisuseFaults. -/
theorem wit_BusErrorStops :
    let a : Access := ⟨.read, 16, 0x004#20, 0#32⟩
    let b : Access := ⟨.write, 32, 0x00E#20, 0#32⟩
    (bus a).HostTurn a [] ∧ a.width ≠ 32 ∧ (bus b).HostTurn b [] ∧ b.addr.toNat % 4 ≠ 0 ∧
      step (bus a) = .fault (.busError 0x004#20 16 .read) :=
  ⟨rfl, by decide, rfl, by decide, rfl⟩

/-- A command word and a RESET that write STATUS.ERR. -/
theorem wit_ErrWrittenOnlyByCommands :
    (∃ t, step (bus (cmdWrite 0x4#32)) = .next t ∧ t.err ≠ (bus (cmdWrite 0x4#32)).err) ∧
      ∃ t, step { State.reset with err := .busy, sched := [.hardReset] } = .next t ∧ t.err ≠ .busy :=
  ⟨⟨_, rfl, by decide⟩, _, rfl, by decide⟩

/-- DONE set by the completion and by a no-op; cleared by the host and by RESET. -/
theorem wit_DoneChangesOnlyAsListed :
    (∃ t, step (running 1) = .next t ∧ (running 1).done = false ∧ t.done = true) ∧
      (∃ t, step (bus (cmdWrite (encode .process))) = .next t ∧ t.done = true) ∧
      (∃ t, step { bus (wrAccess .status 4#32) with done := true } = .next t ∧ t.done = false) ∧
      ∃ t, step { State.reset with done := true, sched := [.hardReset] } = .next t ∧ t.done = false :=
  ⟨⟨_, rfl, rfl, rfl⟩, ⟨_, rfl, rfl⟩, ⟨_, rfl, rfl⟩, _, rfl, rfl⟩

/-- DONE cleared by the acceptance of a PROCESS of one frame. -/
theorem wit_DoneChangesOnlyAsListed_accepted :
    ∃ t, step { request 1 1 1 with done := true, sched := [.bus (cmdWrite (encode .process))] } = .next t ∧
      t.done = false := by
  refine ⟨_, rfl, ?_⟩
  have h := Params.two_le_sampleRamWords Config.kso_wf
  have ho : State.outOfRam Config.kso { request 1 1 1 with done := true } = false :=
    State.outOfRam_eq_false.2 ⟨h, h⟩
  show (if State.outOfRam Config.kso { request 1 1 1 with done := true } then _ else _ : State).done = _
  rw [ho]
  rfl

theorem wit_HardResetStep :
    ∃ t, State.sched { running 0 with sched := [.hardReset] } = [.hardReset] ∧
      step { running 0 with sched := [.hardReset] } = .next t := ⟨_, rfl, rfl⟩

/-- A core in the middle of a PROCESS and one at its completion, each with a next state. -/
theorem wit_StepKeepsControl :
    ((running 0).ControlOk Config.kso ∧ ∃ t, step (running 0) = .next t) ∧
      ((running 1).ControlOk Config.kso ∧ ∃ t, step (running 1) = .next t) := by
  have h := Params.two_le_sampleRamWords Config.kso_wf
  have hs := Params.maxSr_pos Config.kso_wf
  have hr (i : Nat) (hi : i ≤ 1) : (running i).ControlOk Config.kso := by
    refine ⟨⟨fun hp => Bool.noConfusion hp, fun _ => ⟨le_refl _, hs⟩⟩, ⟨fun r hrun => ?_, fun hrun => ?_⟩, ?_⟩
    · cases hrun
      exact ⟨⟨le_refl _, le_refl _, le_refl _, h, h, hi⟩, rfl, rfl⟩
    · exact Option.noConfusion rfl (heq_of_eq hrun)
    · show i < 2 ^ 31
      omega
  exact ⟨⟨hr 0 (by decide), _, step_core (.inl rfl)⟩, hr 1 (by decide), _, step_core (.inl rfl)⟩

/-- A core whose active and pending amounts are at the ends of their range, -0.0 among them. -/
theorem wit_StepKeepsAmountsClamped :
    let s : State := { running 0 with
      amounts := ⟨f0, f1, 0x80000000#32, f1⟩, pend := some ⟨f1, f0, f1, 0x80000000#32⟩ }
    s.AmountsClamped ∧ ∃ t, step s = .next t := by
  refine ⟨⟨by decide +kernel, fun m hm => ?_⟩, _, step_core (.inl rfl)⟩
  cases hm
  decide +kernel

/-- The hypotheses of StepKeepsLines, StepKeepsFeedback and StepKeepsRamForm on a running core. -/
theorem wit_StepKeepsLines :
    (running 0).dp.LinesOk Config.kso ∧ (running 0).dp.FeedbackOk ∧ (running 0).RamOk ∧
      ∃ t, step (running 0) = .next t := by
  have hl : DelayLine.reset0.Ok (physDoubler Config.kso) :=
    ⟨Nat.zero_le _, fun h => absurd h (by decide), fun _ => rfl, rfl, fun _ hc => by cases hc⟩
  have hr : DelayLine.reset0.Ok (physReverb Config.kso) :=
    ⟨Nat.zero_le _, fun h => absurd h (by decide), fun _ => rfl, rfl, fun _ hc => by cases hc⟩
  refine ⟨⟨?_, ?_⟩, ⟨by decide, by decide⟩, (by decide : Memory.wf (Memory.writeWord [] 1 f0) = true),
    _, step_core (.inl rfl)⟩
  · rintro l hm
    have : l = DelayLine.reset0 := by
      simpa [Datapath.doublerLines, running, State.reset, State.resetWith, Datapath.reset0,
        Stereo.both, Doubler.reset0] using hm
    exact this ▸ hl
  · rintro l hm
    have : l = DelayLine.reset0 := by
      simpa [Datapath.reverbLines, running, State.reset, State.resetWith, Datapath.reset0,
        Reverb.reset0, Stereo.both, Eight.replicate, Eight.toList, Four.replicate,
        Four.toList] using hm
    exact this ▸ hr

/-- A biquad configured at 1 Hz with cutoff and Q 1.0. -/
def configured (t : FilterType) : Biquad := ⟨t, f1, f1, true, coef Config.kso t f1 f1 f1, f1, f0, f0⟩

/-- A prepared running core whose biquads hold the coefficients of their parameters. -/
theorem wit_StepKeepsBiquadsCoherent :
    let s : State := { running 0 with
      dp := { (running 0).dp with
        lp := Stereo.both (configured .lp), hp := Stereo.both (configured .hp) } }
    s.ControlOk Config.kso ∧ s.BiquadsOk Config.kso ∧ ∃ t, step s = .next t := by
  refine ⟨wit_StepKeepsControl.1.1, ⟨⟨rfl, rfl, rfl, rfl⟩, ?_, ?_⟩, _, step_core (.inl rfl)⟩
  · rintro b hb
    have h : b = configured .lp ∨ b = configured .hp := by
      simpa [Datapath.biquads, Stereo.both, or_assoc] using hb
    rcases h with rfl | rfl <;> exact .inr ⟨by decide, by decide, by decide, rfl⟩
  · rintro - b hb
    have h : b = configured .lp ∨ b = configured .hp := by
      simpa [Datapath.biquads, Stereo.both, or_assoc] using hb
    have h1 : toF32 1 = f1 := by decide +kernel
    rcases h with rfl | rfl <;>
      exact ⟨h1.symm, by rw [show State.sr _ = 1 from rfl, h1]; rfl⟩

/-- A running core at its completion whose word 1 has been written with +0.0. -/
theorem wit_StepKeepsOutputsBounded :
    (running 1).ControlOk Config.kso ∧ (running 1).WrittenOk ∧
      ∃ t, step (running 1) = .next t ∧ t.run = none ∧ (running 1).CoreTurn [] := by
  have h : outOk ((running 1).ramRead 1) = true := by
    rw [show (running 1).ramRead 1 = f0 from State.ramRead_ramWrite_self State.reset 1 f0]
    decide
  refine ⟨wit_StepKeepsControl.2.1, fun r hr j hj => ?_, _, step_core (.inl rfl), rfl, .inl rfl⟩
  cases hr
  have : j = 0 := Nat.lt_one_iff.1 hj
  exact this ▸ ⟨h, h⟩

/-- The bounds of OUTCLAMP, and values that meet each clause. -/
theorem wit_ClampLandsInRange :
    fLe outLimitNeg outLimit = true ∧ isNaN nan32 = true ∧ fLt fMinus2 outLimitNeg = true ∧
      fLt outLimit f2 = true ∧ fLe outLimitNeg f0 = true ∧ fLe f0 outLimit = true := by decide

/-- A tie: 2^24 + 1 units lie midway between the numbers of magnitude 2^24 and 2^24 + 1. And the least
quotient that overflows, with the one before it. -/
theorem wit_RoundingIsNearestEven :
    0 < 1 ∧ roundMag (2 ^ 24 + 1) 1 = 2 ^ 24 ∧ 2 ^ 24 < infMag ∧ 2 ^ 24 + 1 < infMag ∧
      magUnits (2 ^ 24) = 2 ^ 24 ∧ magUnits (2 ^ 24 + 1) = 2 ^ 24 + 2 ∧
      roundMag ((2 ^ 25 - 1) * 2 ^ 252) 1 = infMag ∧
      roundMag ((2 ^ 25 - 1) * 2 ^ 252 - 1) 1 = infMag - 1 := by decide +kernel

/-- Patterns for each clause: a NaN, finite numbers (the least subnormal, the greatest number, both
zeros) and infinities of both signs. -/
theorem wit_OperationsRoundOnce :
    isNaN 0x7F800001#32 = true ∧ [0x00000001#32, 0x7F7FFFFF#32, f0, 0x80000000#32].all isFinite = true ∧
      [fInf, 0xFF800000#32].all isInf = true ∧ isZero 0x80000000#32 = true ∧ isZero f1 = false ∧
      (signBit fInf != signBit 0xFF800000#32) = true ∧ (signBit fInf != signBit fInf) = false := by
  decide +kernel

/-- A smoother of four steps at rest, for its target, a new value and NaN, then at the first and at the
last step of a ramp; and one of no steps. -/
theorem wit_SmootherRampLandsOnTarget :
    let s := Smoother.reset0.reset 8 fHalf
    s.cnt = 0 ∧ fEq 0x80000000#32 s.tgt = true ∧ fEq f1 s.tgt = false ∧ fEq nan32 s.tgt = false ∧
      s.steps ≠ 0 ∧ 0 + 1 < s.steps ∧ s.steps ≤ 3 + 1 ∧ (s.setTarget f1).cnt = 4 ∧
      ((s.setTarget f1).afterNext 3).cnt = 1 ∧ Smoother.reset0.steps = 0 ∧
      fEq f1 Smoother.reset0.tgt = false := by decide +kernel

/-- The eight-slot line L1, at the youngest and the oldest age that moves, and a line with no slots. -/
theorem wit_PushShiftsAges :
    (lineL1.Ok 8 ∧ 0 < lineL1.cap ∧ 1 < lineL1.cap ∧ 7 < lineL1.cap ∧ 8 ≤ lineL1.cap) ∧
      DelayLine.reset0.Ok 8 ∧ DelayLine.reset0.cap = 0 := by
  refine ⟨⟨⟨?_, ?_, ?_, ?_, ?_⟩, ?_, ?_, ?_, ?_⟩, ⟨?_, ?_, ?_, ?_, ?_⟩, ?_⟩ <;> decide +kernel

/-- The cleared line at its shortest and its longest delay. -/
theorem wit_DelayIsExact :
    let l (n : Nat) :=
      (DelayLine.reset0.prepare 8 8 f0).setDelayTime (fDiv (toF32 n) (toF32 8)) f0
    (∀ n ∈ [1, 8], (l n).Ok 8 ∧ (l n).cap ≤ 2 ^ 24 ∧ 1 ≤ n ∧ n ≤ (l n).cap ∧ (l n).dly.cnt = 0 ∧
      fMul (l n).dly.tgt (toF32 (l n).rate) = toF32 n) ∧
      ∀ n ∈ [1, 8], ∀ j, j < (l n).cap → (l n).slot j = f0 := by
  refine ⟨?_, fun _ _ _ _ => rfl⟩
  intro n hn
  have h : n = 1 ∨ n = 8 := by simpa using hn
  rcases h with rfl | rfl <;> refine ⟨⟨?_, ?_, ?_, ?_, ?_⟩, ?_, ?_, ?_, ?_, ?_⟩ <;> decide +kernel

/-- The least and the greatest capacity of each mode. -/
theorem wit_ReadStaysInsideLine :
    ∀ mode, needSlots mode ≤ needSlots mode ∧ needSlots mode ≤ 2 ^ 24 ∧ 2 ^ 24 ≤ 2 ^ 24 := by
  intro mode
  cases mode <;> decide

/-- One slot too few and just enough in each mode; and on L1 an offset with a fraction and one without. -/
theorem wit_ZeroFractionIsPassthrough :
    (∀ mode, needSlots mode - 1 < needSlots mode ∧ needSlots mode ≤ needSlots mode) ∧
      (let f (d : F32) := (offsetOf .cubic 8 8 (fDiv d (toF32 8))).2
       4 ≤ lineL1.cap ∧ fEq (f 0x40200000#32) f0 = false ∧ fEq (f (toF32 4)) f0 = true) := by
  refine ⟨fun mode => ?_, by decide +kernel⟩
  cases mode <;> decide

/-- Also for BiquadRecurrence. -/
theorem wit_DisabledBiquadPassesThrough :
    { biquadB1 with enabled := false }.enabled = false ∧ biquadB1.enabled = true := ⟨rfl, by decide +kernel⟩

/-- The least and the greatest rate; biquads at reset, and configured ones. -/
theorem wit_DeriveKeepsBiquadContract :
    (1 ≤ 1 ∧ 1 ≤ Config.kso.maxSr ∧ Config.kso.maxSr ≤ Config.kso.maxSr) ∧
      (∀ b ∈ State.reset.dp.biquads, b.Configured Config.kso) ∧
      (configured .hp).Configured Config.kso := by
  refine ⟨⟨le_refl _, Params.maxSr_pos Config.kso_wf, le_refl _⟩, fun b hb => ?_,
    .inr ⟨by decide, by decide, by decide, rfl⟩⟩
  have h : b = Biquad.reset0 .lp ∨ b = Biquad.reset0 .hp := by
    simpa [Datapath.biquads, State.reset, State.resetWith, Datapath.reset0, Stereo.both,
      or_assoc] using hb
  rcases h with rfl | rfl <;> exact .inl rfl

end Sys2Proof.Tests
end

/-! ### Magnitudes as a number line, and rounding on it (R12)

Every magnitude is `s * 2^23 + r` for a scale `s` and a significand `r` of at most 24 bits, and stands
for `r * 2^s` units. Rounding picks one of the two neighbours that bracket the quotient at its scale. -/

namespace Sys2Proof.Machine

/-- A scale and a significand go together: below the scale 1 the significand may be short (the
subnormals), above it has its leading bit. -/
def SignificandAt (s r : Nat) : Prop := s = 0 ∨ 2 ^ 23 ≤ r

/-- The significand may also be 2^24, which carries into the next exponent. -/
theorem magUnits_scaled {s r : Nat} (h : SignificandAt s r) (hr : r ≤ 2 ^ 24) :
    magUnits (s * 2 ^ 23 + r) = r * 2 ^ s := by
  have hcases : (s = 0 ∧ r < 2 ^ 23) ∨ (2 ^ 23 ≤ r ∧ r < 2 ^ 24) ∨ r = 2 ^ 24 := by
    unfold SignificandAt at h
    omega
  unfold magUnits
  dsimp only
  rcases hcases with ⟨rfl, hlt⟩ | ⟨hle, hlt⟩ | rfl
  · rw [if_pos (by omega)]
    simp
  · rw [if_neg (by omega), show (s * 2 ^ 23 + r) / 2 ^ 23 - 1 = s by omega,
      show 2 ^ 23 + (s * 2 ^ 23 + r) % 2 ^ 23 = r by omega]
  · rw [if_neg (by omega), show (s * 2 ^ 23 + 2 ^ 24) / 2 ^ 23 - 1 = s + 1 by omega,
      show 2 ^ 23 + (s * 2 ^ 23 + 2 ^ 24) % 2 ^ 23 = 2 ^ 23 by omega, pow_succ]
    ring

theorem exists_scaled (m : Nat) :
    ∃ s r, SignificandAt s r ∧ r < 2 ^ 24 ∧ m = s * 2 ^ 23 + r := by
  unfold SignificandAt
  exact ⟨m / 2 ^ 23 - 1, m - (m / 2 ^ 23 - 1) * 2 ^ 23, by omega, by omega, by omega⟩

/-- Patterns without a sign are in the order of the values they stand for. -/
theorem magUnits_strictMono : StrictMono magUnits := by
  refine strictMono_nat_of_lt_succ fun m => ?_
  obtain ⟨s, r, hs, hr, rfl⟩ := exists_scaled m
  have hs' : SignificandAt s (r + 1) := hs.imp_right fun h => by omega
  rw [magUnits_scaled hs hr.le, add_assoc, magUnits_scaled hs' hr]
  exact Nat.mul_lt_mul_of_pos_right (Nat.lt_succ_self r) (by positivity)

/-- Nearest-even rounding takes the floor or the number after it, whichever is nearer, and the even
one at a tie. -/
theorem nearestEven_cases (n d : Nat) :
    (nearestEven n d = n / d ∧ 2 * (n % d) ≤ d ∧ (2 * (n % d) = d → n / d % 2 = 0)) ∨
    (nearestEven n d = n / d + 1 ∧ d ≤ 2 * (n % d) ∧
      (2 * (n % d) = d → (n / d + 1) % 2 = 0)) := by
  unfold nearestEven
  dsimp only
  split_ifs <;> omega

/-- The distance of magnitude `j` from the quotient `num / den`, times `den`. -/
def roundErr (num den j : Nat) : Int := |(magUnits j : Int) * den - num|

/-- Where the quotient lies at or above the magnitude `a`, what is below `a` is further off. -/
theorem roundErr_lt_of_lt {num den a k : Nat} (hd : 0 < den) (ha : magUnits a * den ≤ num)
    (hk : k < a) : roundErr num den a < roundErr num den k := by
  have hlt : magUnits k * den < magUnits a * den :=
    Nat.mul_lt_mul_of_pos_right (magUnits_strictMono hk) hd
  unfold roundErr
  zify at ha hlt
  rw [abs_of_nonpos (by omega), abs_of_nonpos (by omega)]
  omega

/-- Where the quotient lies at or below the magnitude `b`, what is above `b` is further off. -/
theorem roundErr_lt_of_gt {num den b k : Nat} (hd : 0 < den) (hb : num ≤ magUnits b * den)
    (hk : b < k) : roundErr num den b < roundErr num den k := by
  have hlt : magUnits b * den < magUnits k * den :=
    Nat.mul_lt_mul_of_pos_right (magUnits_strictMono hk) hd
  unfold roundErr
  zify at hb hlt
  rw [abs_of_nonneg (by omega), abs_of_nonneg (by omega)]
  omega

/-- `m` is a nearest magnitude to the quotient, and the even one where another is equally near. -/
def NearestMag (num den m : Nat) : Prop :=
  ∀ k, roundErr num den m ≤ roundErr num den k ∧
    (roundErr num den m = roundErr num den k → k ≠ m → m % 2 = 0)

/-- Of two neighbours that bracket the quotient, the lower one is nearest if it is no further off than
the upper one, and even at a tie. -/
theorem nearestMag_lower {num den a : Nat} (hd : 0 < den) (ha : magUnits a * den ≤ num)
    (hb : num ≤ magUnits (a + 1) * den)
    (hle : roundErr num den a ≤ roundErr num den (a + 1))
    (htie : roundErr num den a = roundErr num den (a + 1) → a % 2 = 0) :
    NearestMag num den a := by
  intro k
  rcases lt_trichotomy k a with hk | rfl | hk
  · have := roundErr_lt_of_lt hd ha hk
    exact ⟨this.le, fun h => absurd h this.ne⟩
  · exact ⟨le_rfl, fun _ h => absurd rfl h⟩
  · rcases Nat.eq_or_lt_of_le hk with rfl | hk'
    · exact ⟨hle, fun h _ => htie h⟩
    · have := roundErr_lt_of_gt hd hb hk'
      exact ⟨by omega, fun h => by omega⟩

/-- And the upper one if the lower one is no nearer, with the same rule for a tie. -/
theorem nearestMag_upper {num den a : Nat} (hd : 0 < den) (ha : magUnits a * den ≤ num)
    (hb : num ≤ magUnits (a + 1) * den)
    (hle : roundErr num den (a + 1) ≤ roundErr num den a)
    (htie : roundErr num den (a + 1) = roundErr num den a → (a + 1) % 2 = 0) :
    NearestMag num den (a + 1) := by
  intro k
  rcases lt_trichotomy k (a + 1) with hk | rfl | hk
  · rcases Nat.eq_or_lt_of_le (Nat.le_of_lt_succ hk) with rfl | hk'
    · exact ⟨hle, fun h _ => htie h⟩
    · have := roundErr_lt_of_lt hd ha hk'
      exact ⟨by omega, fun h => by omega⟩
  · exact ⟨le_rfl, fun _ h => absurd rfl h⟩
  · have := roundErr_lt_of_gt hd hb hk
    exact ⟨this.le, fun h => absurd h this.ne⟩

/-- Rounding the significand at a scale that fits the quotient gives a nearest magnitude. -/
theorem nearestMag_scaled {num den s : Nat} (hd : 0 < den)
    (hs : SignificandAt s (num / (den * 2 ^ s))) (hlt : num / (den * 2 ^ s) < 2 ^ 24) :
    NearestMag num den (s * 2 ^ 23 + nearestEven num (den * 2 ^ s)) := by
  have hs' : SignificandAt s (num / (den * 2 ^ s) + 1) := hs.imp_right fun h => by omega
  have hlo := magUnits_scaled hs hlt.le
  have hhi := magUnits_scaled hs' hlt
  rw [← add_assoc] at hhi
  have hD : 0 < den * 2 ^ s := by positivity
  have hmod := Nat.mod_lt num hD
  have hdiv := Nat.div_add_mod' num (den * 2 ^ s)
  have hcases := nearestEven_cases num (den * 2 ^ s)
  generalize num / (den * 2 ^ s) = f at *
  generalize num % (den * 2 ^ s) = r at *
  have elo : f * 2 ^ s * den = f * (den * 2 ^ s) := by ring
  have ehi : (f + 1) * 2 ^ s * den = f * (den * 2 ^ s) + den * 2 ^ s := by ring
  rw [← hlo] at elo
  rw [← hhi] at ehi
  generalize den * 2 ^ s = D at *
  have hrlo : roundErr num den (s * 2 ^ 23 + f) = r := by
    unfold roundErr
    zify at elo hdiv
    rw [abs_of_nonpos (by omega)]
    omega
  have hrhi : roundErr num den (s * 2 ^ 23 + f + 1) = D - r := by
    unfold roundErr
    zify at ehi hdiv hmod
    rw [abs_of_nonneg (by omega)]
    omega
  rcases hcases with ⟨he, hle, htie⟩ | ⟨he, hle, htie⟩
  · rw [he]
    exact nearestMag_lower hd (by omega) (by omega) (by omega) (by omega)
  · rw [he, ← add_assoc]
    exact nearestMag_upper hd (by omega) (by omega) (by omega) (by omega)

/-- The scale `roundMag` takes leaves a significand of at most 24 bits, and of 24 above the scale 0. -/
theorem scale_fits (q : Nat) :
    q / 2 ^ (q.log2 - 23) < 2 ^ 24 ∧ SignificandAt (q.log2 - 23) (q / 2 ^ (q.log2 - 23)) := by
  rcases Nat.eq_zero_or_pos q with rfl | hq
  · exact ⟨by decide, .inl rfl⟩
  obtain ⟨hlo, hhi⟩ := (Nat.log2_eq_iff (n := q) (k := q.log2) (by omega)).1 rfl
  constructor
  · rw [Nat.div_lt_iff_lt_mul (by positivity), ← pow_add]
    exact hhi.trans_le (Nat.pow_le_pow_right (by decide) (by omega))
  · rcases Nat.eq_zero_or_pos (q.log2 - 23) with h0 | hpos
    · exact .inl h0
    · refine .inr ((Nat.le_div_iff_mul_le (by positivity)).2 ?_)
      rwa [← pow_add, show 23 + (q.log2 - 23) = q.log2 by omega]

/-- The significand rounds up to the next one at most. -/
theorem nearestEven_le {n d b : Nat} (h : n / d < b) : nearestEven n d ≤ b := by
  have := nearestEven_cases n d
  omega

/-- Below the midpoint of `b` and `b + 1`, rounding stays at or below `b`. -/
theorem nearestEven_le_of_lt_midpoint {n d b : Nat} (hd : 0 < d) (h : 2 * n < (2 * b + 1) * d) :
    nearestEven n d ≤ b := by
  have hf : n / d ≤ b := by
    rw [← Nat.lt_succ_iff, Nat.div_lt_iff_lt_mul hd]
    nlinarith
  rcases Nat.eq_or_lt_of_le hf with rfl | hlt
  · have hcases := nearestEven_cases n d
    have hdiv := Nat.div_add_mod' n d
    have : (2 * (n / d) + 1) * d = 2 * (n / d * d) + d := by ring
    omega
  · exact nearestEven_le hlt

/-- From the midpoint of an odd `b` and `b + 1` on, rounding reaches `b + 1`. -/
theorem le_nearestEven_of_midpoint_le {n d b : Nat} (hd : 0 < d) (hb : b % 2 = 1)
    (h : (2 * b + 1) * d ≤ 2 * n) : b + 1 ≤ nearestEven n d := by
  have hf : b ≤ n / d := by
    rw [Nat.le_div_iff_mul_le hd]
    nlinarith
  rcases Nat.eq_or_lt_of_le hf with rfl | hlt
  · have hcases := nearestEven_cases n d
    have hdiv := Nat.div_add_mod' n d
    have : (2 * (n / d) + 1) * d = 2 * (n / d * d) + d := by ring
    omega
  · exact hlt.trans_le (nearestEven_ge n d)

/-- The pattern `roundMag` forms before it caps it at infinity. -/
def uncappedMag (num den : Nat) : Nat :=
  let s := (num / den).log2 - 23
  s * 2 ^ 23 + nearestEven num (den * 2 ^ s)

theorem roundMag_eq (num den : Nat) : roundMag num den = min (uncappedMag num den) infMag := rfl

theorem uncappedMag_nearest {num den : Nat} (hd : 0 < den) :
    NearestMag num den (uncappedMag num den) := by
  obtain ⟨hlt, hs⟩ := scale_fits (num / den)
  rw [Nat.div_div_eq_div_mul] at hlt hs
  exact nearestMag_scaled hd hs hlt

theorem log2_lt_of_lt_two_pow {q k : Nat} (hk : 0 < k) (h : q < 2 ^ k) : q.log2 < k := by
  rw [Nat.log2_eq_log_two]
  exact Nat.log_lt_of_lt_pow' hk.ne' h

theorem le_log2_of_two_pow_le {q k : Nat} (h : 2 ^ k ≤ q) : k ≤ q.log2 := by
  rw [Nat.log2_eq_log_two]
  exact Nat.le_log_of_pow_le (by decide) h

/-- Below the midpoint of the greatest finite number and 2^128 the pattern is finite: it is at most
`253 * 2^23 + (2^24 - 1)`. -/
theorem uncappedMag_lt {num den : Nat} (hd : 0 < den) (h : num < (2 ^ 25 - 1) * 2 ^ 252 * den) :
    uncappedMag num den < infMag := by
  unfold uncappedMag infMag
  dsimp only
  obtain ⟨hlt, -⟩ := scale_fits (num / den)
  rw [Nat.div_div_eq_div_mul] at hlt
  have hle := nearestEven_le hlt
  have hlog : (num / den).log2 < 25 + 252 := by
    refine log2_lt_of_lt_two_pow (by decide) ?_
    rw [Nat.div_lt_iff_lt_mul hd, pow_add]
    exact h.trans_le (Nat.mul_le_mul_right den (Nat.mul_le_mul_right _ (by decide)))
  have hs : (num / den).log2 - 23 ≤ 253 := by omega
  rcases Nat.eq_or_lt_of_le hs with h253 | hlt253
  · rw [h253]
    have := nearestEven_le_of_lt_midpoint (n := num) (d := den * 2 ^ 253) (b := 2 ^ 24 - 1)
      (by positivity) (by
        calc 2 * num < 2 * ((2 ^ 25 - 1) * 2 ^ 252 * den) := by omega
          _ = (2 * (2 ^ 24 - 1) + 1) * (den * 2 ^ 253) := by ring)
    omega
  · omega

/-- From that midpoint on the pattern is that of infinity or above it. -/
theorem le_uncappedMag {num den : Nat} (hd : 0 < den) (h : (2 ^ 25 - 1) * 2 ^ 252 * den ≤ num) :
    infMag ≤ uncappedMag num den := by
  unfold uncappedMag infMag
  dsimp only
  obtain ⟨-, hfit⟩ := scale_fits (num / den)
  rw [Nat.div_div_eq_div_mul] at hfit
  have hlog : 24 + 252 ≤ (num / den).log2 := by
    refine le_log2_of_two_pow_le ?_
    rw [Nat.le_div_iff_mul_le hd, pow_add]
    exact le_trans (Nat.mul_le_mul_right den (Nat.mul_le_mul_right _ (by decide))) h
  have hs : 253 ≤ (num / den).log2 - 23 := by omega
  rcases Nat.eq_or_lt_of_le hs with h253 | hgt
  · rw [← h253]
    have := le_nearestEven_of_midpoint_le (n := num) (d := den * 2 ^ 253) (b := 2 ^ 24 - 1)
      (by positivity) (by decide) (by
        calc (2 * (2 ^ 24 - 1) + 1) * (den * 2 ^ 253) = 2 * ((2 ^ 25 - 1) * 2 ^ 252 * den) := by ring
          _ ≤ 2 * num := by omega)
    omega
  · have hr := hfit.resolve_left (by omega)
    have := nearestEven_ge num (den * 2 ^ ((num / den).log2 - 23))
    omega

/-- `roundMag` rounds to nearest, ties to even, and overflows at the midpoint above the greatest finite
number (R12). -/
theorem roundMag_rounds {num den : Nat} (hd : 0 < den) : Rounds num den (roundMag num den) := by
  unfold Rounds
  rw [roundMag_eq]
  split_ifs with h
  · exact Nat.min_eq_right (le_uncappedMag hd h)
  · have hlt := uncappedMag_lt hd (not_le.1 h)
    rw [Nat.min_eq_left hlt.le]
    exact ⟨hlt, fun k _ => uncappedMag_nearest hd k⟩

/-- Settles O48: the two neighbours of the quotient at its scale bracket it, and the nearer one is
taken. -/
theorem roundingIsNearestEven : Obligations.RoundingIsNearestEven :=
  fun _ _ hd => roundMag_rounds hd

/-! ### Clamping (R14, R189) -/

theorem clampF_of_nan {x lo hi : F32} (h : isNaN x = true) : clampF x lo hi = lo := by
  simp [clampF, h]

theorem clampF_of_lt {x lo hi : F32} (h : fLt x lo = true) : clampF x lo hi = lo := by
  simp [clampF, h]

theorem clampF_of_gt {x lo hi : F32} (hb : fLe lo hi = true) (h : fLt hi x = true) :
    clampF x lo hi = hi := by
  have hx := not_isNaN_of_fLt_right h
  have hlow : fLt x lo = false := by
    simp only [fLt, fLe, Bool.and_eq_true, decide_eq_true_eq] at h hb
    simp only [fLt, Bool.and_eq_false_iff, decide_eq_false_iff_not]
    exact .inr (by omega)
  simp [clampF, h, hx, hlow]

theorem inRange_iff {lo hi x : F32} :
    inRange lo hi x = true ↔ fLe lo x = true ∧ fLe x hi = true := by
  rw [inRange, Bool.and_eq_true]

theorem outClamp_inRange (x : F32) : inRange outLimitNeg outLimit (outClamp x) = true :=
  clampF_inRange (by decide)

/-- Settles O47, one clamp law per clause; OUTCLAMP is the clamp to [-1.2, 1.2]. -/
theorem clampLandsInRange : Obligations.ClampLandsInRange := by
  refine ⟨fun x lo hi h => ?_, fun x => ?_⟩
  · obtain ⟨hlo, hhi⟩ := inRange_iff.1 (clampF_inRange (x := x) h)
    exact ⟨hlo, hhi, clampF_of_nan, clampF_of_lt, clampF_of_gt h,
      fun h1 h2 => clampF_of_inRange (inRange_iff.2 ⟨h1, h2⟩)⟩
  · exact ⟨clampF_not_nan (by decide), inRange_iff.1 (outClamp_inRange x)⟩

end Sys2Proof.Machine

/-! ### What the operations of binary32 answer (R12, R14)

The fields of a pattern, then each operation in turn, case by case of its operands: NaN, finite, and
infinite on either side. -/

namespace Sys2Proof.Machine

/-! ### The fields of a pattern (R63) -/

theorem signBit_eq_getLsbD (x : F32) : signBit x = x.getLsbD 31 := by
  rw [signBit, ← BitVec.msb_eq_getLsbD_last, BitVec.msb_eq_decide]

theorem exponent_toNat (x : F32) : (x.extractLsb' 23 8).toNat = magBits x / 2 ^ 23 := by
  simp only [BitVec.extractLsb'_toNat, Nat.shiftRight_eq_div_pow, magBits]
  omega

theorem fraction_toNat (x : F32) : (x.extractLsb' 0 23).toNat = magBits x % 2 ^ 23 := by
  simp only [BitVec.extractLsb'_toNat, Nat.shiftRight_zero, magBits]
  omega

theorem isNaN_iff (x : F32) : isNaN x = true ↔ infMag < magBits x := decide_eq_true_iff

theorem isInf_iff (x : F32) : isInf x = true ↔ magBits x = infMag := beq_iff_eq

theorem isZero_iff (x : F32) : isZero x = true ↔ magBits x = 0 := beq_iff_eq

theorem isFinite_iff (x : F32) : isFinite x = true ↔ magBits x < infMag := decide_eq_true_iff

theorem isNaN_iff_fields (x : F32) :
    isNaN x = true ↔ (x.extractLsb' 23 8).toNat = 255 ∧ (x.extractLsb' 0 23).toNat ≠ 0 := by
  rw [isNaN_iff, exponent_toNat, fraction_toNat, infMag]
  have := magBits_lt x
  omega

theorem isInf_iff_fields (x : F32) :
    isInf x = true ↔ (x.extractLsb' 23 8).toNat = 255 ∧ (x.extractLsb' 0 23).toNat = 0 := by
  rw [isInf_iff, exponent_toNat, fraction_toNat, infMag]
  omega

theorem isFinite_iff_fields (x : F32) :
    isFinite x = true ↔ (x.extractLsb' 23 8).toNat ≠ 255 := by
  rw [isFinite_iff, exponent_toNat, infMag]
  have := magBits_lt x
  omega

theorem isZero_iff_fields (x : F32) :
    isZero x = true ↔ (x.extractLsb' 23 8).toNat = 0 ∧ (x.extractLsb' 0 23).toNat = 0 := by
  rw [isZero_iff, exponent_toNat, fraction_toNat]
  omega

/-- A subnormal counts its fraction. -/
theorem units_subnormal {x : F32} (h : (x.extractLsb' 23 8).toNat = 0) :
    units x = (x.extractLsb' 0 23).toNat := by
  rw [exponent_toNat] at h
  rw [fraction_toNat, units, magUnits, if_pos h]
  omega

/-- A normal number has its leading bit. -/
theorem units_normal {x : F32} (h : 1 ≤ (x.extractLsb' 23 8).toNat) :
    units x = (2 ^ 23 + (x.extractLsb' 0 23).toNat) * 2 ^ ((x.extractLsb' 23 8).toNat - 1) := by
  rw [exponent_toNat] at h
  rw [exponent_toNat, fraction_toNat, units, magUnits, if_neg (by omega)]

theorem not_nan_of_inf {x : F32} (h : isInf x = true) : isNaN x = false := by
  rw [isInf_iff] at h
  simp [isNaN, h]

theorem not_nan_of_finite {x : F32} (h : isFinite x = true) : isNaN x = false := by
  rw [isFinite_iff] at h
  simp [isNaN, h.le]

theorem not_inf_of_finite {x : F32} (h : isFinite x = true) : isInf x = false := by
  rw [isFinite_iff] at h
  simp [isInf, h.ne]

/-- Only a zero stands for no units. -/
theorem units_pos_iff (x : F32) : 0 < units x ↔ isZero x = false := by
  have h0 : (0 < units x) ↔ 0 < magBits x := magUnits_strictMono.lt_iff_lt (a := 0)
  rw [h0, Nat.pos_iff_ne_zero, ne_eq, ← isZero_iff, Bool.not_eq_true]

/-! ### A sign put on a magnitude -/

@[simp] theorem isInf_withSign_infMag (neg : Bool) : isInf (withSign neg infMag) = true := by
  rw [isInf_iff, magBits_withSign (by decide)]

@[simp] theorem signBit_withSign_infMag (neg : Bool) : signBit (withSign neg infMag) = neg :=
  signBit_withSign (by decide) neg

@[simp] theorem isZero_withSign_zero (neg : Bool) : isZero (withSign neg 0) = true := by
  rw [isZero_iff, magBits_withSign (by decide)]

@[simp] theorem signBit_withSign_zero (neg : Bool) : signBit (withSign neg 0) = neg :=
  signBit_withSign (by decide) neg

@[simp] theorem isNaN_nan32 : isNaN nan32 = true := by decide

/-- A sign put on a rounded quotient: the magnitude is rounded once, and the sign stays. -/
theorem withSign_roundMag (neg : Bool) {num den : Nat} (hd : 0 < den) :
    Rounds num den (magBits (withSign neg (roundMag num den))) ∧
      signBit (withSign neg (roundMag num den)) = neg := by
  rw [magBits_withSign (roundMag_lt num den)]
  exact ⟨roundMag_rounds hd, signBit_withSign (roundMag_lt num den) neg⟩

theorem roundMag_zero (den : Nat) : roundMag 0 den = 0 := by
  simp [roundMag, nearestEven]

/-! ### Negation -/

@[simp] theorem magBits_fNeg (x : F32) : magBits (fNeg x) = magBits x :=
  magBits_withSign (magBits_lt x) _

@[simp] theorem signBit_fNeg (x : F32) : signBit (fNeg x) = !signBit x :=
  signBit_withSign (magBits_lt x) _

@[simp] theorem isNaN_fNeg (x : F32) : isNaN (fNeg x) = isNaN x := by simp [isNaN]

@[simp] theorem isInf_fNeg (x : F32) : isInf (fNeg x) = isInf x := by simp [isInf]

@[simp] theorem isFinite_fNeg (x : F32) : isFinite (fNeg x) = isFinite x := by simp [isFinite]

@[simp] theorem intValue_fNeg (x : F32) : intValue (fNeg x) = -intValue x := by
  cases hs : signBit x <;> simp [intValue, units, hs]

/-! ### Conversion -/

/-- toF32 is the integer rounded once. -/
theorem toF32_rounds (n : Nat) :
    Rounds (n * 2 ^ 149) 1 (magBits (toF32 n)) ∧ signBit (toF32 n) = false := by
  rw [toF32_eq]
  exact withSign_roundMag false Nat.one_pos

/-- floorI is the integer below or at the value. -/
theorem floorI_bounds (x : F32) :
    floorI x * 2 ^ 149 ≤ intValue x ∧ intValue x < (floorI x + 1) * 2 ^ 149 :=
  ⟨Int.ediv_mul_le _ (by decide), Int.lt_ediv_add_one_mul_self _ (by decide)⟩

/-! ### Comparison -/

theorem comparisons_of_nan {x y : F32} (h : isNaN x = true ∨ isNaN y = true) :
    fLt x y = false ∧ fLe x y = false ∧ fEq x y = false := by
  rcases h with h | h
  · simp [fLt, fLe, fEq, h]
  · simp [fLt, fLe, fEq, h]

/-- The patterns are in the order of their values: signs first, then magnitudes. -/
theorem orderKey_lt_iff (x y : F32) : orderKey x < orderKey y ↔ intValue x < intValue y := by
  have hxy : units x < units y ↔ magBits x < magBits y := magUnits_strictMono.lt_iff_lt
  have hyx : units y < units x ↔ magBits y < magBits x := magUnits_strictMono.lt_iff_lt
  have hx : 0 < units x ↔ 0 < magBits x := magUnits_strictMono.lt_iff_lt (a := 0)
  have hy : 0 < units y ↔ 0 < magBits y := magUnits_strictMono.lt_iff_lt (a := 0)
  unfold orderKey intValue
  split_ifs <;> omega

/-- On finite numbers the comparisons are those of the values. -/
theorem comparisons_of_finite {x y : F32} (hx : isFinite x = true) (hy : isFinite y = true) :
    (fLt x y = true ↔ intValue x < intValue y) ∧ (fLe x y = true ↔ intValue x ≤ intValue y) ∧
      (fEq x y = true ↔ intValue x = intValue y) := by
  have hxn := not_nan_of_finite hx
  have hyn := not_nan_of_finite hy
  have hxy := orderKey_lt_iff x y
  have hyx := orderKey_lt_iff y x
  rw [fLt_iff hxn hyn, fLe_iff hxn hyn, fEq_iff hxn hyn]
  omega

theorem orderKey_of_inf {x : F32} (h : isInf x = true) :
    orderKey x = if signBit x then -(infMag : Int) else infMag := by
  rw [orderKey, (isInf_iff x).1 h]

theorem orderKey_of_finite {x : F32} (h : isFinite x = true) :
    -(infMag : Int) < orderKey x ∧ orderKey x < infMag := by
  rw [isFinite_iff] at h
  unfold orderKey
  split_ifs <;> omega

/-- An infinity stands beyond every finite number, on the side of its sign. -/
theorem comparisons_inf_finite {x y : F32} (hx : isInf x = true) (hy : isFinite y = true) :
    fLt x y = signBit x ∧ fLe x y = signBit x ∧ fLt y x = !signBit x ∧ fLe y x = !signBit x ∧
      fEq x y = false ∧ fEq y x = false := by
  have hkx := orderKey_of_inf hx
  obtain ⟨hlo, hhi⟩ := orderKey_of_finite hy
  simp only [fLt, fLe, fEq, not_nan_of_inf hx, not_nan_of_finite hy, Bool.not_false, Bool.true_and]
  cases hs : signBit x
  · simp only [hs, Bool.false_eq_true, if_false, Bool.not_false, decide_eq_true_eq,
      decide_eq_false_iff_not] at hkx ⊢
    omega
  · simp only [hs, if_true, Bool.not_true, decide_eq_true_eq, decide_eq_false_iff_not] at hkx ⊢
    omega

/-- Infinities compare by their signs. -/
theorem comparisons_inf_inf {x y : F32} (hx : isInf x = true) (hy : isInf y = true) :
    fLt x y = (signBit x && !signBit y) ∧ fLe x y = (signBit x || !signBit y) ∧
      fEq x y = (signBit x == signBit y) := by
  simp only [fLt, fLe, fEq, not_nan_of_inf hx, not_nan_of_inf hy, Bool.not_false, Bool.true_and,
    orderKey_of_inf hx, orderKey_of_inf hy]
  cases signBit x <;> cases signBit y <;> decide

/-! ### Addition and subtraction -/

theorem fAdd_of_nan {x y : F32} (h : isNaN x = true ∨ isNaN y = true) : fAdd x y = nan32 := by
  rw [fAdd, if_pos (by simpa using h)]

/-- A finite sum is rounded once; an exact zero is negative only of two negative addends. -/
theorem fAdd_finite {x y : F32} (hx : isFinite x = true) (hy : isFinite y = true) :
    Rounds (intValue x + intValue y).natAbs 1 (magBits (fAdd x y)) ∧
      signBit (fAdd x y) = if intValue x + intValue y = 0 then signBit x && signBit y
        else decide (intValue x + intValue y < 0) := by
  simp only [fAdd, not_nan_of_finite hx, not_nan_of_finite hy, not_inf_of_finite hx,
    not_inf_of_finite hy, Bool.or_self, Bool.false_eq_true, if_false]
  split_ifs with h0
  · rw [h0, Int.natAbs_zero, ← roundMag_zero 1]
    exact withSign_roundMag _ Nat.one_pos
  · exact withSign_roundMag _ Nat.one_pos

theorem fAdd_inf_finite {x y : F32} (hx : isInf x = true) (hy : isFinite y = true) :
    fAdd x y = x := by
  simp [fAdd, not_nan_of_inf hx, not_nan_of_finite hy, hx, not_inf_of_finite hy]

theorem fAdd_finite_inf {x y : F32} (hx : isFinite x = true) (hy : isInf y = true) :
    fAdd x y = y := by
  simp [fAdd, not_nan_of_finite hx, not_nan_of_inf hy, not_inf_of_finite hx, hy]

/-- Infinities of unlike signs have no sum. -/
theorem fAdd_inf_inf {x y : F32} (hx : isInf x = true) (hy : isInf y = true) :
    fAdd x y = if signBit x != signBit y then nan32 else x := by
  simp [fAdd, not_nan_of_inf hx, not_nan_of_inf hy, hx, hy]

theorem fSub_of_nan {x y : F32} (h : isNaN x = true ∨ isNaN y = true) : fSub x y = nan32 :=
  fAdd_of_nan (by rwa [isNaN_fNeg])

theorem fSub_finite {x y : F32} (hx : isFinite x = true) (hy : isFinite y = true) :
    Rounds (intValue x - intValue y).natAbs 1 (magBits (fSub x y)) ∧
      signBit (fSub x y) = if intValue x - intValue y = 0 then signBit x && !signBit y
        else decide (intValue x - intValue y < 0) := by
  have h := fAdd_finite (y := fNeg y) hx (by rwa [isFinite_fNeg])
  rwa [intValue_fNeg, signBit_fNeg, ← sub_eq_add_neg] at h

theorem fSub_inf_finite {x y : F32} (hx : isInf x = true) (hy : isFinite y = true) :
    fSub x y = x := fAdd_inf_finite hx (by rwa [isFinite_fNeg])

theorem fSub_finite_inf {x y : F32} (hx : isFinite x = true) (hy : isInf y = true) :
    fSub x y = fNeg y := fAdd_finite_inf hx (by rwa [isInf_fNeg])

/-- Infinities of like signs have no difference. -/
theorem fSub_inf_inf {x y : F32} (hx : isInf x = true) (hy : isInf y = true) :
    fSub x y = if signBit x != signBit y then x else nan32 := by
  rw [fSub, fAdd_inf_inf hx (by rwa [isInf_fNeg]), signBit_fNeg]
  cases signBit x <;> cases signBit y <;> rfl

/-! ### Multiplication -/

theorem fMul_of_nan {x y : F32} (h : isNaN x = true ∨ isNaN y = true) : fMul x y = nan32 := by
  simp only [fMul]
  rw [if_pos (by simpa using h)]

theorem fMul_finite {x y : F32} (hx : isFinite x = true) (hy : isFinite y = true) :
    fMul x y = withSign (signBit x != signBit y) (roundMag (units x * units y) (2 ^ 149)) := by
  simp [fMul, not_nan_of_finite hx, not_nan_of_finite hy, not_inf_of_finite hx,
    not_inf_of_finite hy]

theorem fMul_inf_left {x y : F32} (hx : isInf x = true) (hy : isNaN y = false) :
    fMul x y = if isZero y then nan32 else withSign (signBit x != signBit y) infMag := by
  simp [fMul, not_nan_of_inf hx, hy, hx]

theorem fMul_finite_inf {x y : F32} (hx : isFinite x = true) (hy : isInf y = true) :
    fMul x y = if isZero x then nan32 else withSign (signBit x != signBit y) infMag := by
  simp [fMul, not_nan_of_finite hx, not_nan_of_inf hy, not_inf_of_finite hx, hy]

/-! ### Division -/

theorem fDiv_of_nan {x y : F32} (h : isNaN x = true ∨ isNaN y = true) : fDiv x y = nan32 := by
  simp only [fDiv]
  rw [if_pos (by simpa using h)]

/-- A finite quotient; by zero it is infinite, and 0 / 0 is NaN. -/
theorem fDiv_finite {x y : F32} (hx : isFinite x = true) (hy : isFinite y = true) :
    fDiv x y =
      if isZero y then (if isZero x then nan32 else withSign (signBit x != signBit y) infMag)
      else withSign (signBit x != signBit y) (roundMag (units x * 2 ^ 149) (units y)) := by
  simp [fDiv, not_nan_of_finite hx, not_nan_of_finite hy, not_inf_of_finite hx,
    not_inf_of_finite hy]

theorem fDiv_inf_finite {x y : F32} (hx : isInf x = true) (hy : isFinite y = true) :
    fDiv x y = withSign (signBit x != signBit y) infMag := by
  simp [fDiv, not_nan_of_inf hx, not_nan_of_finite hy, hx, not_inf_of_finite hy]

theorem fDiv_finite_inf {x y : F32} (hx : isFinite x = true) (hy : isInf y = true) :
    fDiv x y = withSign (signBit x != signBit y) 0 := by
  simp [fDiv, not_nan_of_finite hx, not_nan_of_inf hy, not_inf_of_finite hx, hy]

theorem fDiv_inf_inf {x y : F32} (hx : isInf x = true) (hy : isInf y = true) :
    fDiv x y = nan32 := by
  simp [fDiv, not_nan_of_inf hx, not_nan_of_inf hy, hx, hy]

/-! ### The four operations together, by the kinds of their operands -/

theorem isZero_of_inf {x : F32} (h : isInf x = true) : isZero x = false := by
  rw [isInf_iff] at h
  simp [isZero, h, infMag]

/-- Settles O60: each clause is the equation of an operation for its kind of operands. -/
theorem operationsRoundOnce : Obligations.OperationsRoundOnce := by
  intro x y e frac neg sum diff
  refine ⟨⟨signBit_eq_getLsbD x, isNaN_iff_fields x, isInf_iff_fields x, isFinite_iff_fields x,
      isZero_iff_fields x, units_subnormal, fun h _ => units_normal h, rfl⟩,
    toF32_rounds, fun _ => floorI_bounds x, comparisons_of_nan, comparisons_of_finite,
    comparisons_inf_finite, comparisons_inf_inf, ?nan, ?finite, ?infFinite, ?finiteInf, ?infInf⟩
  case nan =>
    intro h
    rw [fAdd_of_nan h, fSub_of_nan h, fMul_of_nan h, fDiv_of_nan h]
    exact ⟨isNaN_nan32, isNaN_nan32, isNaN_nan32, isNaN_nan32⟩
  case finite =>
    intro hx hy
    rw [fMul_finite hx hy, fDiv_finite hx hy]
    refine ⟨fAdd_finite hx hy, fSub_finite hx hy, withSign_roundMag neg (by decide),
      fun h0 => ?_, fun h0 h1 => ?_, fun h0 h1 => ?_⟩
    · rw [h0]
      exact withSign_roundMag neg ((units_pos_iff y).2 h0)
    · simp [h0, h1, neg]
    · simp [h0, h1]
  case infFinite =>
    intro hx hy
    rw [fMul_inf_left hx (not_nan_of_finite hy), fDiv_inf_finite hx hy]
    refine ⟨fAdd_inf_finite hx hy, fSub_inf_finite hx hy, fun h0 => ?_, fun h0 => ?_,
      isInf_withSign_infMag neg, signBit_withSign_infMag neg⟩
    · simp [h0]
    · simp [h0, neg]
  case finiteInf =>
    intro hx hy
    rw [fSub_finite_inf hx hy, fMul_finite_inf hx hy, fDiv_finite_inf hx hy, isInf_fNeg,
      signBit_fNeg]
    refine ⟨fAdd_finite_inf hx hy, ⟨hy, rfl⟩, fun h0 => ?_, fun h0 => ?_,
      isZero_withSign_zero neg, signBit_withSign_zero neg⟩
    · simp [h0]
    · simp [h0, neg]
  case infInf =>
    intro hx hy
    rw [fAdd_inf_inf hx hy, fSub_inf_inf hx hy, fMul_inf_left hx (not_nan_of_inf hy),
      isZero_of_inf hy, fDiv_inf_inf hx hy]
    refine ⟨fun hneg => ?_, fun hneg => ?_,
      ⟨isInf_withSign_infMag neg, signBit_withSign_infMag neg⟩, isNaN_nan32⟩
    · rw [show (signBit x != signBit y) = false from hneg]
      exact ⟨rfl, isNaN_nan32⟩
    · rw [show (signBit x != signBit y) = true from hneg]
      exact ⟨isNaN_nan32, rfl⟩

end Sys2Proof.Machine

/-! ### What DERIVE leaves in the doublers and the biquads (R130, R140 to R142, R183, R184) -/

namespace Sys2Proof

open Machine

theorem Params.bqFminHz_pos {p : Params} (hp : p.wf = true) : fLt f0 p.bqFminHz = true := by
  obtain ⟨-, -, -, -, hfmin, -, -, -⟩ := Params.wf_cases hp
  exact hfmin

theorem Params.bqFmaxFrac_bounds {p : Params} (hp : p.wf = true) :
    fLt f0 p.bqFmaxFrac = true ∧ fLt p.bqFmaxFrac fHalf = true := by
  obtain ⟨-, -, -, -, -, hfmax, -, -⟩ := Params.wf_cases hp
  rwa [Params.fmaxOk, Bool.and_eq_true] at hfmax

theorem Params.bqQ_bounds {p : Params} (hp : p.wf = true) :
    fLt f0 p.bqQmin = true ∧ fLe p.bqQmin p.bqQmax = true := by
  obtain ⟨-, -, -, -, -, -, hq, -⟩ := Params.wf_cases hp
  rwa [Params.qOk, Bool.and_eq_true] at hq

end Sys2Proof

namespace Sys2Proof.Machine

/-! ### Positive numbers -/

theorem orderKey_pos {x : F32} (h : fLt f0 x = true) : 0 < orderKey x :=
  (fLt_iff (by decide) (not_isNaN_of_fLt_right h)).1 h

theorem fLt_f0_iff (x : F32) :
    fLt f0 x = true ↔ isNaN x = false ∧ signBit x = false ∧ isZero x = false := by
  have hkey : orderKey f0 = 0 := by decide
  have hn : isNaN f0 = false := by decide
  simp only [fLt, hkey, hn, isZero]
  cases hs : signBit x <;> simp [orderKey, hs, Nat.pos_iff_ne_zero]

/-- What equals a positive number is that pattern. -/
theorem eq_of_fEq_pos {x y : F32} (h : fEq x y = true) (hy : fLt f0 y = true) : x = y := by
  obtain ⟨hxn, hyn⟩ := fEq_not_nan h
  have hkey := (fEq_iff hxn hyn).1 h
  have hpos := orderKey_pos hy
  exact eq_of_fEq h (by omega)

theorem fEq_comm (x y : F32) : fEq x y = fEq y x := by
  simp only [fEq, Bool.and_comm (!isNaN x), eq_comm (a := orderKey x)]

theorem fLt_of_fLt_of_fLe {x y z : F32} (hxy : fLt x y = true) (hyz : fLe y z = true) :
    fLt x z = true := by
  simp only [fLt, fLe, Bool.and_eq_true, decide_eq_true_eq] at hxy hyz ⊢
  exact ⟨⟨hxy.1.1, hyz.1.2⟩, by omega⟩

/-- A positive number below a finite one is finite. -/
theorem isFinite_of_pos_of_fLt {x y : F32} (hx : fLt f0 x = true) (hxy : fLt x y = true) :
    isFinite x = true := by
  obtain ⟨hxn, hsign, -⟩ := (fLt_f0_iff x).1 hx
  have hyn := not_isNaN_of_fLt_right hxy
  have hkey := (fLt_iff hxn hyn).1 hxy
  simp only [orderKey, hsign, Bool.false_eq_true, if_false] at hkey
  simp only [isNaN, decide_eq_false_iff_not] at hyn
  rw [isFinite_iff]
  split_ifs at hkey <;> omega

theorem toF32_pos {n : Nat} (h : 1 ≤ n) : fLt f0 (toF32 n) = true := by
  have hmag : 0 < magBits (toF32 n) := by
    rw [magBits_toF32]
    exact roundMag_pos Nat.one_pos (by omega)
  rw [fLt_f0_iff]
  exact ⟨isNaN_toF32 n, signBit_toF32 n, by simp [isZero, hmag.ne']⟩

/-- The product of a positive number with an integer from 1 to 2^24 is positive: it is at least that
number, and does not underflow. -/
theorem fMul_toF32_pos {x y : F32} {n : Nat} (hx : fLt f0 x = true) (hxy : fLt x y = true)
    (h1 : 1 ≤ n) (h2 : n ≤ 2 ^ 24) : fLt f0 (fMul x (toF32 n)) = true := by
  obtain ⟨-, hsign, hzero⟩ := (fLt_f0_iff x).1 hx
  have hunits := (units_pos_iff x).2 hzero
  rw [fMul_finite (isFinite_of_pos_of_fLt hx hxy) (isFinite_toF32 h2), hsign, signBit_toF32,
    units_toF32 h2, fLt_f0_iff, signBit_withSign (roundMag_lt _ _)]
  have hle : 2 ^ 149 ≤ units x * (n * 2 ^ 149) := by
    rw [← mul_assoc]
    exact Nat.le_mul_of_pos_left _ (Nat.mul_pos hunits h1)
  have hpos := roundMag_pos (by decide) hle
  refine ⟨isNaN_withSign_roundMag _ _ _, rfl, ?_⟩
  rw [isZero, magBits_withSign (roundMag_lt _ _)]
  exact beq_false_of_ne hpos.ne'

/-! ### The doublers (R112, R130) -/

/-- Bringing a line to a positive duration: the duration is then the pattern given, and the smoother is
reset where it is a new one (R112). -/
theorem DelayLine.withDuration_eq (l : DelayLine) {dur : F32} (h : fLt f0 dur = true) :
    l.withDuration dur =
      { l with
        lastSm := dur
        dly := if fEq dur l.lastSm then l.dly else l.dly.reset l.rate dur } := by
  unfold DelayLine.withDuration
  split_ifs with heq
  · rw [fEq_comm] at heq
    rw [← eq_of_fEq_pos heq h]
  · rfl

/-- setDelayTime of a number leaves a target equal to the clamped time (R101, R112). -/
theorem DelayLine.setDelayTime_tgt (l : DelayLine) (sec dur : F32) :
    fEq (l.setDelayTime sec dur).dly.tgt (clampF sec f0 l.maxSeconds) = true := by
  rw [fEq_comm]
  exact (l.withDuration dur).dly.setTarget_tgt_eq (clampF_not_nan (by decide))

/-- setParameters of a doubler as a whole record (R130). -/
theorem Doubler.setParameters_eq (d : Doubler) (freq fb wet : F32) (mode : Interp) (off : F32) :
    d.setParameters freq fb wet mode off =
      { line :=
          { d.line with
            lastSm := combSmoothS
            dly :=
              (if fEq combSmoothS d.line.lastSm then d.line.dly
                else d.line.dly.reset d.line.rate combSmoothS).setTarget
                (clampF (fDiv f1 (fAdd freq off)) f0 d.line.maxSeconds) }
        fb := clampF fb f0 f1
        wet := wet
        mode := mode } := by
  simp only [Doubler.setParameters, DelayLine.setDelayTime,
    d.line.withDuration_eq (dur := combSmoothS) (by decide)]

/-! ### The biquads (R140, R141, R184) -/

/-- configure as a whole record: the rate and the coefficients change unless cutoff, Q and rate are
those held (R140). -/
theorem Biquad.configure_eq (p : Params) (srF : F32) (b : Biquad) (c q : F32) (en : Bool) :
    b.configure p srF c q en =
      { b with
        cutoff := c
        q := q
        enabled := en
        coefRate := if fEq c b.cutoff && fEq q b.q && fEq srF b.coefRate then b.coefRate else srF
        coefs := if fEq c b.cutoff && fEq q b.q && fEq srF b.coefRate then b.coefs
          else coef p b.type c q srF } := by
  unfold Biquad.configure
  rw [← Bool.not_and, ← Bool.not_and]
  cases fEq c b.cutoff && fEq q b.q && fEq srF b.coefRate
  · rfl
  · rfl

/-- At a positive rate configure leaves current coefficients in a biquad that held its reset values or
configured ones: what it held equals what it is given only as the same positive patterns (R141). -/
theorem Biquad.configure_coherent {p : Params} {srF : F32} {b : Biquad} (hb : b.Configured p)
    (hr : fLt f0 srF = true) (c q : F32) (en : Bool) :
    (b.configure p srF c q en).Coherent p srF := by
  rw [Biquad.configure_eq]
  unfold Biquad.Coherent
  dsimp only
  cases hheld : fEq c b.cutoff && fEq q b.q && fEq srF b.coefRate
  · exact ⟨rfl, rfl⟩
  · simp only [Bool.and_eq_true] at hheld
    obtain ⟨⟨hc, hq⟩, hrate⟩ := hheld
    rcases hb with h0 | ⟨hcpos, hqpos, hrpos, hcoefs⟩
    · rw [h0, fEq_iff (not_isNaN_of_fLt_right hr) (by decide)] at hrate
      have hpos := orderKey_pos hr
      rw [hrate] at hpos
      exact absurd hpos (by decide)
    · rw [eq_of_fEq_pos hc hcpos, eq_of_fEq_pos hq hqpos, eq_of_fEq_pos hrate hrpos]
      exact ⟨rfl, hcoefs⟩

/-- The upper cutoff bound is positive at every legal rate. -/
theorem cutoffHi_pos {p : Params} (hp : p.wf = true) {sr : Nat} (h1 : 1 ≤ sr) (h2 : sr ≤ p.maxSr) :
    fLt f0 (cutoffHi p (toF32 sr)) = true := by
  obtain ⟨hpos, hhalf⟩ := Params.bqFmaxFrac_bounds hp
  exact fMul_toF32_pos hpos hhalf h1 (h2.trans (Params.maxSr_le hp))

/-- The lower cutoff bound is positive and not above the upper one (R184). -/
theorem cutoffLo_bounds {p : Params} (hp : p.wf = true) {srF : F32}
    (h : fLt f0 (cutoffHi p srF) = true) :
    fLt f0 (cutoffLo p srF) = true ∧ fLe (cutoffLo p srF) (cutoffHi p srF) = true := by
  unfold cutoffLo
  split_ifs with hlt
  · exact ⟨Params.bqFminHz_pos hp, fLe_of_fLt hlt⟩
  · have hn := not_isNaN_of_fLt_right h
    exact ⟨h, (fLe_iff hn hn).2 le_rfl⟩

/-- At a legal rate a clamped cutoff is positive and not above the upper bound (R184). -/
theorem cutoffClamp_bounds {p : Params} (hp : p.wf = true) {sr : Nat} (h1 : 1 ≤ sr)
    (h2 : sr ≤ p.maxSr) (v : F32) :
    fLt f0 (cutoffClamp p (toF32 sr) v) = true ∧
      fLe (cutoffClamp p (toF32 sr) v) (cutoffHi p (toF32 sr)) = true := by
  obtain ⟨hlo, hle⟩ := cutoffLo_bounds hp (cutoffHi_pos hp h1 h2)
  obtain ⟨hge, hhi⟩ := inRange_iff.1 (clampF_inRange (x := v) hle)
  exact ⟨fLt_of_fLt_of_fLe hlo hge, hhi⟩

theorem qClamp_inRange {p : Params} (hp : p.wf = true) (v : F32) :
    inRange p.bqQmin p.bqQmax (qClamp p v) = true :=
  clampF_inRange (Params.bqQ_bounds hp).2

/-- The biquad contract at the rate sr (R41, R141, R184). -/
def Biquad.InContract (p : Params) (sr : Nat) (b : Biquad) : Prop :=
  b.enabled = true ∧ fLt f0 b.cutoff = true ∧ fLe b.cutoff (cutoffHi p (toF32 sr)) = true ∧
    inRange p.bqQmin p.bqQmax b.q = true ∧ b.Coherent p (toF32 sr)

/-- configure with a clamped cutoff and Q, at a legal rate, ends inside the contract. -/
theorem Biquad.configure_inContract {p : Params} (hp : p.wf = true) {sr : Nat} (h1 : 1 ≤ sr)
    (h2 : sr ≤ p.maxSr) {b : Biquad} (hb : b.Configured p) (c q : F32) :
    (b.configure p (toF32 sr) (cutoffClamp p (toF32 sr) c) (qClamp p q) true).InContract p sr := by
  obtain ⟨hpos, hle⟩ := cutoffClamp_bounds hp h1 h2 c
  unfold Biquad.InContract
  rw [Biquad.configure_enabled, Biquad.configure_cutoff, Biquad.configure_q]
  exact ⟨rfl, hpos, hle, qClamp_inRange hp q, Biquad.configure_coherent hb (toF32_pos h1) _ _ _⟩

theorem Datapath.forall_biquads {d : Datapath} {P : Biquad → Prop} :
    (∀ b ∈ d.biquads, P b) ↔ P d.lp.l ∧ P d.lp.r ∧ P d.hp.l ∧ P d.hp.r := by
  simp [Datapath.biquads]

/-- DERIVE at a legal rate ends with all four biquads inside the contract. -/
theorem Datapath.derive_inContract {p : Params} (hp : p.wf = true) {sr : Nat} (h1 : 1 ≤ sr)
    (h2 : sr ≤ p.maxSr) (a : Amounts) {d : Datapath} (hd : ∀ b ∈ d.biquads, b.Configured p) :
    ∀ b ∈ (d.derive p sr a).biquads, b.InContract p sr := by
  obtain ⟨hll, hlr, hhl, hhr⟩ := Datapath.forall_biquads.1 hd
  exact Datapath.forall_biquads.2
    ⟨Biquad.configure_inContract hp h1 h2 hll _ _, Biquad.configure_inContract hp h1 h2 hlr _ _,
      Biquad.configure_inContract hp h1 h2 hhl _ _, Biquad.configure_inContract hp h1 h2 hhr _ _⟩

/-- Settles O56: `setParameters` and `configure` as whole records, and the contract. -/
theorem deriveKeepsBiquadContract : Obligations.DeriveKeepsBiquadContract := by
  intro d a sr amount v t doubler srF fHi fLo coefs biquad
  have hv : v = mapped Config.kso a := by
    funext m
    cases m <;> rfl
  have hcoefs : coefs = fun type c q => coef Config.kso type c q srF := by
    funext type c q
    cases type <;> rfl
  have hdoubler (old : Doubler) (off : F32) :
      doubler old (old.setParameters (v .dblFreq) (v .dblFeedback) (v .dblWet)
        Config.kso.dblInterp off) off :=
    ⟨old.setParameters_eq _ _ _ _ _, old.line.setDelayTime_tgt _ _⟩
  have hbiquad (old : Biquad) (c q : F32) :
      biquad old (old.configure Config.kso srF (cutoffClamp Config.kso srF c)
        (qClamp Config.kso q) true) c q := by
    clear_value coefs
    subst hcoefs
    refine ⟨Biquad.configure_eq _ _ _ _ _ _, fun h1 _ hb => ?_⟩
    have h := Biquad.configure_coherent hb (toF32_pos h1) (cutoffClamp Config.kso srF c)
      (qClamp Config.kso q) true
    rw [Biquad.Coherent, Biquad.configure_type, Biquad.configure_cutoff, Biquad.configure_q] at h
    exact h
  clear_value v
  subst hv
  exact ⟨⟨hdoubler _ _, hdoubler _ _⟩,
    ⟨hbiquad _ _ _, hbiquad _ _ _, hbiquad _ _ _, hbiquad _ _ _⟩,
    fun h1 h2 hd => Datapath.derive_inContract Config.kso_wf h1 h2 a hd⟩

end Sys2Proof.Machine

/-! ### What a command, a register write and a core step leave alone

Each as an equation of whole states that names the fields it can change, and the package that proves an
invariant from them. -/

namespace Sys2Proof.Machine

/-- PREPARE writes STATUS.ERR, the rate and the datapath at most (R196). -/
theorem State.prepare_frame (p : Params) (s : State) :
    s.prepare p =
      { s with
        err := (s.prepare p).err
        prepared := (s.prepare p).prepared
        sr := (s.prepare p).sr
        dp := (s.prepare p).dp } := by
  rcases State.prepare_cases p s with ⟨-, h⟩ | ⟨-, -, h⟩ | ⟨-, -, h⟩ | ⟨-, -, -, h⟩ <;> rw [h] <;> rfl

/-- SET_PARAMETERS writes STATUS.ERR, the amounts and the datapath at most (R197, R198). -/
theorem State.setParameters_frame (p : Params) (s : State) :
    s.setParameters p =
      { s with
        err := (s.setParameters p).err
        amounts := (s.setParameters p).amounts
        pend := (s.setParameters p).pend
        dp := (s.setParameters p).dp } := by
  rcases State.setParameters_cases p s with ⟨-, h⟩ | ⟨-, -, h⟩ | ⟨-, -, h⟩ <;> rw [h] <;> rfl

/-- PROCESS writes STATUS.ERR and STATUS.DONE, the running PROCESS and FRAME_INDEX at most (R199). -/
theorem State.process_frame (p : Params) (s : State) :
    s.process p =
      { s with
        err := (s.process p).err
        done := (s.process p).done
        run := (s.process p).run
        fidx := (s.process p).fidx } := by
  rcases State.process_cases p s with ⟨-, h⟩ | ⟨-, -, h⟩ | ⟨-, -, -, h⟩ | ⟨-, -, -, -, h⟩ |
    ⟨-, -, -, -, h⟩ <;> rw [h] <;> rfl

/-- A register write changes host-written registers and flags at most (R23, R24, R26 to R29, R66). -/
theorem State.writeReg_frame (s : State) (v : Word) (r : Reg) :
    s.writeReg v r =
      { s with
        irqEn := (s.writeReg v r).irqEn
        done := (s.writeReg v r).done
        sampleRate := (s.writeReg v r).sampleRate
        macroDoubler := (s.writeReg v r).macroDoubler
        macroFilter := (s.writeReg v r).macroFilter
        macroReverb := (s.writeReg v r).macroReverb
        macroMaster := (s.writeReg v r).macroMaster
        numSamples := (s.writeReg v r).numSamples
        leftBase := (s.writeReg v r).leftBase
        rightBase := (s.writeReg v r).rightBase } := by
  cases r <;> rfl

/-- The completion clears the running PROCESS, sets DONE and applies the pending set (R200). -/
theorem State.complete_eq (p : Params) (s : State) :
    s.complete p =
      { s with
        amounts := s.pend.getD s.amounts
        pend := none
        dp := (s.applyPending p).dp
        run := none
        done := true } := by
  unfold State.complete
  rw [State.applyPending_eq]

/-- What all four commands keep, the meaning of any instruction keeps. -/
theorem exec_keeps {P : State → Prop}
    (hnop : ∀ s, P s → P s.nop)
    (hprepare : ∀ s, P s → P (s.prepare Config.kso))
    (hset : ∀ s, P s → P (s.setParameters Config.kso))
    (hprocess : ∀ s, P s → P (s.process Config.kso))
    (i : Instr) (s t : State) (hs : P s) (h : exec i s = .next t) : P t := by
  cases i with
  | nop =>
    rw [exec_nop, Host.Outcome.next.injEq] at h
    exact h ▸ hnop s hs
  | prepare =>
    rw [exec_prepare, Host.Outcome.next.injEq] at h
    exact h ▸ hprepare s hs
  | setParameters =>
    rw [exec_setParameters, Host.Outcome.next.injEq] at h
    exact h ▸ hset s hs
  | process =>
    rw [exec_process, Host.Outcome.next.injEq] at h
    exact h ▸ hprocess s hs

end Sys2Proof.Machine

/-! ### The invariant of the control state (R31, R34, R36, R37, R198) -/

namespace Sys2Proof.Machine

/-- With nothing running and nothing pending, only the rate and the frame counter are left to check. -/
theorem State.RunOk.of_idle {p : Params} {s : State} (hr : s.run = none) (hp : s.pend = none) :
    s.RunOk p :=
  ⟨fun _ h => Option.noConfusion rfl (heq_of_eq (hr.symm.trans h)), fun _ => hp⟩

theorem State.ControlOk.hardReset (p : Params) (s : State) : (s.hardReset p).ControlOk p :=
  ⟨⟨fun _ => rfl, fun h => Bool.noConfusion h⟩, .of_idle rfl rfl, Nat.two_pow_pos 31⟩

/-- A frame step moves the frame index and FRAME_INDEX together, up to the frame count at most; the
sample RAM bounds the count (R8, R36). -/
theorem State.ControlOk.frame {p : Params} (hp : p.wf = true) {s : State} (h : s.ControlOk p) {r : Run}
    (hr : s.run = some r) (hi : r.i < r.n) : (s.frame p r).ControlOk p := by
  obtain ⟨hrate, ⟨hrun, -⟩, -⟩ := h
  obtain ⟨⟨hn, hlb, hrb, hl, hright, -⟩, -, hprep⟩ := hrun r hr
  have hram := Params.sampleRamWords_le hp
  rw [State.frame_eq]
  refine ⟨hrate, ⟨fun r' hr' => ?_, fun hnone => nomatch hnone⟩, (by omega : r.i + 1 < 2 ^ 31)⟩
  cases hr'
  exact ⟨⟨hn, hlb, hrb, hl, hright, hi⟩, rfl, hprep⟩

theorem State.ControlOk.complete {p : Params} {s : State} (h : s.ControlOk p) :
    (s.complete p).ControlOk p := by
  obtain ⟨hrate, -, hfidx⟩ := h
  rw [State.complete_eq]
  exact ⟨hrate, .of_idle rfl rfl, hfidx⟩

theorem State.ControlOk.coreStep {p : Params} (hp : p.wf = true) {s : State} (h : s.ControlOk p) :
    (s.coreStep p).ControlOk p := by
  rcases State.coreStep_cases p s with ⟨-, hc⟩ | ⟨r, hr, hi, hc⟩ | ⟨r, -, -, hc⟩ | ⟨r, -, -, hc⟩ <;>
    rw [hc]
  · exact h
  · exact h.frame hp hr hi
  · exact h.complete
  · exact h

/-- PREPARE changes the rate on an idle core only, where nothing is pending either (R196). -/
theorem State.ControlOk.prepare {p : Params} {s : State} (h : s.ControlOk p) :
    (s.prepare p).ControlOk p := by
  have ⟨_, ⟨_, hidle⟩, hfidx⟩ := h
  rcases State.prepare_cases p s with ⟨-, hc⟩ | ⟨-, -, hc⟩ | ⟨hr, -, hc⟩ | ⟨hr, h1, h2, hc⟩ <;> rw [hc]
  · exact h
  · exact h
  · exact ⟨⟨fun _ => rfl, fun hprep => Bool.noConfusion hprep⟩, .of_idle hr (hidle hr), hfidx⟩
  · exact ⟨⟨fun hprep => Bool.noConfusion hprep, fun _ => ⟨h1, h2⟩⟩, .of_idle hr (hidle hr), hfidx⟩

/-- SET_PARAMETERS queues a set only behind a running PROCESS (R198). -/
theorem State.ControlOk.setParameters {p : Params} {s : State} (h : s.ControlOk p) :
    (s.setParameters p).ControlOk p := by
  have ⟨hrate, ⟨hrun, _⟩, hfidx⟩ := h
  rcases State.setParameters_cases p s with ⟨hr, hc⟩ | ⟨-, -, hc⟩ | ⟨-, -, hc⟩ <;> rw [hc]
  · exact ⟨hrate, ⟨hrun, fun hnone => absurd hnone hr⟩, hfidx⟩
  · exact h
  · exact h

/-- An accepted PROCESS latches operands that meet R36, on a prepared core (R199). -/
theorem State.ControlOk.process {p : Params} {s : State} (h : s.ControlOk p) :
    (s.process p).ControlOk p := by
  have ⟨hrate, _, _⟩ := h
  rcases State.process_cases p s with ⟨-, hc⟩ | ⟨-, -, hc⟩ | ⟨-, -, -, hc⟩ | ⟨-, -, -, -, hc⟩ |
    ⟨-, hn, hprep, ho, hc⟩ <;> rw [hc]
  · exact h
  · exact h
  · exact h
  · exact h
  · obtain ⟨hn1, hlb, hrb, hl, hr⟩ := State.startProcess_run_ok hn ho
    refine ⟨hrate, ⟨fun r hrun => ?_, fun hnone => nomatch hnone⟩, Nat.two_pow_pos 31⟩
    cases hrun
    exact ⟨⟨hn1, hlb, hrb, hl, hr, Nat.zero_le _⟩, rfl, hprep⟩

/-- Settles O40, from one lemma for each thing a step can do. -/
theorem stepKeepsControl : Obligations.StepKeepsControl := by
  intro s t hs h
  refine step_keeps (State.ControlOk Config.kso) ?sched ?bus ?core ?exec ?illegal ?reg ?ram ?reset hs h
  case sched => exact fun _ _ hs => hs
  case bus => exact fun _ _ hs => hs
  case core => exact fun _ hs => hs.coreStep Config.kso_wf
  case exec =>
    exact exec_keeps (fun _ hs => hs) (fun _ hs => hs.prepare) (fun _ hs => hs.setParameters)
      fun _ hs => hs.process
  case illegal => exact fun _ hs => hs
  case reg =>
    intro s v r _ hs
    rw [State.writeReg_frame]
    exact hs
  case ram => exact fun _ _ _ _ hs => hs
  case reset => exact fun s _ => State.ControlOk.hardReset _ s

end Sys2Proof.Machine

/-! ### The datapath as a whole: clear, derive, snap and frame, unit by unit -/

namespace Sys2Proof.Machine

/-- The datapath parts of DERIVE, PREPARE and FRAME keep a property of the datapath that holds after
RESET: then every step keeps it. -/
theorem step_keeps_datapath (Q : Datapath → Prop)
    (hreset : Q (Datapath.reset0 Config.kso))
    (hderive : ∀ d sr a, Q d → Q (d.derive Config.kso sr a))
    (hprepare : ∀ d sr a, sr ≤ Config.kso.maxSr → Q d → Q (d.prepare Config.kso sr a))
    (hframe : ∀ d xL xR, Q d → Q (d.frame Config.kso xL xR).2)
    {s t : State} (hs : Q s.dp) (h : step s = .next t) : Q t.dp := by
  have hpend (s : State) (hs : Q s.dp) : Q (s.applyPending Config.kso).dp := by
    rcases hm : s.pend with _ | m
    · rw [State.applyPending_none hm]
      exact hs
    · rw [State.applyPending_some hm]
      exact hderive _ _ _ hs
  refine step_keeps (fun s => Q s.dp) ?sched ?bus ?core ?exec ?illegal ?reg ?ram ?reset hs h
  case sched => exact fun _ _ hs => hs
  case bus => exact fun _ _ hs => hs
  case core =>
    intro s hs
    rcases State.coreStep_cases Config.kso s with ⟨-, hc⟩ | ⟨r, -, -, hc⟩ | ⟨r, -, -, hc⟩ |
      ⟨r, -, -, hc⟩ <;>
      rw [hc]
    · exact hs
    · rw [State.frame_eq]
      exact hframe _ _ _ (hpend s hs)
    · rw [State.complete_eq]
      exact hpend s hs
    · exact hs
  case exec =>
    refine exec_keeps (fun _ hs => hs) (fun s hs => ?_) (fun s hs => ?_) fun s hs => ?_
    · rcases State.prepare_cases Config.kso s with ⟨-, hc⟩ | ⟨-, -, hc⟩ | ⟨-, -, hc⟩ |
        ⟨-, -, h2, hc⟩ <;>
        rw [hc]
      · exact hs
      · exact hs
      · exact hs
      · exact hprepare _ _ _ h2 hs
    · rcases State.setParameters_cases Config.kso s with ⟨-, hc⟩ | ⟨-, -, hc⟩ | ⟨-, -, hc⟩ <;> rw [hc]
      · exact hs
      · exact hderive _ _ _ hs
      · exact hs
    · rw [State.process_frame]
      exact hs
  case illegal => exact fun _ hs => hs
  case reg =>
    intro s v r _ hs
    rw [State.writeReg_frame]
    exact hs
  case ram => exact fun _ _ _ _ hs => hs
  case reset => exact fun _ _ => hreset

/-! ### The biquads over a step (R41, R140 to R144, R184, R196) -/

/-- A frame changes z1 and z2 of a biquad at most (R143, R188). -/
theorem Datapath.frame_forall_biquads {P : Biquad → Prop} (hz : ∀ b z1 z2, P b → P { b with z1, z2 })
    {p : Params} {d : Datapath} (hd : ∀ b ∈ d.biquads, P b) (xL xR : F32) :
    ∀ b ∈ (d.frame p xL xR).2.biquads, P b := by
  have hprocess (b : Biquad) (hb : P b) (x : F32) : P (b.process x).2 := by
    rw [Biquad.process_keeps]
    exact hz b _ _ hb
  obtain ⟨hll, hlr, hhl, hhr⟩ := Datapath.forall_biquads.1 hd
  exact Datapath.forall_biquads.2
    ⟨hprocess _ hll _, hprocess _ hlr _, hprocess _ hhl _, hprocess _ hhr _⟩

/-- The clearing steps of PREPARE change z1 and z2 of a biquad at most (R144, R196). -/
theorem Datapath.clear_forall_biquads {P : Biquad → Prop} (hz : ∀ b z1 z2, P b → P { b with z1, z2 })
    {p : Params} {sr : Nat} {d : Datapath} (hd : ∀ b ∈ d.biquads, P b) :
    ∀ b ∈ (d.clear p sr).biquads, P b := by
  obtain ⟨hll, hlr, hhl, hhr⟩ := Datapath.forall_biquads.1 hd
  exact Datapath.forall_biquads.2 ⟨hz _ _ _ hll, hz _ _ _ hlr, hz _ _ _ hhl, hz _ _ _ hhr⟩

theorem Datapath.TypesOk.derive {p : Params} {sr : Nat} {a : Amounts} {d : Datapath} (h : d.TypesOk) :
    (d.derive p sr a).TypesOk := by
  obtain ⟨hll, hlr, hhl, hhr⟩ := h
  exact ⟨(Biquad.configure_type ..).trans hll, (Biquad.configure_type ..).trans hlr,
    (Biquad.configure_type ..).trans hhl, (Biquad.configure_type ..).trans hhr⟩

theorem Datapath.TypesOk.frame {p : Params} {xL xR : F32} {d : Datapath} (h : d.TypesOk) :
    (d.frame p xL xR).2.TypesOk := by
  have hprocess (b : Biquad) (x : F32) : (b.process x).2.type = b.type := by
    rw [Biquad.process_keeps]
  obtain ⟨hll, hlr, hhl, hhr⟩ := h
  exact ⟨(hprocess _ _).trans hll, (hprocess _ _).trans hlr, (hprocess _ _).trans hhl,
    (hprocess _ _).trans hhr⟩

theorem step_keeps_types {s t : State} (hs : s.dp.TypesOk) (h : step s = .next t) : t.dp.TypesOk :=
  step_keeps_datapath Datapath.TypesOk ⟨rfl, rfl, rfl, rfl⟩ (fun _ _ _ hd => hd.derive)
    (fun d sr _ _ hd => Datapath.TypesOk.derive (d := d.clear _ sr) hd) (fun _ _ _ hd => hd.frame) hs h

/-- The biquads of a core at the rate sr, with prepared saying whether that rate is active: the part of
the invariant of R41 and R141 that speaks of parameters and coefficients. -/
def Datapath.CoefsOk (p : Params) (prepared : Bool) (sr : Nat) (d : Datapath) : Prop :=
  (∀ b ∈ d.biquads, b.Configured p) ∧
    (prepared = true → ∀ b ∈ d.biquads, b.Coherent p (toF32 sr))

/-- A biquad inside its contract holds positive parameters and their coefficients (R41, R184). -/
theorem Biquad.InContract.configured {p : Params} (hp : p.wf = true) {sr : Nat} (h1 : 1 ≤ sr)
    {b : Biquad} (h : b.InContract p sr) : b.Configured p := by
  obtain ⟨-, hcutoff, -, hq, hrate, hcoefs⟩ := h
  have hqpos := fLt_of_fLt_of_fLe (Params.bqQ_bounds hp).1 (inRange_iff.1 hq).1
  refine .inr ⟨hcutoff, hqpos, ?_, ?_⟩ <;> rw [hrate]
  · exact toF32_pos h1
  · exact hcoefs

/-- DERIVE at a legal rate leaves coefficients of the current parameters at that rate (R141, R182). -/
theorem Datapath.CoefsOk.derive {p : Params} (hp : p.wf = true) {sr : Nat} (h1 : 1 ≤ sr)
    (h2 : sr ≤ p.maxSr) {prepared : Bool} {a : Amounts} {d : Datapath}
    (h : ∀ b ∈ d.biquads, b.Configured p) : (d.derive p sr a).CoefsOk p prepared sr := by
  have hcontract := Datapath.derive_inContract hp h1 h2 a h
  refine ⟨fun b hb => (hcontract b hb).configured hp h1, fun _ b hb => ?_⟩
  obtain ⟨-, -, -, -, hcoh⟩ := hcontract b hb
  exact hcoh

theorem Datapath.CoefsOk.frame {p : Params} {prepared : Bool} {sr : Nat} {xL xR : F32} {d : Datapath}
    (h : d.CoefsOk p prepared sr) : (d.frame p xL xR).2.CoefsOk p prepared sr :=
  ⟨Datapath.frame_forall_biquads (P := (·.Configured p)) (fun _ _ _ hb => hb) h.1 xL xR,
    fun hprep => Datapath.frame_forall_biquads (P := (·.Coherent p (toF32 sr))) (fun _ _ _ hb => hb)
      (h.2 hprep) xL xR⟩

theorem Datapath.CoefsOk.prepare {p : Params} (hp : p.wf = true) {sr : Nat} (h1 : 1 ≤ sr)
    (h2 : sr ≤ p.maxSr) {a : Amounts} {d : Datapath} (h : ∀ b ∈ d.biquads, b.Configured p) :
    (d.prepare p sr a).CoefsOk p true sr :=
  Datapath.CoefsOk.derive hp h1 h2 (d := d.clear p sr)
    (Datapath.clear_forall_biquads (P := (·.Configured p)) (fun _ _ _ hb => hb) h)

/-- `CoefsOk` of the state's datapath at the active rate. -/
def State.CoefsOk (p : Params) (s : State) : Prop := s.dp.CoefsOk p s.prepared s.sr

theorem State.biquadsOk_iff {p : Params} {s : State} : s.BiquadsOk p ↔ s.dp.TypesOk ∧ s.CoefsOk p :=
  Iff.rfl

theorem State.CoefsOk.reset (p : Params) (epoch : Nat) (sched : List Event) :
    (State.resetWith p epoch sched).CoefsOk p :=
  ⟨Datapath.forall_biquads.2 ⟨.inl rfl, .inl rfl, .inl rfl, .inl rfl⟩, fun h => Bool.noConfusion h⟩

/-- A pending set is applied at a legal rate: it is pending behind a running PROCESS, which runs on a
prepared core (R187, R198, R199). -/
theorem State.CoefsOk.applyPending {p : Params} (hp : p.wf = true) {s : State} (hc : s.ControlOk p)
    (h : s.CoefsOk p) {r : Run} (hr : s.run = some r) :
    (s.applyPending p).dp.CoefsOk p s.prepared s.sr := by
  obtain ⟨⟨-, hrate⟩, ⟨hrun, -⟩, -⟩ := hc
  obtain ⟨-, -, hprep⟩ := hrun r hr
  obtain ⟨h1, h2⟩ := hrate hprep
  rcases hm : s.pend with _ | m
  · rw [State.applyPending_none hm]
    exact h
  · rw [State.applyPending_some hm]
    exact Datapath.CoefsOk.derive hp h1 h2 h.1

theorem State.CoefsOk.coreStep {p : Params} (hp : p.wf = true) {s : State} (hc : s.ControlOk p)
    (h : s.CoefsOk p) : (s.coreStep p).CoefsOk p := by
  rcases State.coreStep_cases p s with ⟨-, hs⟩ | ⟨r, hr, -, hs⟩ | ⟨r, hr, -, hs⟩ | ⟨r, -, -, hs⟩ <;>
    rw [hs]
  · exact h
  · have hpend := h.applyPending hp hc hr
    rw [State.frame_eq]
    exact hpend.frame
  · have hpend := h.applyPending hp hc hr
    rw [State.complete_eq]
    exact hpend
  · exact h

theorem State.CoefsOk.prepare {p : Params} (hp : p.wf = true) {s : State} (h : s.CoefsOk p) :
    (s.prepare p).CoefsOk p := by
  rcases State.prepare_cases p s with ⟨-, hs⟩ | ⟨-, -, hs⟩ | ⟨-, -, hs⟩ | ⟨-, h1, h2, hs⟩ <;> rw [hs]
  · exact h
  · exact h
  · exact ⟨h.1, fun hprep => Bool.noConfusion hprep⟩
  · exact Datapath.CoefsOk.prepare hp h1 h2 h.1

theorem State.CoefsOk.setParameters {p : Params} (hp : p.wf = true) {s : State} (hc : s.ControlOk p)
    (h : s.CoefsOk p) : (s.setParameters p).CoefsOk p := by
  obtain ⟨⟨-, hrate⟩, -, -⟩ := hc
  rcases State.setParameters_cases p s with ⟨-, hs⟩ | ⟨-, hprep, hs⟩ | ⟨-, -, hs⟩ <;> rw [hs]
  · exact h
  · obtain ⟨h1, h2⟩ := hrate hprep
    exact Datapath.CoefsOk.derive hp h1 h2 h.1
  · exact h

/-- Every step keeps the coefficients together with the control state, whose bound on the rate DERIVE
needs. -/
theorem step_keeps_coefs {s t : State} (hc : s.ControlOk Config.kso) (hs : s.CoefsOk Config.kso)
    (h : step s = .next t) : t.CoefsOk Config.kso := by
  have hboth : t.ControlOk Config.kso ∧ t.CoefsOk Config.kso := by
    refine step_keeps (fun s => s.ControlOk Config.kso ∧ s.CoefsOk Config.kso)
      ?sched ?bus ?core ?exec ?illegal ?reg ?ram ?reset ⟨hc, hs⟩ h
    case sched => exact fun _ _ hs => hs
    case bus => exact fun _ _ hs => hs
    case core => exact fun _ ⟨hc, hs⟩ => ⟨hc.coreStep Config.kso_wf, hs.coreStep Config.kso_wf hc⟩
    case exec =>
      refine exec_keeps (fun _ hs => hs) (fun _ ⟨hc, hs⟩ => ⟨hc.prepare, hs.prepare Config.kso_wf⟩)
        (fun _ ⟨hc, hs⟩ => ⟨hc.setParameters, hs.setParameters Config.kso_wf hc⟩)
        fun s ⟨hc, hs⟩ => ⟨hc.process, ?_⟩
      rw [State.process_frame]
      exact hs
    case illegal => exact fun _ hs => hs
    case reg =>
      intro s v r _ hs
      rw [State.writeReg_frame]
      exact hs
    case ram => exact fun _ _ _ _ hs => hs
    case reset => exact fun s _ => ⟨State.ControlOk.hardReset _ s, State.CoefsOk.reset _ _ _⟩
  exact hboth.2

/-- Settles O43: the types by themselves, the coefficients along with the control state. -/
theorem stepKeepsBiquadsCoherent : Obligations.StepKeepsBiquadsCoherent :=
  fun _ _ hc ⟨htypes, hcoefs⟩ h => ⟨step_keeps_types htypes h, step_keeps_coefs hc hcoefs h⟩

end Sys2Proof.Machine

/-! ### Host accesses: the registers, CMD and the unmapped space (R21 to R31, R61, R66, R80) -/

namespace Sys2Proof.Machine

theorem step_readReg {s : State} {r : Reg} {x : Word} {rest : List Event}
    (h : s.HostTurn ⟨.read, 32, Reg.addr r, x⟩ rest) :
    step s = .next { s with sched := rest, busData := s.readReg r } := by
  rw [step_bus h, busAccess_reg]
  cases r <;> rfl

theorem step_writeReg {s : State} {r : Reg} (hr : r ≠ .cmd) {x : Word} {rest : List Event}
    (h : s.HostTurn ⟨.write, 32, Reg.addr r, x⟩ rest) :
    step s = .next (State.writeReg { s with sched := rest } x r) := by
  rw [step_bus h, busAccess_reg]
  simp only [regAccess, if_neg hr]

theorem step_cmdWrite {s : State} {w : Word} {rest : List Event} (h : s.HostTurn (cmdWrite w) rest) :
    step s = issueCommand exec { s with sched := rest } w := by
  rw [step_bus h, cmdWrite, busAccess_reg]
  simp only [regAccess, if_true]

/-- Settles O24: the listed offsets and values are those of twelve registers, in order. -/
theorem registerReadValues : Obligations.RegisterReadValues := by
  intro s x rest a v hmem h
  change (a, v) ∈ [Reg.id, .cmd, .sampleRate, .macroDoubler, .macroFilter, .macroReverb, .macroMaster,
    .numSamples, .leftBase, .rightBase, .activeRate, .frameIndex].map
      fun r => (Reg.addr r, s.readReg r) at hmem
  obtain ⟨r, -, heq⟩ := List.mem_map.1 hmem
  cases heq
  exact step_readReg h

/-! ### STATUS and CTRL bit by bit (R23, R24, R215) -/

theorem bit_le_one (b : Bool) : bit b ≤ 1 := by cases b <;> decide

theorem ErrCode.code_le (e : ErrCode) : e.code ≤ 6 := by cases e <;> decide

/-- A bit of a word is a binary digit of its number. -/
theorem getLsbD_eq_decide (x : Word) (i : Nat) : x.getLsbD i = decide (x.toNat / 2 ^ i % 2 = 1) := by
  rw [BitVec.getLsbD, Nat.testBit_eq_decide_div_mod_eq]

theorem getLsbD_eq_of_digit {x : Word} {i : Nat} {b : Bool} (h : x.toNat / 2 ^ i % 2 = bit b) :
    x.getLsbD i = b := by
  rw [getLsbD_eq_decide, h]
  cases b <;> rfl

theorem State.statusWord_toNat (s : State) :
    s.statusWord.toNat =
      bit s.busy + 2 * bit s.prepared + 4 * bit s.done + 8 * bit s.pending + 16 * s.err.code := by
  have h0 := bit_le_one s.busy
  have h1 := bit_le_one s.prepared
  have h2 := bit_le_one s.done
  have h3 := bit_le_one s.pending
  have h4 := s.err.code_le
  rw [State.statusWord, BitVec.toNat_ofNat]
  omega

/-- The four flags of STATUS stand in bits 0 to 3 (R24). -/
theorem State.statusWord_flags (s : State) :
    s.statusWord.getLsbD 0 = s.busy ∧ s.statusWord.getLsbD 1 = s.prepared ∧
      s.statusWord.getLsbD 2 = s.done ∧ s.statusWord.getLsbD 3 = s.pending := by
  have hw := s.statusWord_toNat
  have h0 := bit_le_one s.busy
  have h1 := bit_le_one s.prepared
  have h2 := bit_le_one s.done
  have h3 := bit_le_one s.pending
  refine ⟨getLsbD_eq_of_digit ?_, getLsbD_eq_of_digit ?_, getLsbD_eq_of_digit ?_,
    getLsbD_eq_of_digit ?_⟩ <;> omega

/-- ERR stands in bits 7:4 of STATUS, and the bits above are reserved (R24). -/
theorem State.statusWord_err (s : State) :
    s.statusWord.extractLsb' 4 4 = BitVec.ofNat 4 s.err.code ∧
      s.statusWord.extractLsb' 8 24 = 0#24 := by
  have hw := s.statusWord_toNat
  have h0 := bit_le_one s.busy
  have h1 := bit_le_one s.prepared
  have h2 := bit_le_one s.done
  have h3 := bit_le_one s.pending
  have h4 := s.err.code_le
  constructor <;> apply BitVec.eq_of_toNat_eq <;>
    rw [BitVec.extractLsb'_toNat, Nat.shiftRight_eq_div_pow, hw, BitVec.toNat_ofNat] <;> omega

/-- IRQ_EN stands in bit 0 of CTRL, and the bits above are reserved (R23). -/
theorem State.ctrlWord_fields (s : State) :
    s.ctrlWord.getLsbD 0 = s.irqEn ∧ s.ctrlWord.extractLsb' 1 31 = 0#31 := by
  unfold State.ctrlWord
  cases s.irqEn <;> decide

/-- Settles O25: STATUS and CTRL as they read, field by field. -/
theorem statusAndCtrlFields : Obligations.StatusAndCtrlFields := by
  intro s x rest
  refine ⟨fun h => ⟨s.statusWord, step_readReg (r := .status) h, ?_⟩,
    fun h => ⟨s.ctrlWord, step_readReg (r := .ctrl) h, s.ctrlWord_fields⟩⟩
  obtain ⟨hbusy, hprep, hdone, hpend⟩ := s.statusWord_flags
  obtain ⟨herr, hreserved⟩ := s.statusWord_err
  refine ⟨hbusy, hprep, hdone, hpend, ?_, hreserved⟩
  rw [herr]
  cases s.err <;> rfl

/-! ### Register writes (R22 to R24, R26 to R31) -/

/-- Settles O26, one register at each offset. -/
theorem operandRegisterWrites : Obligations.OperandRegisterWrites := by
  intro s x rest
  exact ⟨step_writeReg (r := .sampleRate) (by decide), step_writeReg (r := .macroDoubler) (by decide),
    step_writeReg (r := .macroFilter) (by decide), step_writeReg (r := .macroReverb) (by decide),
    step_writeReg (r := .macroMaster) (by decide), step_writeReg (r := .numSamples) (by decide),
    step_writeReg (r := .leftBase) (by decide), step_writeReg (r := .rightBase) (by decide)⟩

/-- Settles O27: what `writeReg` answers for the three read-only registers is the state itself. -/
theorem readOnlyRegistersIgnoreWrites : Obligations.ReadOnlyRegistersIgnoreWrites := by
  intro s x rest a ha h
  simp only [List.mem_cons, List.not_mem_nil, or_false] at ha
  rcases ha with rfl | rfl | rfl
  · exact step_writeReg (r := .id) (by decide) h
  · exact step_writeReg (r := .activeRate) (by decide) h
  · exact step_writeReg (r := .frameIndex) (by decide) h

/-- Writing STATUS clears DONE by bit 2, bit by bit (R24). -/
theorem State.writeStatus_eq (s : State) (x : Word) :
    s.writeStatus x = { s with done := s.done && !x.getLsbD 2 } := by
  rw [State.writeStatus, getLsbD_eq_decide]
  congr 1
  split_ifs with h <;> simp [h]

/-- Writing CTRL sets IRQ_EN to bit 0 (R23). -/
theorem State.writeCtrl_eq (s : State) (x : Word) :
    s.writeCtrl x = { s with irqEn := x.getLsbD 0 } := by
  rw [State.writeCtrl, getLsbD_eq_decide, pow_zero, Nat.div_one]

/-- Settles O28. -/
theorem statusAndCtrlWrites : Obligations.StatusAndCtrlWrites := by
  intro s x rest
  constructor
  · intro h
    rw [step_writeReg (r := .status) (by decide) h, State.writeReg, State.writeStatus_eq]
  · intro h
    rw [step_writeReg (r := .ctrl) (by decide) h, State.writeReg, State.writeCtrl_eq]

/-! ### The unmapped space and CMD (R25, R61, R80) -/

/-- No sample-RAM word stands outside the window of R61. -/
theorem ramIndex_eq_none {p : Params} {n : Nat} (h : n < 0x1000 ∨ 0x1000 + 4 * p.sampleRamWords ≤ n) :
    ramIndex p n = none := by
  unfold ramIndex
  rw [if_neg (by simp only [ramBase]; omega)]

/-- An admitted access to an address that names neither a register nor a sample-RAM word. -/
theorem busAccess_unmapped {p : Params} (s : State) {a : Access} (hw : a.wf = true)
    (hreg : regAt a.addr.toNat = none) (hram : ramIndex p a.addr.toNat = none) :
    busAccess exec p s a = unmappedAccess s a.kind := by
  unfold busAccess
  simp only [hw, if_true, hreg, hram]

/-- Settles O30: neither decoder of an address names anything in the two ranges. -/
theorem unmappedReadsZeroIgnoresWrites : Obligations.UnmappedReadsZeroIgnoresWrites := by
  intro s a rest h hw ha
  have hreg : regAt a.addr.toNat = none := regAt_eq_none (by omega)
  have hram : ramIndex Config.kso a.addr.toNat = none := ramIndex_eq_none (by omega)
  rw [step_bus h, busAccess_unmapped _ hw hreg hram]
  constructor <;> intro hk <;> rw [hk] <;> rfl

/-- Settles O4. -/
theorem stepRunsDecodedCommand : Obligations.StepRunsDecodedCommand := by
  intro s w rest i h hdecode _
  rw [step_cmdWrite h, issueCommand, hdecode]

end Sys2Proof.Machine

/-! ### The clamped amounts (R35, R197) -/

namespace Sys2Proof.Machine

theorem clampMacro_inRange (m : F32) : inRange f0 f1 (clampMacro m) = true := clampF_inRange (by decide)

theorem State.macroOperands_inUnit (s : State) : s.macroOperands.inUnit = true := by
  simp only [Amounts.inUnit, State.macroOperands, clampMacro_inRange, Bool.and_self]

/-- The pending set becomes the active one, if there is one, and none is pending after it (R187). -/
theorem State.AmountsClamped.getD {s : State} (h : s.AmountsClamped) :
    (s.pend.getD s.amounts).inUnit = true := by
  obtain ⟨hactive, hpend⟩ := h
  rcases hm : s.pend with _ | m
  · exact hactive
  · exact hpend m hm

theorem State.AmountsClamped.of_pend_none {s : State} (h : s.amounts.inUnit = true)
    (hp : s.pend = none) : s.AmountsClamped :=
  ⟨h, fun _ hm => Option.noConfusion rfl (heq_of_eq (hp.symm.trans hm))⟩

theorem State.AmountsClamped.coreStep {p : Params} {s : State} (h : s.AmountsClamped) :
    (s.coreStep p).AmountsClamped := by
  rcases State.coreStep_cases p s with ⟨-, hc⟩ | ⟨r, -, -, hc⟩ | ⟨r, -, -, hc⟩ | ⟨r, -, -, hc⟩ <;>
    rw [hc]
  · exact h
  · rw [State.frame_eq]
    exact .of_pend_none h.getD rfl
  · rw [State.complete_eq]
    exact .of_pend_none h.getD rfl
  · exact h

/-- SET_PARAMETERS clamps what it makes active or queues (R197, R198). -/
theorem State.AmountsClamped.setParameters {p : Params} {s : State} (h : s.AmountsClamped) :
    (s.setParameters p).AmountsClamped := by
  obtain ⟨hactive, hpend⟩ := h
  rcases State.setParameters_cases p s with ⟨-, hc⟩ | ⟨-, -, hc⟩ | ⟨-, -, hc⟩ <;> rw [hc]
  · refine ⟨hactive, fun m hm => ?_⟩
    cases hm
    exact s.macroOperands_inUnit
  · exact ⟨s.macroOperands_inUnit, hpend⟩
  · exact ⟨s.macroOperands_inUnit, hpend⟩

theorem State.AmountsClamped.reset (p : Params) (epoch : Nat) (sched : List Event) :
    (State.resetWith p epoch sched).AmountsClamped :=
  .of_pend_none (by decide : Amounts.inUnit ⟨f0, f0, f0, f0⟩ = true) rfl

/-- Settles O41: only SET_PARAMETERS brings new amounts, and the core moves them. -/
theorem stepKeepsAmountsClamped : Obligations.StepKeepsAmountsClamped := by
  intro s t hs h
  refine step_keeps State.AmountsClamped ?sched ?bus ?core ?exec ?illegal ?reg ?ram ?reset hs h
  case sched => exact fun _ _ hs => hs
  case bus => exact fun _ _ hs => hs
  case core => exact fun _ hs => hs.coreStep
  case exec =>
    refine exec_keeps (fun _ hs => hs) (fun s hs => ?_) (fun _ hs => hs.setParameters) fun s hs => ?_
    · rw [State.prepare_frame]
      exact hs
    · rw [State.process_frame]
      exact hs
  case illegal => exact fun _ hs => hs
  case reg =>
    intro s v r _ hs
    rw [State.writeReg_frame]
    exact hs
  case ram => exact fun _ _ _ _ hs => hs
  case reset => exact fun _ _ => State.AmountsClamped.reset _ _ _

/-! ### The form of the sample RAM (log entry 1) -/

theorem State.RamOk.coreStep {p : Params} {s : State} (h : s.RamOk) : (s.coreStep p).RamOk := by
  rcases State.coreStep_cases p s with ⟨-, hc⟩ | ⟨r, -, -, hc⟩ | ⟨r, -, -, hc⟩ | ⟨r, -, -, hc⟩ <;>
    rw [hc]
  · exact h
  · rw [State.frame_eq]
    exact Memory.wf_writeWord (Memory.wf_writeWord h _ _) _ _
  · rw [State.complete_eq]
    exact h
  · exact h

/-- Settles O45: the sample RAM changes by whole words written, and by RESET. -/
theorem stepKeepsRamForm : Obligations.StepKeepsRamForm := by
  intro s t hs h
  refine step_keeps State.RamOk ?sched ?bus ?core ?exec ?illegal ?reg ?ram ?reset hs h
  case sched => exact fun _ _ hs => hs
  case bus => exact fun _ _ hs => hs
  case core => exact fun _ hs => hs.coreStep
  case exec =>
    refine exec_keeps (fun _ hs => hs) (fun s hs => ?_) (fun s hs => ?_) fun s hs => ?_
    · rw [State.prepare_frame]
      exact hs
    · rw [State.setParameters_frame]
      exact hs
    · rw [State.process_frame]
      exact hs
  case illegal => exact fun _ hs => hs
  case reg =>
    intro s v r _ hs
    rw [State.writeReg_frame]
    exact hs
  case ram => exact fun _ k v _ hs => Memory.wf_writeWord hs k v
  case reset => exact fun _ _ => Memory.wf_nil

/-! ### The feedback gains (R40, R130) -/

theorem Doubler.setParameters_fb_inRange (d : Doubler) (freq fb wet : F32) (mode : Interp) (off : F32) :
    inRange f0 f1 (d.setParameters freq fb wet mode off).fb = true := clampF_inRange (by decide)

theorem Datapath.derive_feedbackOk (p : Params) (sr : Nat) (a : Amounts) (d : Datapath) :
    (d.derive p sr a).FeedbackOk :=
  ⟨Doubler.setParameters_fb_inRange .., Doubler.setParameters_fb_inRange ..⟩

/-- Settles O44: DERIVE clamps the gain, and nothing else in the datapath writes it. -/
theorem stepKeepsFeedback : Obligations.StepKeepsFeedback :=
  fun _ _ hs h =>
    step_keeps_datapath Datapath.FeedbackOk ⟨by decide, by decide⟩
      (fun d sr a _ => d.derive_feedbackOk _ sr a)
      (fun d sr a _ _ => (d.clear Config.kso sr).derive_feedbackOk _ sr a) (fun _ _ _ hd => hd) hs h

end Sys2Proof.Machine

/-! ### The delay lines (R39, R110 to R119) -/

namespace Sys2Proof.Machine

section
variable {α β γ : Type}

/-! A property of every unit of a bank, through the ways the rules run over a bank. -/

theorem Eight.forall_toList {P : α → Prop} {v : Eight α} :
    (∀ x ∈ v.toList, P x) ↔
      P v.c0 ∧ P v.c1 ∧ P v.c2 ∧ P v.c3 ∧ P v.c4 ∧ P v.c5 ∧ P v.c6 ∧ P v.c7 := by
  simp [Eight.toList]

theorem Four.forall_toList {P : α → Prop} {v : Four α} :
    (∀ x ∈ v.toList, P x) ↔ P v.c0 ∧ P v.c1 ∧ P v.c2 ∧ P v.c3 := by
  simp [Four.toList]

theorem Eight.forall_map {P : α → Prop} {Q : β → Prop} {f : α → β} (hf : ∀ x, P x → Q (f x))
    {v : Eight α} (h : ∀ x ∈ v.toList, P x) : ∀ y ∈ (v.map f).toList, Q y :=
  List.forall_mem_map (l := v.toList).2 fun x hx => hf x (h x hx)

theorem Four.forall_map {P : α → Prop} {Q : β → Prop} {f : α → β} (hf : ∀ x, P x → Q (f x))
    {v : Four α} (h : ∀ x ∈ v.toList, P x) : ∀ y ∈ (v.map f).toList, Q y :=
  List.forall_mem_map (l := v.toList).2 fun x hx => hf x (h x hx)

theorem Eight.forall_zipWith {P : α → Prop} {Q : γ → Prop} {f : α → β → γ} (hf : ∀ x y, P x → Q (f x y))
    {u : Eight α} {v : Eight β} (h : ∀ x ∈ u.toList, P x) : ∀ z ∈ (u.zipWith f v).toList, Q z := by
  obtain ⟨h0, h1, h2, h3, h4, h5, h6, h7⟩ := Eight.forall_toList.1 h
  exact Eight.forall_toList.2 ⟨hf _ _ h0, hf _ _ h1, hf _ _ h2, hf _ _ h3, hf _ _ h4, hf _ _ h5,
    hf _ _ h6, hf _ _ h7⟩

theorem Four.forall_zipWith {P : α → Prop} {Q : γ → Prop} {f : α → β → γ} (hf : ∀ x y, P x → Q (f x y))
    {u : Four α} {v : Four β} (h : ∀ x ∈ u.toList, P x) : ∀ z ∈ (u.zipWith f v).toList, Q z := by
  obtain ⟨h0, h1, h2, h3⟩ := Four.forall_toList.1 h
  exact Four.forall_toList.2 ⟨hf _ _ h0, hf _ _ h1, hf _ _ h2, hf _ _ h3⟩

theorem Eight.forall_thread {P : α → Prop} {f : β → α → β × α} (hf : ∀ b x, P x → P (f b x).2) {b : β}
    {v : Eight α} (h : ∀ x ∈ v.toList, P x) : ∀ x ∈ (v.thread f b).2.toList, P x := by
  obtain ⟨h0, h1, h2, h3, h4, h5, h6, h7⟩ := Eight.forall_toList.1 h
  exact Eight.forall_toList.2 ⟨hf _ _ h0, hf _ _ h1, hf _ _ h2, hf _ _ h3, hf _ _ h4, hf _ _ h5,
    hf _ _ h6, hf _ _ h7⟩

theorem Four.forall_thread {P : α → Prop} {f : β → α → β × α} (hf : ∀ b x, P x → P (f b x).2) {b : β}
    {v : Four α} (h : ∀ x ∈ v.toList, P x) : ∀ x ∈ (v.thread f b).2.toList, P x := by
  obtain ⟨h0, h1, h2, h3⟩ := Four.forall_toList.1 h
  exact Four.forall_toList.2 ⟨hf _ _ h0, hf _ _ h1, hf _ _ h2, hf _ _ h3⟩

end

/-- A property of each of the 24 lines of the reverb (R42, R43). -/
def Reverb.AllLines (P : DelayLine → Prop) (r : Reverb) : Prop :=
  ((∀ c ∈ r.early.l.toList, P c.line) ∧ ∀ c ∈ r.early.r.toList, P c.line) ∧
    (∀ c ∈ r.late.l.toList, P c.line) ∧ ∀ c ∈ r.late.r.toList, P c.line

theorem Datapath.forall_reverbLines {P : DelayLine → Prop} {d : Datapath} :
    (∀ l ∈ d.reverbLines, P l) ↔ d.rev.AllLines P := by
  simp only [Datapath.reverbLines, Reverb.AllLines, List.forall_mem_append,
    List.forall_mem_map, and_assoc]

theorem Datapath.forall_doublerLines {P : DelayLine → Prop} {d : Datapath} :
    (∀ l ∈ d.doublerLines, P l) ↔ P d.dbl.l.line ∧ P d.dbl.r.line := by
  simp [Datapath.doublerLines]

theorem Datapath.linesOk_iff {p : Params} {d : Datapath} :
    d.LinesOk p ↔ (d.dbl.l.line.Ok (physDoubler p) ∧ d.dbl.r.line.Ok (physDoubler p)) ∧
      d.rev.AllLines (DelayLine.Ok (physReverb p)) := by
  rw [Datapath.LinesOk, Datapath.forall_doublerLines, Datapath.forall_reverbLines]

section
variable {phys : Nat} {l : DelayLine}

theorem DelayLine.Ok.setDelayTime (h : l.Ok phys) (sec dur : F32) : (l.setDelayTime sec dur).Ok phys :=
  h.of_geometry (l.setDelayTime_geometry sec dur)

theorem DelayLine.Ok.snap (h : l.Ok phys) : l.snap.Ok phys := h.of_geometry l.snap_geometry

/-- What every unit does to its line in a frame: a read, then a push (R131, R162, R163). -/
theorem DelayLine.Ok.readPush (h : l.Ok phys) (mode : Interp) (x : F32) :
    ((l.read mode).2.push x).Ok phys :=
  (h.of_geometry (l.read_geometry mode)).push x

theorem DelayLine.Ok.reset (phys : Nat) : DelayLine.reset0.Ok phys :=
  ⟨Nat.zero_le _, fun h => absurd h (lt_irrefl 0), fun _ => rfl, rfl, fun _ hc => nomatch hc⟩

end

section
variable {phys : Nat} {p : Params} {r : Reverb}

theorem Reverb.AllLines.setSpread (h : r.AllLines (DelayLine.Ok phys)) (x : F32) :
    (r.setSpread p x).AllLines (DelayLine.Ok phys) := by
  obtain ⟨⟨hel, her⟩, hll, hlr⟩ := h
  exact ⟨⟨Eight.forall_zipWith (fun _ _ hc => hc.setDelayTime _ _) hel,
      Eight.forall_zipWith (fun _ _ hc => hc.setDelayTime _ _) her⟩,
    Four.forall_zipWith (fun _ _ hc => hc.setDelayTime _ _) hll,
    Four.forall_zipWith (fun _ _ hc => hc.setDelayTime _ _) hlr⟩

/-- Of the five setters of REV_DERIVE only setSpread touches a line (R159, R185). -/
theorem Reverb.AllLines.derive (h : r.AllLines (DelayLine.Ok phys)) (a : Amounts) :
    (revDerive p a r).AllLines (DelayLine.Ok phys) := by
  unfold revDerive
  exact Reverb.AllLines.setSpread h _

theorem earlySum_lines_ok {v : Eight EarlyComb} (h : ∀ c ∈ v.toList, c.line.Ok phys) (mode : Interp)
    (input damp fb : F32) : ∀ c ∈ (earlySum mode v input damp fb).2.toList, c.line.Ok phys :=
  Eight.forall_thread (P := fun c : EarlyComb => c.line.Ok phys) (fun _ _ hc => hc.readPush _ _) h

theorem lateChain_lines_ok {v : Four LateComb} (h : ∀ c ∈ v.toList, c.line.Ok phys) (mode : Interp)
    (x : F32) : ∀ c ∈ (lateChain mode v x).2.toList, c.line.Ok phys :=
  Four.forall_thread (P := fun c : LateComb => c.line.Ok phys) (fun _ _ hc => hc.readPush _ _) h

theorem Reverb.AllLines.process (h : r.AllLines (DelayLine.Ok phys)) (xL xR : F32) :
    (r.process p xL xR).2.AllLines (DelayLine.Ok phys) := by
  obtain ⟨⟨hel, her⟩, hll, hlr⟩ := h
  exact ⟨⟨earlySum_lines_ok hel _ _ _ _, earlySum_lines_ok her _ _ _ _⟩,
    lateChain_lines_ok hll _ _, lateChain_lines_ok hlr _ _⟩

theorem Reverb.AllLines.prepare (h : r.AllLines (DelayLine.Ok phys)) {sr : Nat}
    (hsr : sr * revCapS ≤ phys) : (r.prepare p sr).AllLines (DelayLine.Ok phys) := by
  obtain ⟨⟨hel, her⟩, hll, hlr⟩ := h
  exact ⟨⟨Eight.forall_map (fun _ hc => hc.prepare _ _ hsr) hel,
      Eight.forall_map (fun _ hc => hc.prepare _ _ hsr) her⟩,
    Four.forall_map (fun _ hc => hc.prepare _ _ hsr) hll,
    Four.forall_map (fun _ hc => hc.prepare _ _ hsr) hlr⟩

theorem Reverb.AllLines.snap (h : r.AllLines (DelayLine.Ok phys)) :
    r.snap.AllLines (DelayLine.Ok phys) := by
  obtain ⟨⟨hel, her⟩, hll, hlr⟩ := h
  exact ⟨⟨Eight.forall_map (fun _ hc => hc.snap) hel, Eight.forall_map (fun _ hc => hc.snap) her⟩,
    Four.forall_map (fun _ hc => hc.snap) hll, Four.forall_map (fun _ hc => hc.snap) hlr⟩

theorem Reverb.AllLines.reset {P : DelayLine → Prop} (h : P DelayLine.reset0) :
    Reverb.reset0.AllLines P :=
  ⟨⟨Eight.forall_toList.2 ⟨h, h, h, h, h, h, h, h⟩, Eight.forall_toList.2 ⟨h, h, h, h, h, h, h, h⟩⟩,
    Four.forall_toList.2 ⟨h, h, h, h⟩, Four.forall_toList.2 ⟨h, h, h, h⟩⟩

end

section
variable {p : Params} {d : Datapath}

theorem Datapath.LinesOk.reset (p : Params) : (Datapath.reset0 p).LinesOk p :=
  Datapath.linesOk_iff.2 ⟨⟨.reset _, .reset _⟩, .reset (.reset _)⟩

theorem Datapath.LinesOk.clear (h : d.LinesOk p) {sr : Nat} (hsr : sr ≤ p.maxSr) :
    (d.clear p sr).LinesOk p := by
  obtain ⟨⟨hl, hr⟩, hrev⟩ := Datapath.linesOk_iff.1 h
  have hdbl : sr * combCapS ≤ physDoubler p := Nat.mul_le_mul_right _ hsr
  exact Datapath.linesOk_iff.2 ⟨⟨hl.prepare _ _ hdbl, hr.prepare _ _ hdbl⟩,
    hrev.prepare (Nat.mul_le_mul_right _ hsr)⟩

theorem Datapath.LinesOk.derive (h : d.LinesOk p) (sr : Nat) (a : Amounts) :
    (d.derive p sr a).LinesOk p := by
  obtain ⟨⟨hl, hr⟩, hrev⟩ := Datapath.linesOk_iff.1 h
  exact Datapath.linesOk_iff.2 ⟨⟨hl.setDelayTime _ _, hr.setDelayTime _ _⟩, hrev.derive a⟩

theorem Datapath.LinesOk.snap (h : d.LinesOk p) : d.snap.LinesOk p := by
  obtain ⟨⟨hl, hr⟩, hrev⟩ := Datapath.linesOk_iff.1 h
  exact Datapath.linesOk_iff.2 ⟨⟨hl.snap, hr.snap⟩, hrev.snap⟩

theorem Datapath.LinesOk.frame (h : d.LinesOk p) (xL xR : F32) : (d.frame p xL xR).2.LinesOk p := by
  obtain ⟨⟨hl, hr⟩, hrev⟩ := Datapath.linesOk_iff.1 h
  exact Datapath.linesOk_iff.2 ⟨⟨hl.readPush _ _, hr.readPush _ _⟩, hrev.process _ _⟩

end

/-- Settles O42: PREPARE sizes a line within its storage, and nothing else moves its capacity. -/
theorem stepKeepsLines : Obligations.StepKeepsLines :=
  fun _ _ hs h =>
    step_keeps_datapath (Datapath.LinesOk Config.kso) (.reset _) (fun _ sr a hd => hd.derive sr a)
      (fun _ sr a hsr hd => ((hd.clear hsr).derive sr a).snap) (fun _ xL xR hd => hd.frame xL xR) hs h

end Sys2Proof.Machine

/-! ### The reset state -/

namespace Sys2Proof.Machine

/-- Settles O39: nothing is prepared, running, pending or written, every amount and gain is +0.0, and
every line is empty. -/
theorem resetMeetsInvariants : Obligations.ResetMeetsInvariants :=
  ⟨⟨⟨fun _ => rfl, fun h => Bool.noConfusion h⟩, .of_idle rfl rfl, Nat.two_pow_pos 31⟩,
    State.AmountsClamped.reset _ _ _, Datapath.LinesOk.reset _,
    ⟨⟨rfl, rfl, rfl, rfl⟩, State.CoefsOk.reset _ _ _⟩, ⟨by decide, by decide⟩, Memory.wf_nil,
    fun _ h => nomatch h⟩

end Sys2Proof.Machine

/-! ### The sample-RAM window and misused accesses (R61 to R68, R217) -/

namespace Sys2Proof.Machine

/-- An access to word k races where k lies in the left or the right buffer of a running PROCESS
(R68). -/
theorem State.races_iff {s : State} {k : Nat} :
    s.races k = true ↔
      ∃ r, s.run = some r ∧ ((r.lb ≤ k ∧ k < r.lb + r.n) ∨ (r.rb ≤ k ∧ k < r.rb + r.n)) := by
  unfold State.races
  cases s.run <;> simp [Run.covers]

theorem State.races_eq_false {s : State} {k : Nat}
    (h : ∀ r, s.run = some r → ¬(r.lb ≤ k ∧ k < r.lb + r.n) ∧ ¬(r.rb ≤ k ∧ k < r.rb + r.n)) :
    s.races k = false := by
  rw [Bool.eq_false_iff, ne_eq, State.races_iff]
  rintro ⟨r, hrun, hbuf⟩
  obtain ⟨hleft, hright⟩ := h r hrun
  exact hbuf.elim hleft hright

/-- The next event is an access to a sample-RAM word: the step is that word's access. -/
theorem step_ram {s : State} {kind : AccessKind} {k : Nat} {x : Word} {rest : List Event}
    (hk : k < Config.kso.sampleRamWords)
    (h : s.HostTurn ⟨kind, 32, BitVec.ofNat 20 (0x1000 + 4 * k), x⟩ rest) :
    step s = ramAccess { s with sched := rest } k kind x := by
  rw [step_bus h, busAccess_ram _ _ _ hk (Params.sampleRamWords_le Config.kso_wf)]

/-- The faulting access of R68. -/
theorem ramAccess_race {s : State} {k : Nat} (h : s.races k = true) (kind : AccessKind) (x : Word) :
    ramAccess s k kind x = .fault (.ramRace k kind) := by
  simp only [ramAccess, h, if_true, raiseFault]

theorem ramAccess_read {s : State} {k : Nat} (h : s.races k = false) (x : Word) :
    ramAccess s k .read x = .next { s with busData := s.ramRead k } := by
  simp only [ramAccess, h, Bool.false_eq_true, if_false]

theorem ramAccess_write {s : State} {k : Nat} (h : s.races k = false) (x : Word) :
    ramAccess s k .write x = .next (s.ramWrite k x) := by
  simp only [ramAccess, h, Bool.false_eq_true, if_false]

/-- The faulting access of R62. -/
theorem busAccess_misuse (p : Params) (s : State) {a : Access}
    (h : a.width ≠ 32 ∨ a.addr.toNat % 4 ≠ 0) :
    busAccess exec p s a = .fault (.busError a.addr a.width a.kind) := by
  have hw : ¬a.wf = true := by
    rw [Access.wf_iff]
    tauto
  rw [busAccess, if_neg hw, raiseFault]

/-- A read that answers a next state is the first case of `busAccess_cases`: each of the others is a
write (R66). -/
theorem busAccess_read {p : Params} {s t : State} {a : Access} (hkind : a.kind = .read)
    (h : busAccess exec p s a = .next t) : ∃ v, t = { s with busData := v } := by
  have not_write {q : Prop} (hw : a.kind = .write) : q :=
    AccessKind.noConfusion (hkind.symm.trans hw)
  rcases busAccess_cases h with ⟨-, hread⟩ | ⟨r, -, ha, -⟩ | ⟨ha, -⟩ | ⟨k, hw, -⟩ | ⟨hw, -⟩
  · exact hread
  · exact not_write (congrArg Access.kind ha)
  · exact not_write (congrArg Access.kind ha)
  · exact not_write hw
  · exact not_write hw

/-- Settles O23. -/
theorem hostReadHasNoSideEffect : Obligations.HostReadHasNoSideEffect := by
  intro s t a rest h hkind hstep
  rw [step_bus h] at hstep
  obtain ⟨v, rfl⟩ := busAccess_read hkind hstep
  rfl

/-- Settles O33. -/
theorem busErrorStops : Obligations.BusErrorStops := by
  intro s a rest h hmisuse
  rw [step_bus h, busAccess_misuse _ _ hmisuse]

/-- Settles O32. -/
theorem ramRaceStops : Obligations.RamRaceStops := by
  intro s k kind x rest r hk hrun hbuf h
  have hrace : State.races { s with sched := rest } k = true :=
    State.races_iff.2 ⟨r, hrun, hbuf⟩
  rw [step_ram hk h, ramAccess_race hrace]

/-! ### The bytes of a sample-RAM word (R61, R63) -/

/-- Byte lane j is bits 8j+7 to 8j (R63). -/
theorem extractLsb'_eq_byteLane (x : Word) (j : Nat) : x.extractLsb' (8 * j) 8 = byteLane x j := by
  apply BitVec.eq_of_toNat_eq
  rw [BitVec.extractLsb'_toNat, Nat.shiftRight_eq_div_pow, byteLane, BitVec.toNat_ofNat]

/-- The lanes of the word with given bytes are those bytes, in order (R63). -/
theorem byteLane_wordOfBytes (b : Nat → Byte) {j : Nat} (hj : j < 4) :
    byteLane (wordOfBytes (b 0) (b 1) (b 2) (b 3)) j = b j := by
  have h0 := (b 0).isLt
  have h1 := (b 1).isLt
  have h2 := (b 2).isLt
  have h3 := (b 3).isLt
  apply BitVec.eq_of_toNat_eq
  simp only [byteLane, wordOfBytes, BitVec.toNat_ofNat]
  rcases (by omega : j = 0 ∨ j = 1 ∨ j = 2 ∨ j = 3) with rfl | rfl | rfl | rfl <;> omega

/-- Lane j of a sample-RAM word is the byte at the word's address plus j (R61, R63). -/
theorem State.byteLane_ramRead (s : State) (k : Nat) {j : Nat} (hj : j < 4) :
    byteLane (s.ramRead k) j = s.ramByte (ramByteAddr k j) :=
  byteLane_wordOfBytes (fun i => s.ramByte (ramByteAddr k i)) hj

/-- Settles O31: off the running buffers the access reads or writes its word, and the rest is where
the word's bytes stand. -/
theorem hostRamAccess : Obligations.HostRamAccess := by
  intro s k x rest hk hfree
  have hrace : State.races { s with sched := rest } k = false := State.races_eq_false hfree
  constructor
  · intro h
    refine ⟨by rw [step_ram hk h, ramAccess_read hrace]; rfl, fun j hj => ?_⟩
    rw [extractLsb'_eq_byteLane, State.byteLane_ramRead s k hj]
    rfl
  · intro h
    refine ⟨_, by rw [step_ram hk h, ramAccess_write hrace], rfl, State.ramRead_ramWrite_self _ _ _,
      fun j hj => ?_, fun b hb => ?_⟩
    · rw [extractLsb'_eq_byteLane]
      exact State.ramByte_ramWrite_lane _ _ _ hj
    · refine State.ramByte_ramWrite_of_outside ?_
      simp only [ramByteAddr, ramBase]
      omega

end Sys2Proof.Machine

/-! ### The fields of a command word, and what they decode to (R80, R83, R84, R86) -/

namespace Sys2Proof

open Laws

theorem rsvBits_toNat (w : Word) : (w.extractLsb' 4 28).toNat = rsvField w := by
  simp only [BitVec.extractLsb'_toNat, Nat.shiftRight_eq_div_pow, rsvField]
  omega

theorem opBits_toNat (w : Word) : (w.extractLsb' 0 4).toNat = opField w := by
  simp only [BitVec.extractLsb'_toNat, Nat.shiftRight_zero, opField]

theorem rsvBits_eq_zero_iff (w : Word) : w.extractLsb' 4 28 = 0#28 ↔ rsvField w = 0 := by
  rw [← BitVec.toNat_inj, rsvBits_toNat, BitVec.toNat_ofNat, Nat.zero_mod]

theorem opField_eq_of_opBits {w : Word} {c : BitVec 4} (h : w.extractLsb' 0 4 = c) :
    opField w = c.toNat := by
  rw [← opBits_toNat, h]

theorem four_le_opBits_iff (w : Word) : 4#4 ≤ w.extractLsb' 0 4 ↔ 4 ≤ opField w := by
  rw [BitVec.le_def, opBits_toNat, BitVec.toNat_ofNat, Nat.mod_eq_of_lt (by decide)]

/-- RSV decides first, whatever OP is (R84). -/
theorem decode_of_rsvField_ne {w : Word} (hr : rsvField w ≠ 0) : decode w = .reservedBits :=
  if_pos hr

theorem decode_of_four_le_opField {w : Word} (hr : rsvField w = 0) (ho : 4 ≤ opField w) :
    decode w = .reservedOpcode := by
  rw [decode, if_neg (not_not.2 hr)]
  split
  case h_5 => rfl
  all_goals omega

theorem wordOfTable (i : Instr) : WordOfTable.Statement i := by
  cases i with
  | nop => exact WordOfTable.nop
  | prepare => exact WordOfTable.prepare
  | setParameters => exact WordOfTable.setParameters
  | process => exact WordOfTable.process

theorem wordOfTable_op_lt (i : Instr) : WordOfTable.op i < 4 := by cases i <;> decide

theorem decode_of_opField {w : Word} {i : Instr} (hr : rsvField w = 0)
    (ho : opField w = WordOfTable.op i) : decode w = .command i := by
  obtain ⟨-, -, -, hdecode⟩ := wordOfTable i
  exact hdecode w hr ho

/-- A word with a reserved field set is no command's word (R84, R85). -/
theorem ne_encode_of_illegal {w : Word} (h : rsvField w ≠ 0 ∨ 4 ≤ opField w) (i : Instr) :
    w ≠ encode i := by
  rintro rfl
  obtain ⟨-, hop, hrsv, -⟩ := wordOfTable i
  have := wordOfTable_op_lt i
  omega

/-- Settles O1: the bit fields are RSV and OP, and each clause is the decoder's answer on them. -/
theorem decoderIsTotalAndExact : Obligations.DecoderIsTotalAndExact := by
  intro w
  rw [ne_eq, rsvBits_eq_zero_iff, four_le_opBits_iff]
  exact ⟨decode_of_rsvField_ne, fun hr =>
    ⟨fun ho => decode_of_opField hr (opField_eq_of_opBits ho),
      fun ho => decode_of_opField hr (opField_eq_of_opBits ho),
      fun ho => decode_of_opField hr (opField_eq_of_opBits ho),
      fun ho => decode_of_opField hr (opField_eq_of_opBits ho),
      decode_of_four_le_opField hr⟩⟩

/-- A word of 32 bits is its own table row's word. -/
theorem tableWord_toNat (w : Word) : tableWord 32 w.toNat = w := by
  rw [tableWord, Nat.mod_eq_of_lt w.isLt, BitVec.ofNat_toNat, BitVec.setWidth_eq]

theorem decodeTableWord_encode (i : Instr) : decodeTableWord 32 (encode i).toNat = some i := by
  rw [decodeTableWord, tableWord_toNat, decodeBytes_bytesOfWord, decode_encode]

/-- Settles O2: the byte lanes give back their word, and a command has one word. -/
theorem decodeEncodeRoundTrip : Obligations.DecodeEncodeRoundTrip := by
  refine ⟨decodeBytes_bytesOfWord, fun w i => ?_, fun i _ => decodeTableWord_encode i⟩
  rw [decodeBytes_bytesOfWord, decode_command_iff]

/-- Settles O3: the first four words are the encodings of the commands, and the fields of the others
are reserved. -/
theorem writtenOutWordsDecode : Obligations.WrittenOutWordsDecode :=
  ⟨decode_encode .nop, decode_encode .prepare, decode_encode .setParameters, decode_encode .process,
    decode_of_four_le_opField (by decide) (by decide),
    decode_of_four_le_opField (by decide) (by decide),
    decode_of_rsvField_ne (by decide), decode_of_rsvField_ne (by decide)⟩

end Sys2Proof

namespace Sys2Proof.Machine

theorem issueCommand_of_ne_encode {w : Word} (h : ∀ i, w ≠ encode i) (s : State) :
    issueCommand exec s w = .next (s.reject .illegalCmd) := by
  rcases issueCommand_eq s w with ⟨i, hi, -⟩ | ⟨-, hreject⟩
  · exact absurd hi (h i)
  · exact hreject

/-- Settles O5: an illegal word is no command's word, so the write to CMD is rejected. -/
theorem illegalWordOnlySetsErr : Obligations.IllegalWordOnlySetsErr := by
  intro s w rest hturn hillegal
  rw [ne_eq, rsvBits_eq_zero_iff, four_le_opBits_iff] at hillegal
  rw [step_cmdWrite hturn, issueCommand_of_ne_encode (ne_encode_of_illegal hillegal)]
  rfl

end Sys2Proof.Machine

/-! ### The smoother: its operations, and a whole ramp (R100 to R104) -/

namespace Sys2Proof.Machine

/-- The three cases of a ramp length (R100). -/
theorem rampSteps_eq (rate : Nat) (dur : F32) :
    rampSteps rate dur =
      if isNaN (fMul (toF32 rate) dur) = true ∨ fLe (fMul (toF32 rate) dur) f0 = true then 0
      else if fLe fTwo31 (fMul (toF32 rate) dur) = true then 2147483647
      else (floorI (fMul (toF32 rate) dur)).toNat := by
  simp only [rampSteps, Bool.or_eq_true]

/-- A setTarget on a smoother with no steps jumps (R101). -/
theorem Smoother.setTarget_jump {s : Smoother} {v : F32} (hv : fEq v s.tgt = false)
    (h : s.steps = 0) : s.setTarget v = { s with cur := v, tgt := v, cnt := 0 } := by
  simp [Smoother.setTarget, hv, h]

/-- A setTarget on a smoother with steps starts a ramp from the current value (R101). -/
theorem Smoother.setTarget_ramp {s : Smoother} {v : F32} (hv : fEq v s.tgt = false)
    (h : s.steps ≠ 0) :
    s.setTarget v =
      { s with tgt := v, cnt := s.steps, stp := fDiv (fSub v s.cur) (toF32 s.steps) } := by
  simp [Smoother.setTarget, hv, h]

/-- On a ramp next takes one step; the last one lands on the target (R102). -/
theorem Smoother.next_ramp {s : Smoother} (h : s.cnt ≠ 0) :
    s.next =
      (if s.cnt = 1 then s.tgt else fAdd s.cur s.stp,
        { s with
          cnt := s.cnt - 1
          cur := if s.cnt = 1 then s.tgt else fAdd s.cur s.stp }) := by
  have hlast : s.cnt - 1 = 0 ↔ s.cnt = 1 := by omega
  simp only [Smoother.next, if_neg h, hlast]

theorem Smoother.next_cnt (s : Smoother) : s.next.2.cnt = s.cnt - 1 := by
  by_cases h : s.cnt = 0
  · rw [Smoother.next_rest h, h]
  · rw [Smoother.next_ramp h]

/-- Each call of next takes one from the count, down to 0, and keeps the target and the increment. -/
theorem Smoother.afterNext_ramp (s : Smoother) (k : Nat) :
    (s.afterNext k).cnt = s.cnt - k ∧ (s.afterNext k).tgt = s.tgt ∧ (s.afterNext k).stp = s.stp := by
  induction k with
  | zero => exact ⟨rfl, rfl, rfl⟩
  | succ k ih =>
    obtain ⟨hcnt, htgt, hstp⟩ := ih
    obtain ⟨ktgt, -, kstp⟩ := (s.afterNext k).next_keeps
    refine ⟨?_, ktgt.trans htgt, kstp.trans hstp⟩
    rw [Smoother.afterNext, Smoother.next_cnt, hcnt, Nat.sub_sub]

/-- Before the last call of a ramp, next adds the increment to the current value (R104). -/
theorem Smoother.afterNext_before_last (s : Smoother) {k : Nat} (hk : k + 1 < s.cnt) :
    (s.afterNext k).next.1 = fAdd (s.afterNext k).cur s.stp ∧
      (s.afterNext (k + 1)).cur = (s.afterNext k).next.1 := by
  obtain ⟨hcnt, -, hstp⟩ := s.afterNext_ramp k
  rw [Smoother.afterNext, Smoother.next_ramp (by omega), if_neg (by omega), hstp]
  exact ⟨rfl, rfl⟩

/-- The last call of a ramp and every later one answer the target exactly (R104). -/
theorem Smoother.afterNext_from_last (s : Smoother) {k : Nat} (hk : s.cnt ≤ k + 1) :
    (s.afterNext k).next.1 = s.tgt := by
  obtain ⟨hcnt, htgt, -⟩ := s.afterNext_ramp k
  by_cases h : (s.afterNext k).cnt = 0
  · rw [Smoother.next_rest h, htgt]
  · rw [Smoother.next_ramp h, if_pos (by omega), htgt]

/-- Settles O49: the operations case by case; the ramp by what k calls of next leave of the count. -/
theorem smootherRampLandsOnTarget : Obligations.SmootherRampLandsOnTarget := by
  intro s v dur rate
  refine ⟨?_, rfl, Smoother.next_rest, Smoother.next_ramp, Smoother.setTarget_of_eq,
    Smoother.setTarget_jump, fun hv hn => ?_⟩
  · dsimp only
    rw [Smoother.reset, rampSteps_eq]
    rfl
  · have hset := Smoother.setTarget_ramp hv hn
    refine ⟨hset, fun k hk => ?_, fun k hk => ?_⟩
    · rw [hset]
      exact Smoother.afterNext_before_last _ hk
    · rw [hset]
      exact Smoother.afterNext_from_last _ hk

end Sys2Proof.Machine

/-! ### What DERIVE leaves in the reverb (R155 to R160, R185) -/

namespace Sys2Proof.Machine

/-! ### Numbers that stay small: no NaN arises from clamped parameters -/

theorem not_isNaN_of_fLe_right {x y : F32} (h : fLe x y = true) : isNaN y = false := by
  simp only [fLe, Bool.and_eq_true, Bool.not_eq_true'] at h
  exact h.1.2

/-- x is finite and its magnitude is at most n units of 2^-149. -/
def FiniteUpTo (n : Nat) (x : F32) : Prop := isFinite x = true ∧ units x ≤ n

theorem natAbs_intValue (x : F32) : (intValue x).natAbs = units x := by
  unfold intValue
  split_ifs <;> simp

/-- Below the overflow bound a rounded magnitude is finite and at most twice the quotient: 0 is no
nearer. -/
theorem Rounds.le_double {num den m : Nat} (h : Rounds num den m)
    (hlt : num < (2 ^ 25 - 1) * 2 ^ 252 * den) : m < infMag ∧ magUnits m * den ≤ 2 * num := by
  rw [Rounds, if_neg (not_le.2 hlt)] at h
  obtain ⟨hm, hnear⟩ := h
  have hzero : roundErr num den m ≤ roundErr num den 0 := (hnear 0 (by decide)).1
  have h0 : magUnits 0 = 0 := rfl
  rw [roundErr, roundErr, h0, Nat.cast_zero, zero_mul, zero_sub, abs_neg, Nat.abs_cast, abs_le]
    at hzero
  refine ⟨hm, ?_⟩
  zify
  omega

theorem FiniteUpTo.of_rounds {num : Nat} {x : F32} (h : Rounds num 1 (magBits x))
    (hlt : num < (2 ^ 25 - 1) * 2 ^ 252) : FiniteUpTo (2 * num) x := by
  obtain ⟨hfin, hle⟩ := h.le_double (by rwa [mul_one])
  rw [mul_one] at hle
  exact ⟨(isFinite_iff x).2 hfin, hle⟩

theorem FiniteUpTo.mono {m n : Nat} {x : F32} (h : FiniteUpTo m x) (hmn : m ≤ n) : FiniteUpTo n x :=
  ⟨h.1, h.2.trans hmn⟩

theorem FiniteUpTo.fAdd {a b : Nat} {x y : F32} (hx : FiniteUpTo a x) (hy : FiniteUpTo b y)
    (hlt : a + b < (2 ^ 25 - 1) * 2 ^ 252) : FiniteUpTo (2 * (a + b)) (fAdd x y) := by
  obtain ⟨hxf, hxa⟩ := hx
  obtain ⟨hyf, hyb⟩ := hy
  have hsum := Int.natAbs_add_le (intValue x) (intValue y)
  rw [natAbs_intValue, natAbs_intValue] at hsum
  exact (FiniteUpTo.of_rounds (fAdd_finite hxf hyf).1 (by omega)).mono (by omega)

theorem FiniteUpTo.fNeg {a : Nat} {x : F32} (hx : FiniteUpTo a x) : FiniteUpTo a (fNeg x) := by
  rwa [FiniteUpTo, isFinite_fNeg, units, magBits_fNeg]

theorem FiniteUpTo.fSub {a b : Nat} {x y : F32} (hx : FiniteUpTo a x) (hy : FiniteUpTo b y)
    (hlt : a + b < (2 ^ 25 - 1) * 2 ^ 252) : FiniteUpTo (2 * (a + b)) (fSub x y) :=
  hx.fAdd hy.fNeg hlt

theorem FiniteUpTo.isFinite_fMul {a b : Nat} {x y : F32} (hx : FiniteUpTo a x) (hy : FiniteUpTo b y)
    (hlt : a * b < (2 ^ 25 - 1) * 2 ^ 252 * 2 ^ 149) : isFinite (fMul x y) = true := by
  obtain ⟨hxf, hxa⟩ := hx
  obtain ⟨hyf, hyb⟩ := hy
  rw [fMul_finite hxf hyf, isFinite_iff, magBits_withSign (roundMag_lt _ _)]
  exact ((roundMag_rounds (by decide)).le_double ((Nat.mul_le_mul hxa hyb).trans_lt hlt)).1

theorem isNaN_fMul_finite {x y : F32} (hx : isFinite x = true) (hy : isFinite y = true) :
    isNaN (fMul x y) = false := by
  rw [fMul_finite hx hy]
  exact isNaN_withSign_roundMag _ _ _

/-- 1.0 is 2^149 units. -/
theorem finiteUpTo_f1 : FiniteUpTo (2 ^ 149) f1 := by
  unfold FiniteUpTo
  decide +kernel

theorem finiteUpTo_wScale : FiniteUpTo (2 ^ 148) wScale := by
  unfold FiniteUpTo
  decide +kernel

/-- What is clamped to [0, 1] is at most 1.0 in magnitude. -/
theorem finiteUpTo_clampUnit (x : F32) : FiniteUpTo (2 ^ 149) (clampF x f0 f1) := by
  have hy := clampF_not_nan (x := x) (lo := f0) (hi := f1) (by decide)
  obtain ⟨hlo, hhi⟩ := inRange_iff.1 (clampF_inRange (x := x) (lo := f0) (hi := f1) (by decide))
  generalize clampF x f0 f1 = y at hy hlo hhi
  have hmag : magBits y ≤ magBits f1 := by
    have h0 := (fLe_iff (by decide) hy).1 hlo
    have h1 := (fLe_iff hy (by decide)).1 hhi
    rw [show orderKey f0 = 0 by decide] at h0
    rw [show orderKey f1 = (magBits f1 : Int) by decide] at h1
    unfold orderKey at h0 h1
    split_ifs at h0 h1 <;> omega
  obtain ⟨hfin, hunits⟩ := finiteUpTo_f1
  rw [isFinite_iff] at hfin
  exact ⟨(isFinite_iff y).2 (hmag.trans_lt hfin), (magUnits_strictMono.monotone hmag).trans hunits⟩

theorem isNaN_one_sub {wet : F32} (h : FiniteUpTo (2 ^ 149) wet) : isNaN (fSub f1 wet) = false :=
  not_nan_of_finite (finiteUpTo_f1.fSub h (by decide)).1

/-- The targets of the two wet smoothers are numbers: the gains (1 + width) / 2 and (1 - width) / 2 are
finite (R160). -/
theorem isNaN_wetTargets {wet width : F32} (hwet : FiniteUpTo (2 ^ 149) wet)
    (hwidth : FiniteUpTo (2 ^ 149) width) :
    isNaN (wet1Target wet width) = false ∧ isNaN (wet2Target wet width) = false :=
  ⟨isNaN_fMul_finite hwet.1
      ((finiteUpTo_f1.fAdd hwidth (by decide)).isFinite_fMul finiteUpTo_wScale (by decide)),
    isNaN_fMul_finite hwet.1
      ((finiteUpTo_f1.fSub hwidth (by decide)).isFinite_fMul finiteUpTo_wScale (by decide))⟩

/-! ### One line (R112) -/

theorem DelayLine.SameGeometry.maxSeconds {l m : DelayLine} (h : l.SameGeometry m) :
    m.maxSeconds = l.maxSeconds := by
  rw [DelayLine.maxSeconds, DelayLine.maxSeconds, h.rate, h.cap]

theorem DelayLine.setDelayTime_lastSm (l : DelayLine) (sec : F32) {dur : F32}
    (h : isNaN dur = false) : fEq (l.setDelayTime sec dur).lastSm dur = true := by
  unfold DelayLine.setDelayTime DelayLine.withDuration
  dsimp only
  split_ifs with heq
  · rwa [fEq_comm]
  · exact fEq_refl h

/-- The delay target and the duration of a line are the given numbers (R112). -/
def DelayLine.LandsOn (l : DelayLine) (sec dur : F32) : Prop :=
  fEq l.dly.tgt (clampF sec f0 l.maxSeconds) = true ∧ fEq l.lastSm dur = true

/-- setDelayTime of a duration that is a number lands on it, whatever the line held. -/
theorem DelayLine.setDelayTime_landsOn (l : DelayLine) (sec : F32) {dur : F32}
    (h : isNaN dur = false) : (l.setDelayTime sec dur).LandsOn sec dur := by
  rw [DelayLine.LandsOn, (l.setDelayTime_geometry sec dur).maxSeconds]
  exact ⟨l.setDelayTime_tgt sec dur, l.setDelayTime_lastSm sec h⟩

/-! ### Banks of lines, unit j with the seed j -/

section
variable {α β γ : Type}

theorem Eight.toList_zipWith (f : α → β → γ) (u : Eight α) (v : Eight β) :
    (u.zipWith f v).toList = (u.toList.zip v.toList).map fun c => f c.1 c.2 := rfl

theorem Four.toList_zipWith (f : α → β → γ) (u : Four α) (v : Four β) :
    (u.zipWith f v).toList = (u.toList.zip v.toList).map fun c => f c.1 c.2 := rfl

/-- What f makes of a unit and its seed, with that seed again. -/
theorem forall_zip_of_zip_map {f : α × β → γ} {P : γ × β → Prop} (hf : ∀ c, P (f c, c.2))
    (us : List α) (vs : List β) : ∀ c ∈ ((us.zip vs).map f).zip vs, P c := by
  induction us generalizing vs with
  | nil => exact fun _ hc => nomatch hc
  | cons u us ih =>
    cases vs with
    | nil => exact fun _ hc => nomatch hc
    | cons v vs => exact List.forall_mem_cons.2 ⟨hf (u, v), ih vs⟩

end

/-- A bank of early combs, each set to the time f makes of its seed, lands on these times (R159). -/
theorem EarlyComb.bank_landsOn (f : F32 → F32) (u : Eight EarlyComb) (seeds : Eight F32) {dur : F32}
    (h : isNaN dur = false) :
    ∀ c ∈ (u.zipWith (fun c seed => c.setDelayTime (f seed) dur) seeds).toList.zip seeds.toList,
      c.1.line.LandsOn (f c.2) dur := by
  rw [Eight.toList_zipWith]
  exact forall_zip_of_zip_map (fun c => c.1.line.setDelayTime_landsOn (f c.2) h) _ _

/-- And a bank of late combs. -/
theorem LateComb.bank_landsOn (f : F32 → F32) (u : Four LateComb) (seeds : Four F32) {dur : F32}
    (h : isNaN dur = false) :
    ∀ c ∈ (u.zipWith (fun c seed => c.setDelayTime (f seed) dur) seeds).toList.zip seeds.toList,
      c.1.line.LandsOn (f c.2) dur := by
  rw [Four.toList_zipWith]
  exact forall_zip_of_zip_map (fun c => c.1.line.setDelayTime_landsOn (f c.2) h) _ _

/-! ### REV_DERIVE as a whole (R185) -/

theorem isNaN_revTimeSmoothS {p : Params} (hp : p.wf = true) :
    isNaN p.revTimeSmoothS = false := by
  obtain ⟨-, -, -, hsmooth, -⟩ := Params.wf_cases hp
  rw [Params.revSmoothOk, Bool.and_eq_true] at hsmooth
  exact not_isNaN_of_fLe_right hsmooth.2

/-- Settles O57: the record and the banks are what the five setters write, one after the other; each
target is a number, so setTarget leaves a target equal to it. -/
theorem reverbTargetsFollowParameters : Obligations.ReverbTargetsFollowParameters := by
  intro d a sr amount v r t damping size mix wet width spread half wet1 wet2 dur clamped set lands
    early late
  have hv : mapped Config.kso a = v := by
    funext m
    cases m <;> rfl
  have ht : t = revDerive Config.kso a r := rfl
  clear_value t v
  subst hv ht
  have hdur : isNaN dur = false := isNaN_revTimeSmoothS Config.kso_wf
  have hwet : FiniteUpTo (2 ^ 149) wet := finiteUpTo_clampUnit _
  have hwidth : FiniteUpTo (2 ^ 149) width := finiteUpTo_clampUnit _
  obtain ⟨hw1, hw2⟩ := isNaN_wetTargets hwet hwidth
  have htgt (m : Smoother) {x : F32} (hx : isNaN x = false) : fEq (m.setTarget x).tgt x = true := by
    rw [fEq_comm]
    exact m.setTarget_tgt_eq hx
  exact ⟨rfl, Eight.toList_zipWith _ _ _, Eight.toList_zipWith _ _ _, Four.toList_zipWith _ _ _,
    Four.toList_zipWith _ _ _,
    ⟨htgt _ (clampF_not_nan (by decide)), htgt _ (clampF_not_nan (by decide)),
      htgt _ (isNaN_one_sub hwet), htgt _ hw1, htgt _ hw2⟩,
    EarlyComb.bank_landsOn (fAdd · half) r.early.l _ hdur,
    EarlyComb.bank_landsOn (fSub · half) r.early.r _ hdur,
    LateComb.bank_landsOn (fAdd · half) r.late.l _ hdur,
    LateComb.bank_landsOn (fSub · half) r.late.r _ hdur⟩

end Sys2Proof.Machine

/-! ### What an accepted PREPARE leaves: clear, then DERIVE, then snap (R100, R103, R110, R144, R165,
R196) -/

namespace Sys2Proof.Machine

/-! ### One line through PREPARE -/

/-- prepare with a capacity of one second, as COMB_CAP_S and REV_CAP_S have it: MAX_CAP_SECONDS does not
bind (R110). -/
theorem DelayLine.prepare_second (l : DelayLine) (sr : Nat) (dur : F32) :
    l.prepare (sr * 1) sr dur =
      { cap := sr
        buf := slotsClear l.buf sr
        w := 0
        rate := sr
        lastSm := dur
        dly := l.dly.reset sr dur } := by
  have hcap : min (sr * 1) (maxCapSeconds * sr) = sr := by
    unfold maxCapSeconds
    omega
  rw [DelayLine.prepare, hcap]

/-- A line as PREPARE sizes and clears it, whatever target its delay smoother has (R110). -/
structure DelayLine.PreparedAt (sr : Nat) (dur : F32) (l : DelayLine) : Prop where
  cap : l.cap = sr
  w : l.w = 0
  rate : l.rate = sr
  clear : ∀ j, j < l.cap → l.slot j = f0
  lastSm : l.lastSm = dur
  steps : l.dly.steps = rampSteps sr dur

theorem DelayLine.prepare_preparedAt (l : DelayLine) (sr : Nat) (dur : F32) :
    (l.prepare (sr * 1) sr dur).PreparedAt sr dur := by
  rw [DelayLine.prepare_second]
  exact ⟨rfl, rfl, rfl, fun _ hj => slot_slotsClear hj, rfl, l.dly.reset_steps sr dur⟩

/-- What keeps the geometry keeps the slots. -/
theorem DelayLine.PreparedAt.of_geometry {sr : Nat} {dur : F32} {l m : DelayLine}
    (h : l.PreparedAt sr dur) (g : l.SameGeometry m) (hlast : m.lastSm = dur)
    (hsteps : m.dly.steps = rampSteps sr dur) : m.PreparedAt sr dur := by
  refine ⟨g.cap.trans h.cap, g.w.trans h.w, g.rate.trans h.rate, ?_, hlast, hsteps⟩
  unfold DelayLine.slot
  rw [g.cap, g.buf]
  exact h.clear

/-- setDelayTime with the duration of PREPARE: also a reset would be at the same rate (R112). -/
theorem DelayLine.PreparedAt.setDelayTime {sr : Nat} {dur : F32} {l : DelayLine}
    (h : l.PreparedAt sr dur) (sec : F32) : (l.setDelayTime sec dur).PreparedAt sr dur := by
  refine h.of_geometry (l.setDelayTime_geometry sec dur) ?_ ?_ <;>
    unfold DelayLine.setDelayTime DelayLine.withDuration <;> dsimp only <;> split_ifs
  · exact h.lastSm
  · rfl
  · rw [Smoother.setTarget_steps, h.steps]
  · rw [Smoother.setTarget_steps, Smoother.reset_steps, h.rate]

theorem DelayLine.PreparedAt.snap {sr : Nat} {dur : F32} {l : DelayLine}
    (h : l.PreparedAt sr dur) : l.snap.PreparedAt sr dur :=
  h.of_geometry l.snap_geometry h.lastSm h.steps

/-! ### The lines of the datapath -/

section
variable (p : Params) (sr : Nat) (a : Amounts) (d : Datapath)

theorem Datapath.clear_doublerLines :
    (d.clear p sr).doublerLines = d.doublerLines.map fun l => l.prepare (sr * 1) sr combSmoothS := rfl

theorem Datapath.clear_reverbLines :
    (d.clear p sr).reverbLines =
      d.reverbLines.map fun l => l.prepare (sr * 1) sr p.revTimeSmoothS := rfl

theorem Datapath.snap_doublerLines : d.snap.doublerLines = d.doublerLines.map DelayLine.snap := rfl

theorem Datapath.snap_reverbLines : d.snap.reverbLines = d.reverbLines.map DelayLine.snap := rfl

theorem Datapath.snap_smoothers : d.snap.smoothers = d.smoothers.map Smoother.snap := rfl

/-- DERIVE sets the delay time of each doubler line (R130, R183). -/
theorem Datapath.derive_doublerLines {P : DelayLine → Prop}
    (hP : ∀ l sec, P l → P (l.setDelayTime sec combSmoothS)) (h : ∀ l ∈ d.doublerLines, P l) :
    ∀ l ∈ (d.derive p sr a).doublerLines, P l := by
  obtain ⟨hl, hr⟩ := Datapath.forall_doublerLines.1 h
  exact Datapath.forall_doublerLines.2 ⟨hP _ _ hl, hP _ _ hr⟩

/-- DERIVE sets the delay time of each reverb line (R159, R185). -/
theorem Datapath.derive_reverbLines {P : DelayLine → Prop}
    (hP : ∀ l sec, P l → P (l.setDelayTime sec p.revTimeSmoothS)) (h : ∀ l ∈ d.reverbLines, P l) :
    ∀ l ∈ (d.derive p sr a).reverbLines, P l := by
  obtain ⟨⟨hel, her⟩, hll, hlr⟩ := Datapath.forall_reverbLines.1 h
  exact Datapath.forall_reverbLines.2
    ⟨⟨Eight.forall_zipWith (Q := fun c : EarlyComb => P c.line) (fun c _ hc => hP c.line _ hc) hel,
        Eight.forall_zipWith (Q := fun c : EarlyComb => P c.line) (fun c _ hc => hP c.line _ hc) her⟩,
      Four.forall_zipWith (Q := fun c : LateComb => P c.line) (fun c _ hc => hP c.line _ hc) hll,
      Four.forall_zipWith (Q := fun c : LateComb => P c.line) (fun c _ hc => hP c.line _ hc) hlr⟩

/-- PREPARE leaves both doubler lines sized and cleared, with the duration of R130. -/
theorem Datapath.prepare_doublerLines :
    ∀ l ∈ (d.prepare p sr a).doublerLines, l.PreparedAt sr combSmoothS := by
  rw [Datapath.prepare, Datapath.snap_doublerLines, List.forall_mem_map]
  intro l hl
  refine DelayLine.PreparedAt.snap
    (Datapath.derive_doublerLines p sr a _ (fun _ sec h => h.setDelayTime sec) ?_ l hl)
  rw [Datapath.clear_doublerLines, List.forall_mem_map]
  exact fun l _ => l.prepare_preparedAt sr _

/-- And the 24 reverb lines, with the duration of R165. -/
theorem Datapath.prepare_reverbLines :
    ∀ l ∈ (d.prepare p sr a).reverbLines, l.PreparedAt sr p.revTimeSmoothS := by
  rw [Datapath.prepare, Datapath.snap_reverbLines, List.forall_mem_map]
  intro l hl
  refine DelayLine.PreparedAt.snap
    (Datapath.derive_reverbLines p sr a _ (fun _ sec h => h.setDelayTime sec) ?_ l hl)
  rw [Datapath.clear_reverbLines, List.forall_mem_map]
  exact fun l _ => l.prepare_preparedAt sr _

/-- Every smoother is at rest after PREPARE (R103, R196). -/
theorem Datapath.snap_atRest : ∀ m ∈ d.snap.smoothers, m.cur = m.tgt ∧ m.cnt = 0 := by
  rw [Datapath.snap_smoothers, List.forall_mem_map]
  exact fun _ _ => ⟨rfl, rfl⟩

end

/-! ### The reverb's own smoothers and stores, and the biquads -/

/-- The five smoothers of the reverb that belong to no line (R44). -/
def Reverb.ownSmoothers (r : Reverb) : List Smoother := [r.sDamp, r.sFb, r.sDry, r.sW1, r.sW2]

section
variable (p : Params) (sr : Nat) (a : Amounts) (r : Reverb) (d : Datapath)

theorem Reverb.prepare_ownSmoothers :
    (r.prepare p sr).ownSmoothers = r.ownSmoothers.map fun m => m.reset sr p.revSmoothS := rfl

theorem Reverb.snap_ownSmoothers : r.snap.ownSmoothers = r.ownSmoothers.map Smoother.snap := rfl

theorem Reverb.forall_ownSmoothers {P : Smoother → Prop} :
    (∀ m ∈ r.ownSmoothers, P m) ↔ P r.sDamp ∧ P r.sFb ∧ P r.sDry ∧ P r.sW1 ∧ P r.sW2 := by
  simp [Reverb.ownSmoothers]

/-- DERIVE changes each of the five by setTarget, the two wet ones twice (R155 to R160, R185). -/
theorem Reverb.derive_ownSmoothers {P : Smoother → Prop} (hP : ∀ m v, P m → P (m.setTarget v))
    (h : ∀ m ∈ r.ownSmoothers, P m) : ∀ m ∈ (revDerive p a r).ownSmoothers, P m := by
  obtain ⟨hdamp, hfb, hdry, hw1, hw2⟩ := r.forall_ownSmoothers.1 h
  exact (revDerive p a r).forall_ownSmoothers.2
    ⟨hP _ _ hdamp, hP _ _ hfb, hP _ _ hdry, hP _ _ (hP _ _ hw1), hP _ _ (hP _ _ hw2)⟩

/-- PREPARE leaves the five with the ramp length of R165. -/
theorem Datapath.prepare_ownSmoothers :
    ∀ m ∈ (d.prepare p sr a).rev.ownSmoothers, m.steps = rampSteps sr p.revSmoothS := by
  have hprepare : ∀ m ∈ (d.rev.prepare p sr).ownSmoothers, m.steps = rampSteps sr p.revSmoothS := by
    rw [Reverb.prepare_ownSmoothers, List.forall_mem_map]
    exact fun m _ => m.reset_steps sr p.revSmoothS
  have hderive := Reverb.derive_ownSmoothers p a _
    (fun m v hm => (m.setTarget_steps v).trans hm) hprepare
  rw [show (d.prepare p sr a).rev = (revDerive p a (d.rev.prepare p sr)).snap from rfl,
    Reverb.snap_ownSmoothers, List.forall_mem_map]
  exact hderive

/-- The stores of the early combs stay cleared: DERIVE and snap touch their lines alone (R165). -/
theorem Datapath.prepare_stores :
    ∀ c ∈ (d.prepare p sr a).rev.early.l.toList ++ (d.prepare p sr a).rev.early.r.toList,
      c.store = f0 := by
  rw [List.forall_mem_append]
  exact ⟨Eight.forall_toList.2 ⟨rfl, rfl, rfl, rfl, rfl, rfl, rfl, rfl⟩,
    Eight.forall_toList.2 ⟨rfl, rfl, rfl, rfl, rfl, rfl, rfl, rfl⟩⟩

/-- Each biquad is enabled by DERIVE and keeps the cleared z1 and z2 (R144, R184). -/
theorem Datapath.prepare_biquads :
    ∀ b ∈ (d.prepare p sr a).biquads, b.z1 = f0 ∧ b.z2 = f0 ∧ b.enabled = true := by
  have hconfigure (b : Biquad) (srF c q : F32) :
      (b.prepare.configure p srF c q true).z1 = f0 ∧ (b.prepare.configure p srF c q true).z2 = f0 ∧
        (b.prepare.configure p srF c q true).enabled = true := by
    obtain ⟨hz1, hz2⟩ := b.prepare.configure_z p srF c q true
    exact ⟨hz1, hz2, Biquad.configure_enabled ..⟩
  exact Datapath.forall_biquads.2
    ⟨hconfigure _ _ _ _, hconfigure _ _ _ _, hconfigure _ _ _ _, hconfigure _ _ _ _⟩

end

/-- An idle core accepts a PREPARE at a legal rate (R196). -/
theorem State.prepare_accepted {p : Params} {s : State} (hrun : s.run = none)
    (h0 : s.sampleRate ≠ 0#32) (hmax : s.sampleRate.toNat ≤ p.maxSr) :
    s.prepare p = s.prepareAt p s.sampleRate.toNat := by
  have hpos : s.srReq ≠ 0 := fun h => h0 (BitVec.eq_of_toNat_eq h)
  rcases State.prepare_cases p s with ⟨hbusy, -⟩ | ⟨-, hzero, -⟩ | ⟨-, hlarge, -⟩ | ⟨-, -, -, h⟩
  · exact absurd hrun hbusy
  · exact absurd hzero hpos
  · exact absurd hlarge (not_lt.2 hmax)
  · exact h

/-- Settles O8: the lines, the five smoothers, the stores and the biquads by the lemmas above; what is
left compares records on which clear or snap writes none of the compared fields. -/
theorem prepareClearsAndRests : Obligations.PrepareClearsAndRests := by
  intro s hrun h0 hmax sr c d ramp rest line prepared own params
  have hramp : rampSteps sr = ramp := funext (rampSteps_eq sr)
  clear_value ramp
  subst hramp
  have hclear (dur : F32) (ls : List DelayLine) :
      (ls.map fun l => l.prepare (sr * 1) sr dur).map line = ls.map (prepared dur) := by
    rw [List.map_map]
    refine List.map_congr_left fun l _ => ?_
    rw [Function.comp_apply, DelayLine.prepare_second]
    rfl
  have hsized {dur : F32} {l : DelayLine} (h : l.PreparedAt sr dur) :
      l.cap = sr ∧ l.w = 0 ∧ l.rate = sr ∧ ∀ j, j < l.cap → l.slot j = f0 :=
    ⟨h.cap, h.w, h.rate, h.clear⟩
  have hdbl := s.dp.prepare_doublerLines Config.kso sr s.amounts
  have hrev := s.dp.prepare_reverbLines Config.kso sr s.amounts
  exact ⟨⟨hclear combSmoothS s.dp.doublerLines, hclear _ s.dp.reverbLines, rfl, rfl, rfl, rfl⟩,
    s.prepareAt Config.kso sr, congrArg _ (State.prepare_accepted hrun h0 hmax), rfl, rfl, rfl, rfl,
    List.forall_mem_append.2 ⟨fun l hl => hsized (hdbl l hl), fun l hl => hsized (hrev l hl)⟩,
    fun l hl => ⟨(hdbl l hl).lastSm, (hdbl l hl).steps⟩,
    fun l hl => ⟨(hrev l hl).lastSm, (hrev l hl).steps⟩,
    s.dp.prepare_ownSmoothers Config.kso sr s.amounts, s.dp.prepare_biquads Config.kso sr s.amounts,
    s.dp.prepare_stores Config.kso sr s.amounts, d.snap_atRest, rfl, rfl, rfl, rfl, rfl, rfl⟩

end Sys2Proof.Machine

/-! ### The delay line: ages, reads and the delay of a constant offset (R113 to R120) -/

namespace Sys2Proof.Machine

/-! ### Ages under a push (R113, R114) -/

/-- The slot of age k + 1 after the cursor has moved is the slot of age k before. Also for k = 0: the
slot the cursor leaves is then at age 1. -/
theorem ageIndex_succ {w cap k : Nat} (hk : k < cap) :
    ((w + 1) % cap + cap - (k + 1)) % cap = (w + cap - k) % cap := by
  calc ((w + 1) % cap + cap - (k + 1)) % cap
      = ((w + 1) % cap + (cap - (k + 1))) % cap := by rw [Nat.add_sub_assoc hk]
    _ = (w + 1 + (cap - (k + 1))) % cap := Nat.mod_add_mod _ _ _
    _ = (w + cap - k) % cap := by congr 1; omega

/-- No age that a push keeps lies in the slot it writes. -/
theorem ageIndex_ne_cursor {w cap k : Nat} (hw : w < cap) (h1 : 1 ≤ k) (hk : k < cap) :
    (w + cap - k) % cap ≠ w := by
  rcases le_or_gt k w with h | h
  · rw [show w + cap - k = w - k + cap by omega, Nat.add_mod_right, Nat.mod_eq_of_lt (by omega)]
    omega
  · rw [Nat.mod_eq_of_lt (by omega)]
    omega

theorem DelayLine.push_of_cap_zero {l : DelayLine} (hc : l.cap = 0) (x : F32) : l.push x = l := by
  simp only [DelayLine.push, if_pos hc]

/-- A push on a line with slots writes the slots and the cursor alone. -/
theorem DelayLine.push_eq {l : DelayLine} (hc : l.cap ≠ 0) (x : F32) :
    l.push x = { l with w := (l.w + 1) % l.cap, buf := (l.push x).buf } := by
  simp only [DelayLine.push, if_neg hc]

section
variable {phys : Nat} {l : DelayLine}

/-- The cursor of a line with slots is inside it (R39). -/
theorem DelayLine.Ok.w_lt (h : l.Ok phys) (hc : 0 < l.cap) : l.w < l.cap := h.2.1 hc

/-- Age k + 1 after a push is age k before it, unless that slot is the one the push writes. -/
theorem DelayLine.age_succ_push (h : l.Ok phys) (x : F32) {k : Nat} (hk : k < l.cap) :
    (l.push x).age (k + 1) =
      if (l.w + l.cap - k) % l.cap = l.w then x else l.age k := by
  obtain ⟨-, -, -, hrising, -⟩ := h
  have hc : l.cap ≠ 0 := by omega
  have hw : (l.push x).w = (l.w + 1) % l.cap := by rw [DelayLine.push_eq hc]
  rw [DelayLine.age, (l.push_keeps x).1, hw, ageIndex_succ hk, DelayLine.slot_push hrising hc,
    DelayLine.age]

theorem DelayLine.age_one_push (h : l.Ok phys) (x : F32) (hc : 0 < l.cap) :
    (l.push x).age 1 = x := by
  rw [DelayLine.age_succ_push h x hc, Nat.sub_zero, Nat.add_mod_right,
    Nat.mod_eq_of_lt (h.w_lt hc), if_pos rfl]

theorem DelayLine.age_push (h : l.Ok phys) (x : F32) {k : Nat} (h1 : 1 ≤ k) (hk : k < l.cap) :
    (l.push x).age (k + 1) = l.age k := by
  rw [DelayLine.age_succ_push h x hk, if_neg (ageIndex_ne_cursor (h.w_lt (by omega)) h1 hk)]

end

/-- Settles O50: the cursor moves past the slot it wrote, and every other slot stays. -/
theorem pushShiftsAges : Obligations.PushShiftsAges := by
  intro phys l x h
  exact ⟨fun hc => DelayLine.push_of_cap_zero hc x,
    fun hc => ⟨DelayLine.push_eq hc.ne' x, DelayLine.age_one_push h x hc,
      fun _ => DelayLine.age_push h x, fun _ _ _ => rfl⟩⟩

/-! ### The clamped offset (R115) -/

/-- dmin as an integer: the least age a read in the mode starts from (R115). -/
def leastAge : Interp → Nat
  | .none => 1
  | .linear => 1
  | .cubic => 2

/-- dmax as an integer: the greatest age a read in the mode starts from (R115). -/
def greatestAge (cap : Nat) : Interp → Nat
  | .none => cap
  | .linear => cap - 1
  | .cubic => cap - 2

theorem minOffset_eq (mode : Interp) : minOffset mode = toF32 (leastAge mode) := by
  cases mode <;> decide +kernel

theorem maxOffset_eq (cap : Nat) (mode : Interp) :
    maxOffset cap mode = toF32 (greatestAge cap mode) := by
  cases mode <;> rfl

theorem leastAge_le_greatestAge {cap : Nat} {mode : Interp} (h : needSlots mode ≤ cap) :
    1 ≤ leastAge mode ∧ leastAge mode ≤ greatestAge cap mode ∧ greatestAge cap mode ≤ cap := by
  cases mode <;> simp only [needSlots, leastAge, greatestAge] at h ⊢ <;> omega

theorem not_isNaN_of_fLe_left {x y : F32} (h : fLe x y = true) : isNaN x = false := by
  simp only [fLe, Bool.and_eq_true, Bool.not_eq_true'] at h
  exact h.1.1

theorem fLe_iff_intValue {x y : F32} (hx : isFinite x = true) (hy : isFinite y = true) :
    fLe x y = true ↔ intValue x ≤ intValue y := (comparisons_of_finite hx hy).2.1

theorem intValue_toF32 {n : Nat} (h : n ≤ 2 ^ 24) : intValue (toF32 n) = n * 2 ^ 149 := by
  rw [intValue, signBit_toF32, units_toF32 h]
  push_cast
  rfl

/-- Integers up to 2^24 are in the order of their patterns. -/
theorem fLe_toF32 {m n : Nat} (hmn : m ≤ n) (hn : n ≤ 2 ^ 24) : fLe (toF32 m) (toF32 n) = true := by
  have hm := hmn.trans hn
  rw [fLe_iff_intValue (isFinite_toF32 hm) (isFinite_toF32 hn), intValue_toF32 hm, intValue_toF32 hn]
  exact Int.mul_le_mul_of_nonneg_right (by exact_mod_cast hmn) (by positivity)

/-- A number between two positive integers up to 2^24 is finite and positive, and its magnitude is
between theirs. -/
theorem units_of_between {x : F32} {a b : Nat} (h1 : 1 ≤ a) (hab : a ≤ b) (hb : b ≤ 2 ^ 24)
    (hax : fLe (toF32 a) x = true) (hxb : fLe x (toF32 b) = true) :
    isFinite x = true ∧ signBit x = false ∧ a * 2 ^ 149 ≤ units x ∧ units x ≤ b * 2 ^ 149 := by
  have hfina := isFinite_toF32 (hab.trans hb)
  have hfinb := isFinite_toF32 hb
  have hx : isFinite x = true := by
    have hxn := not_isNaN_of_fLe_left hxb
    have hka := (fLe_iff (isNaN_toF32 a) hxn).1 hax
    have hkb := (fLe_iff hxn (isNaN_toF32 b)).1 hxb
    have hposa := orderKey_pos (toF32_pos h1)
    have hboundb := (orderKey_of_finite hfinb).2
    have hkx : orderKey x = if signBit x then -(magBits x : Int) else magBits x := rfl
    rw [isFinite_iff]
    split_ifs at hkx <;> omega
  have hlo := (fLe_iff_intValue hfina hx).1 hax
  have hhi := (fLe_iff_intValue hx hfinb).1 hxb
  rw [intValue_toF32 (hab.trans hb)] at hlo
  rw [intValue_toF32 hb] at hhi
  rw [intValue] at hlo hhi
  cases hs : signBit x
  · simp only [hs, Bool.false_eq_true, if_false] at hlo hhi
    exact ⟨hx, rfl, by omega, by omega⟩
  · simp only [hs, if_true] at hlo
    omega

/-! ### The fraction of an offset: what the integer part leaves stays below 1.0 -/

/-- Rounding does not pass a magnitude that the quotient does not pass. -/
theorem Rounds.le_of_le {num den m b : Nat} (h : Rounds num den m) (hd : 0 < den) (hb : b < infMag)
    (hle : num ≤ magUnits b * den) (hlt : num < (2 ^ 25 - 1) * 2 ^ 252 * den) : m ≤ b := by
  rw [Rounds, if_neg (not_le.2 hlt)] at h
  obtain ⟨-, hnear⟩ := h
  have hmb : roundErr num den m ≤ roundErr num den b := (hnear b hb).1
  by_contra hbm
  exact absurd (roundErr_lt_of_gt hd hle (not_le.1 hbm)) (not_lt.2 hmb)

/-- From 1.0 on the spacing of the numbers is at least 2^-23, which is 2^126 units. -/
theorem spacing_dvd_units {x : F32} (h : magBits f1 ≤ magBits x) : 2 ^ 126 ∣ units x := by
  have he : 127 ≤ magBits x / 2 ^ 23 := by
    rw [Nat.le_div_iff_mul_le (by positivity)]
    exact h
  unfold units magUnits
  dsimp only
  rw [if_neg (by omega)]
  exact Dvd.dvd.mul_left (pow_dvd_pow 2 (by omega)) _

/-- The integer part of a positive number, in units. -/
theorem floorI_of_pos {x : F32} (hs : signBit x = false) : (floorI x).toNat = units x / 2 ^ 149 := by
  simp only [floorI, intValue, hs, Bool.false_eq_true, if_false]
  omega

/-- The fraction of a positive number is what its units leave over 2^149, rounded once. -/
theorem fraction_rounds {x : F32} (hx : isFinite x = true) (hs : signBit x = false)
    (hle : units x / 2 ^ 149 ≤ 2 ^ 24) :
    let f := fSub x (toF32 (units x / 2 ^ 149))
    Rounds (units x % 2 ^ 149) 1 (magBits f) ∧ signBit f = false := by
  have hdiff : intValue x - intValue (toF32 (units x / 2 ^ 149)) = (units x % 2 ^ 149 : Nat) := by
    rw [intValue_toF32 hle, intValue, hs]
    simp only [Bool.false_eq_true, if_false]
    omega
  obtain ⟨hround, hsign⟩ := fSub_finite hx (isFinite_toF32 hle)
  rw [hdiff] at hround hsign
  rw [Int.natAbs_natCast] at hround
  refine ⟨hround, ?_⟩
  rw [hsign, hs, Bool.false_and]
  split_ifs
  · rfl
  · exact decide_eq_false (by omega)

/-- From 1.0 on the fraction is rounded from at most 1 - 2^-23, which is a number, so it stays below
1.0; and a fraction of no units is zero. -/
theorem fraction_bounds {x : F32} (hx : isFinite x = true) (hs : signBit x = false)
    (h1 : 2 ^ 149 ≤ units x) (hle : units x / 2 ^ 149 ≤ 2 ^ 24) :
    let f := fSub x (toF32 (units x / 2 ^ 149))
    fLe f0 f = true ∧ fLt f f1 = true ∧ (units x % 2 ^ 149 = 0 → fEq f f0 = true) := by
  intro f
  obtain ⟨hround, hsf⟩ : Rounds (units x % 2 ^ 149) 1 (magBits f) ∧ signBit f = false :=
    fraction_rounds hx hs hle
  have hbelow (b : Nat) (hb : b < infMag) (hub : units x % 2 ^ 149 ≤ magUnits b) : magBits f ≤ b :=
    hround.le_of_le Nat.one_pos hb (by omega) (by omega)
  have hlt : magBits f ≤ 0x3F7FFFFE := by
    have hu1 : magUnits (magBits f1) = 2 ^ 149 := by decide +kernel
    have hlast : magUnits 0x3F7FFFFE = (2 ^ 23 - 1) * 2 ^ 126 := by decide +kernel
    have hmag : magBits f1 ≤ magBits x := by
      rw [← magUnits_strictMono.le_iff_le, hu1]
      exact h1
    obtain ⟨q, hq⟩ := spacing_dvd_units hmag
    exact hbelow _ (by decide) (by omega)
  have hfn : isNaN f = false := by
    rw [isNaN, decide_eq_false_iff_not, infMag]
    omega
  have hkey : orderKey f = magBits f := by
    rw [orderKey, hsf]
    rfl
  have hkey0 : orderKey f0 = 0 := by decide
  have hkey1 : orderKey f1 = 0x3F800000 := by decide
  rw [fLe_iff (by decide) hfn, fLt_iff hfn (by decide), fEq_iff hfn (by decide), hkey, hkey0, hkey1]
  refine ⟨by omega, by omega, fun h0 => ?_⟩
  have := hbelow 0 (by decide) (by omega)
  omega

/-! ### Every age a read touches is inside the line (R115) -/

/-- The clamped offset is an age between the bounds and a fraction in [0, 1), which is zero at the
upper bound. -/
theorem offsetOf_bounds {mode : Interp} {cap : Nat} (hneed : needSlots mode ≤ cap)
    (hcap : cap ≤ 2 ^ 24) (rate : Nat) (dsec : F32) :
    let o := offsetOf mode cap rate dsec
    leastAge mode ≤ o.1 ∧ o.1 ≤ greatestAge cap mode ∧ fLe f0 o.2 = true ∧ fLt o.2 f1 = true ∧
      (fEq o.2 f0 = false → o.1 + 1 ≤ greatestAge cap mode) := by
  obtain ⟨h1, hle, hgreatest⟩ := leastAge_le_greatestAge hneed
  have hb := hgreatest.trans hcap
  obtain ⟨hlo, hhi⟩ := inRange_iff.1 (clampF_inRange (x := fMul dsec (toF32 rate)) (fLe_toF32 hle hb))
  obtain ⟨hfin, hs, hulo, huhi⟩ := units_of_between h1 hle hb hlo hhi
  simp only [offsetOf, minOffset_eq, maxOffset_eq, floorI_of_pos hs]
  obtain ⟨hf0, hf1, hzero⟩ := fraction_bounds hfin hs (by omega) (by omega)
  refine ⟨by omega, by omega, hf0, hf1, fun hne => ?_⟩
  by_contra hge
  rw [hzero (by omega)] at hne
  cases hne

/-- Settles O51: the bounds of the clamp are the ages that keep the neighbours inside. -/
theorem readStaysInsideLine : Obligations.ReadStaysInsideLine := by
  intro cap rate dsec mode hneed hcap
  obtain ⟨hlo, hhi, hf0, hf1, hnext⟩ := offsetOf_bounds hneed hcap rate dsec
  refine ⟨hf0, hf1, ?_⟩
  cases mode with
  | none => exact ⟨hlo, hhi, hnext⟩
  | linear =>
    simp only [needSlots, leastAge, greatestAge] at hneed hlo hhi
    omega
  | cubic =>
    simp only [needSlots, leastAge, greatestAge] at hneed hlo hhi
    omega

/-! ### A constant offset in mode NONE (R116, R120) -/

/-- A line of at most 2^24 slots whose delay smoother rests at exactly n samples, an age it holds. -/
structure DelayLine.RestsAt (phys n : Nat) (l : DelayLine) : Prop where
  ok : l.Ok phys
  capLe : l.cap ≤ 2 ^ 24
  oneLe : 1 ≤ n
  leCap : n ≤ l.cap
  atRest : l.dly.cnt = 0
  offset : fMul l.dly.tgt (toF32 l.rate) = toF32 n

/-- An integer delay inside the line passes the clamp and has no fraction. -/
theorem offsetOf_none_exact {cap rate n : Nat} {dsec : F32} (hcap : cap ≤ 2 ^ 24) (h1 : 1 ≤ n)
    (hn : n ≤ cap) (hd : fMul dsec (toF32 rate) = toF32 n) :
    (offsetOf .none cap rate dsec).1 = n ∧ fEq (offsetOf .none cap rate dsec).2 f0 = true := by
  have hn24 := hn.trans hcap
  have hclamp : clampF (toF32 n) (toF32 1) (toF32 cap) = toF32 n :=
    clampF_of_inRange (inRange_iff.2 ⟨fLe_toF32 h1 hn24, fLe_toF32 hn hcap⟩)
  have hunits := units_toF32 hn24
  have hq : units (toF32 n) / 2 ^ 149 = n := by omega
  obtain ⟨-, -, hzero⟩ := fraction_bounds (isFinite_toF32 hn24) (signBit_toF32 n) (by omega)
    (by omega)
  rw [hq] at hzero
  simp only [offsetOf, minOffset_eq, maxOffset_eq, leastAge, greatestAge, hd, hclamp,
    floorI_of_pos (signBit_toF32 n), hq]
  exact ⟨trivial, hzero (by omega)⟩

theorem DelayLine.readNone_of_zero (l : DelayLine) (i : Nat) {f : F32} (hf : fEq f f0 = true) :
    l.readNone i f = l.age i := by
  rw [DelayLine.readNone, if_pos hf]

section
variable {phys n : Nat} {l : DelayLine}

/-- At rest at n samples a read answers S(n) and changes nothing. -/
theorem DelayLine.RestsAt.read_none (h : l.RestsAt phys n) : l.read .none = (l.age n, l) := by
  obtain ⟨hi, hf⟩ := offsetOf_none_exact h.capLe h.oneLe h.leCap h.offset
  rcases l.read_cases .none with ⟨hshort, -⟩ | ⟨-, hread⟩
  · exact absurd hshort (not_lt.2 (h.oneLe.trans h.leCap))
  · rw [hread, Smoother.next_rest h.atRest, DelayLine.readAt, hi, l.readNone_of_zero n hf]

theorem DelayLine.RestsAt.push (h : l.RestsAt phys n) (x : F32) : (l.push x).RestsAt phys n := by
  obtain ⟨hcap, hrate, hdly, -⟩ := l.push_keeps x
  exact ⟨h.ok.push x, hcap ▸ h.capLe, h.oneLe, hcap ▸ h.leCap, hdly ▸ h.atRest,
    by rw [hdly, hrate]; exact h.offset⟩

theorem DelayLine.RestsAt.readThenPush_cons (h : l.RestsAt phys n) (x : F32) (xs : List F32) :
    l.readThenPush (x :: xs) = l.age n :: (l.push x).readThenPush xs := by
  rw [DelayLine.readThenPush, h.read_none]

theorem DelayLine.RestsAt.pushThenRead_cons (h : l.RestsAt phys n) (x : F32) (xs : List F32) :
    l.pushThenRead (x :: xs) = (l.push x).age n :: (l.push x).pushThenRead xs := by
  rw [DelayLine.pushThenRead, DelayLine.pushAndRead, (h.push x).read_none]

theorem DelayLine.length_readThenPush (l : DelayLine) (xs : List F32) :
    (l.readThenPush xs).length = xs.length := by
  induction xs generalizing l with
  | nil => rfl
  | cons x xs ih => simp only [DelayLine.readThenPush, List.length_cons, ih]

theorem DelayLine.length_pushThenRead (l : DelayLine) (xs : List F32) :
    (l.pushThenRead xs).length = xs.length := by
  induction xs generalizing l with
  | nil => rfl
  | cons x xs ih => simp only [DelayLine.pushThenRead, List.length_cons, ih]

/-- Output j of read-then-push is what the line held at age n - j, and then the inputs in order. -/
theorem DelayLine.RestsAt.readThenPush_getD (h : l.RestsAt phys n) (xs : List F32) {j : Nat}
    (hj : j < xs.length) :
    (l.readThenPush xs).getD j f0 = if j < n then l.age (n - j) else xs.getD (j - n) f0 := by
  induction xs generalizing l j with
  | nil => cases hj
  | cons x xs ih =>
    have hn := h.oneLe
    have hcap := h.leCap
    rw [h.readThenPush_cons]
    cases j with
    | zero => rw [List.getD_cons_zero, if_pos (by omega), Nat.sub_zero]
    | succ j =>
      rw [List.getD_cons_succ, ih (h.push x) (Nat.lt_of_succ_lt_succ hj)]
      rcases lt_trichotomy (j + 1) n with hlt | rfl | hgt
      · rw [if_pos (by omega), if_pos hlt, show n - j = n - (j + 1) + 1 by omega,
          DelayLine.age_push h.ok x (by omega) (by omega)]
      · rw [if_pos j.lt_succ_self, if_neg (lt_irrefl _), Nat.add_sub_cancel_left, Nat.sub_self,
          List.getD_cons_zero, DelayLine.age_one_push h.ok x (by omega)]
      · rw [if_neg (by omega), if_neg (by omega), Nat.succ_sub (by omega), List.getD_cons_succ]

/-- Push-then-read runs one step ahead of read-then-push: a further read-then-push step shows its last
output. -/
theorem DelayLine.RestsAt.readThenPush_append (h : l.RestsAt phys n) (xs : List F32) (y : F32) :
    l.readThenPush (xs ++ [y]) = l.age n :: l.pushThenRead xs := by
  induction xs generalizing l with
  | nil => exact h.readThenPush_cons y []
  | cons x xs ih =>
    rw [List.cons_append, h.readThenPush_cons, ih (h.push x), h.pushThenRead_cons]

theorem DelayLine.RestsAt.pushThenRead_getD (h : l.RestsAt phys n) (xs : List F32) {j : Nat}
    (hj : j < xs.length) :
    (l.pushThenRead xs).getD j f0 =
      if j + 1 < n then l.age (n - (j + 1)) else xs.getD (j + 1 - n) f0 := by
  have hn := h.oneLe
  have hahead := h.readThenPush_getD (xs ++ [f0]) (j := j + 1) (by simpa using hj)
  rw [h.readThenPush_append, List.getD_cons_succ] at hahead
  rw [hahead, List.getD_append _ _ _ _ (by omega)]

/-- On a cleared line every age is +0.0. -/
theorem DelayLine.age_cleared (hclear : ∀ j, j < l.cap → l.slot j = f0) (hcap : 0 < l.cap) (k : Nat) :
    l.age k = f0 := hclear _ (Nat.mod_lt _ hcap)

end

/-- Settles O53: the outputs are the ages of the line and then the inputs, and a cleared line has +0.0
at every age. -/
theorem delayIsExact : Obligations.DelayIsExact := by
  intro phys n l xs hok hcap h1 hn hclear hrest hoff
  have h : l.RestsAt phys n := ⟨hok, hcap, h1, hn, hrest, hoff⟩
  have hzero := DelayLine.age_cleared hclear (by omega)
  refine ⟨l.length_readThenPush xs, l.length_pushThenRead xs, fun j hj => ⟨?_, ?_⟩⟩
  · rw [h.readThenPush_getD xs hj, hzero]
  · rw [h.pushThenRead_getD xs hj, hzero]

/-! ### What a read returns (R115 to R118) -/

theorem DelayLine.read_snd (l : DelayLine) (mode : Interp) :
    (l.read mode).2 = { l with dly := l.dly.next.2 } := rfl

/-- With no fraction every mode answers S(i) (R116 to R118). -/
theorem DelayLine.readAt_of_zero (l : DelayLine) (mode : Interp) (i : Nat) {f : F32}
    (hf : fEq f f0 = true) : l.readAt mode i f = l.age i := by
  cases mode with
  | none => exact l.readNone_of_zero i hf
  | linear => exact if_pos hf
  | cubic => exact if_pos hf

/-- With a fraction each mode answers its own blend of the neighbours (R116 to R118). -/
theorem DelayLine.readAt_of_ne_zero (l : DelayLine) (mode : Interp) (i : Nat) {f : F32}
    (hf : fEq f f0 = false) :
    l.readAt mode i f = match mode with
      | .none => l.age (i + 1)
      | .linear => fAdd (l.age i) (fMul f (fSub (l.age (i + 1)) (l.age i)))
      | .cubic => catmullRom (l.age (i - 1)) (l.age i) (l.age (i + 1)) (l.age (i + 2)) f := by
  have hne : ¬fEq f f0 = true := by rw [hf]; decide
  cases mode with
  | none => exact if_neg hne
  | linear => exact if_neg hne
  | cubic => exact if_neg hne

/-- With too few slots for the mode a read answers +0.0 (R115). -/
theorem DelayLine.read_sentinel {l : DelayLine} {mode : Interp} (h : l.cap < needSlots mode) :
    (l.read mode).1 = f0 := by
  rcases l.read_cases mode with ⟨-, hread⟩ | ⟨hneed, -⟩
  · rw [hread]
  · omega

/-- With enough slots a read answers the value at the clamped offset (R116 to R118). -/
theorem DelayLine.read_value {l : DelayLine} {mode : Interp} (h : needSlots mode ≤ l.cap) :
    (l.read mode).1 = l.readAt mode (offsetOf mode l.cap l.rate l.dly.next.1).1
      (offsetOf mode l.cap l.rate l.dly.next.1).2 := by
  rcases l.read_cases mode with ⟨hshort, -⟩ | ⟨-, hread⟩
  · omega
  · rw [hread]

/-- Settles O52: the sentinel, and the value at the clamped offset with and without a fraction. -/
theorem zeroFractionIsPassthrough : Obligations.ZeroFractionIsPassthrough := by
  intro l mode t need lo hi d i f p0 p1 p2 p3 c1 c2 c3
  have hneed : need = needSlots mode := by cases mode <;> rfl
  have hlo : lo = minOffset mode := by cases mode <;> rfl
  have hhi : hi = maxOffset l.cap mode := by cases mode <;> rfl
  have hoffset : offsetOf mode l.cap l.rate t.1 = (i, f) := by
    rw [offsetOf, ← hlo, ← hhi]
  have hvalue (h : need ≤ l.cap) : (l.read mode).1 = l.readAt mode i f := by
    rw [DelayLine.read_value (hneed ▸ h), hoffset]
  refine ⟨l.read_snd mode, fun h => DelayLine.read_sentinel (hneed ▸ h), fun h hf => ?_,
    fun h hf => ?_⟩
  · rw [hvalue h, l.readAt_of_zero mode i hf]
  · rw [hvalue h, l.readAt_of_ne_zero mode i hf]
    cases mode <;> rfl

end Sys2Proof.Machine

/-! ### The doubler: one sample (R131) -/

namespace Sys2Proof.Machine

/-- The wet path taps the delayed sample itself, not the feedback sum (R131). -/
theorem Doubler.process_fst (d : Doubler) (x : F32) :
    (d.process x).1 = fAdd x (fMul (d.line.read d.mode).1 d.wet) := rfl

/-- The feedback sum is pushed on the line that the read left, so no sample hears its own push; the
gains and the mode stay (R131). -/
theorem Doubler.process_snd (d : Doubler) (x : F32) :
    (d.process x).2 =
      { d with
        line := (d.line.read d.mode).2.push (fAdd x (fMul (d.line.read d.mode).1 d.fb)) } := rfl

/-- Settles O58: the output and the doubler after it, each by its own rule. -/
theorem doublerReadsThenPushes : Obligations.DoublerReadsThenPushes :=
  fun d x => Prod.ext (d.process_fst x) (d.process_snd x)

end Sys2Proof.Machine

/-! ### The biquad: one sample, and a list of samples (R143, R145) -/

namespace Sys2Proof.Machine

/-- A disabled biquad hands its input on and keeps its registers (R145). -/
theorem Biquad.process_of_disabled {b : Biquad} (hb : b.enabled = false) (x : F32) :
    b.process x = (x, b) :=
  if_neg (hb ▸ Bool.false_ne_true)

theorem Biquad.processAll_cons (b : Biquad) (x : F32) (t : List F32) :
    b.processAll (x :: t) =
      ((b.process x).1 :: ((b.process x).2.processAll t).1, ((b.process x).2.processAll t).2) := rfl

/-- Settles O54, by induction on the samples: each is answered with itself by the biquad the next one
meets. -/
theorem disabledBiquadPassesThrough : Obligations.DisabledBiquadPassesThrough := by
  intro b xs hb
  induction xs with
  | nil => rfl
  | cons x t ih => rw [Biquad.processAll_cons, Biquad.process_of_disabled hb, ih]

/-- Settles O55: the branch `process` takes for an enabled biquad, in which the new z1 reads the z2 of
the biquad before the sample. -/
theorem biquadRecurrence : Obligations.BiquadRecurrence := by
  intro b x hb y
  rw [Biquad.process, if_pos hb]

end Sys2Proof.Machine

/-! ### The reverb: one sample through a comb, and one stereo frame (R161 to R164) -/

namespace Sys2Proof.Machine

/-! #### The two loops of R161 over a bank -/

/-- When no unit's step reads the value handed on, threading collects the units' outputs in ascending j
and updates each unit on its own. -/
theorem Eight.thread_collect {α β γ : Type} (op : β → γ → β) (f : α → γ × α) (b : β) (v : Eight α) :
    v.thread (fun acc c => (op acc (f c).1, (f c).2)) b =
      ((v.toList.map fun c => (f c).1).foldl op b, v.map fun c => (f c).2) := rfl

/-- Step 2 of R161: every early comb hears the same input, and the sum starts at +0.0. -/
theorem earlySum_eq (mode : Interp) (v : Eight EarlyComb) (input damp fb : F32) :
    earlySum mode v input damp fb =
      ((v.toList.map fun c => (c.process mode input damp fb).1).foldl fAdd f0,
        v.map fun c => (c.process mode input damp fb).2) := by
  rw [earlySum, ← v.thread_collect fAdd (fun c => c.process mode input damp fb)]

/-- Step 3 of R161: each late comb hears what the one before it returns. -/
theorem lateChain_eq (mode : Interp) (v : Four LateComb) (x : F32) :
    lateChain mode v x =
      let t0 := v.c0.process mode x
      let t1 := v.c1.process mode t0.1
      let t2 := v.c2.process mode t1.1
      let t3 := v.c3.process mode t2.1
      (t3.1, ⟨t0.2, t1.2, t2.2, t3.2⟩) := rfl

/-! #### One comb (R162, R163) -/

/-- The early comb answers the delayed sample itself, before any damping (R162). -/
theorem EarlyComb.process_fst (mode : Interp) (c : EarlyComb) (input damp fb : F32) :
    (c.process mode input damp fb).1 = (c.line.read mode).1 := rfl

/-- The feedback is taken from the store after its update, not from the delayed sample (R162). -/
theorem EarlyComb.process_snd (mode : Interp) (c : EarlyComb) (input damp fb : F32) :
    (c.process mode input damp fb).2 =
      let t := c.line.read mode
      let damped := fAdd t.1 (fMul damp (fSub c.store t.1))
      { line := t.2.push (fAdd input (fMul damped fb)), store := damped } := rfl

/-- The late comb inverts its input (R163). -/
theorem LateComb.process_fst (mode : Interp) (c : LateComb) (x : F32) :
    (c.process mode x).1 = fSub (c.line.read mode).1 x := rfl

/-- The late comb feeds back LATE_FB = 0.5 of the delayed sample (R8, R163). -/
theorem LateComb.process_snd (mode : Interp) (c : LateComb) (x : F32) :
    (c.process mode x).2 =
      { line := (c.line.read mode).2.push (fAdd x (fMul (c.line.read mode).1 0x3F000000#32)) } := rfl

/-- Settles O59: the combs by their own rules, and the frame by the rules of the two loops it runs in
each channel. -/
theorem reverbCombs : Obligations.ReverbCombs := by
  refine ⟨fun mode e c input damp fb x => ⟨?early, ?late⟩, fun p r inL inR => ?frame⟩
  case early => exact Prod.ext (e.process_fst mode input damp fb) (e.process_snd mode input damp fb)
  case late => exact Prod.ext (c.process_fst mode x) (c.process_snd mode x)
  case frame =>
    intro input damp fb dry w1 w2 early sum t0 t1 t2 t3 late lateL lateR
    have hearly (v : Eight EarlyComb) :
        earlySum p.revInterp v input damp.1 fb.1 = (sum v, v.map fun c => (early c).2) :=
      earlySum_eq p.revInterp v input damp.1 fb.1
    have hlate (v : Four LateComb) (x : F32) : lateChain p.revInterp v x = ((t3 v x).1, late v x) :=
      lateChain_eq p.revInterp v x
    simp only [Reverb.process, mixOut]
    rw [show pregain = 0x3C088889#32 from rfl, hearly, hearly, hlate, hlate]

end Sys2Proof.Machine

/-! ### The pending set and a frame step (R187, R188) -/

namespace Sys2Proof.Machine

/-- Settles O15, one lemma for each of the two cases of a pending set. -/
theorem pendingSetCommitsWhole : Obligations.PendingSetCommitsWhole :=
  fun _ _ => ⟨State.applyPending_some, State.applyPending_none⟩

/-- Applying the pending set neither reads nor writes the schedule. -/
theorem State.applyPending_sched (p : Params) (s : State) (l : List Event) :
    State.applyPending p { s with sched := l } = { s.applyPending p with sched := l } := by
  rw [State.applyPending_eq, State.applyPending_eq]

/-- The outputs of the datapath in a frame step, before the clamp (R188). -/
def State.frameOutputs (p : Params) (r : Run) (s : State) : F32 × F32 :=
  ((s.applyPending p).dp.frame p (s.ramRead (r.lb + r.i)) (s.ramRead (r.rb + r.i))).1

/-- A frame step touches the sample RAM as two writes do, the right output last (R188). -/
theorem State.ramByte_frame (p : Params) (r : Run) (s : State) (a : Nat) :
    (s.frame p r).ramByte a =
      ((s.ramWrite (r.lb + r.i) (outClamp (s.frameOutputs p r).1)).ramWrite (r.rb + r.i)
        (outClamp (s.frameOutputs p r).2)).ramByte a := by
  rw [State.frame_eq]
  rfl

theorem State.ramRead_frame (p : Params) (r : Run) (s : State) (k : Nat) :
    (s.frame p r).ramRead k =
      ((s.ramWrite (r.lb + r.i) (outClamp (s.frameOutputs p r).1)).ramWrite (r.rb + r.i)
        (outClamp (s.frameOutputs p r).2)).ramRead k := by
  simp only [State.ramRead, State.ramByte_frame]

theorem State.ramRead_frame_right (p : Params) (r : Run) (s : State) :
    (s.frame p r).ramRead (r.rb + r.i) = outClamp (s.frameOutputs p r).2 := by
  rw [State.ramRead_frame, State.ramRead_ramWrite_self]

/-- The left output stays where the right one does not overwrite it. -/
theorem State.ramRead_frame_left (p : Params) {r : Run} (s : State) (h : r.lb ≠ r.rb) :
    (s.frame p r).ramRead (r.lb + r.i) = outClamp (s.frameOutputs p r).1 := by
  rw [State.ramRead_frame, State.ramRead_ramWrite_of_ne (by omega), State.ramRead_ramWrite_self]

/-- Settles O14: the record is `State.frame_eq`, and the sample RAM is that of the two writes. -/
theorem frameStepInPlace : Obligations.FrameStepInPlace := by
  intro s rest r hturn hrun hi d cL cR lL lR hL hR v
  refine ⟨State.frame Config.kso r { s with sched := rest }, ?step, ?record, ?right, ?left, ?bytes⟩
  case step =>
    rw [step_core hturn]
    exact congrArg _ (State.coreStep_frame (s := { s with sched := rest }) hrun hi)
  case record =>
    rw [State.frame_eq, State.applyPending_sched]
    rfl
  case right =>
    rw [State.ramRead_frame_right, State.frameOutputs, State.applyPending_sched]
    rfl
  case left =>
    intro hne
    rw [State.ramRead_frame_left _ _ hne, State.frameOutputs, State.applyPending_sched]
    rfl
  case bytes =>
    intro a hleft hright
    rw [State.ramByte_frame,
      State.ramByte_ramWrite_of_outside (by simp only [ramByteAddr, ramBase]; omega),
      State.ramByte_ramWrite_of_outside (by simp only [ramByteAddr, ramBase]; omega)]
    rfl

end Sys2Proof.Machine

/-! ### What a PROCESS has written stays in [-1.2, 1.2] (R190) -/

namespace Sys2Proof.Machine

theorem outOk_outClamp (x : F32) : outOk (outClamp x) = true := outClamp_inRange x

/-- Writing an allowed word keeps every allowed word allowed, the written one too. -/
theorem State.outOk_ramWrite {s : State} {k j : Nat} {v : Word} (hv : outOk v = true)
    (h : j = k ∨ outOk (s.ramRead j) = true) : outOk ((s.ramWrite k v).ramRead j) = true := by
  by_cases hjk : j = k
  · subst hjk
    rwa [State.ramRead_ramWrite_self]
  · rw [State.ramRead_ramWrite_of_ne hjk]
    exact h.resolve_left hjk

/-- After a frame step the two words of the frame are allowed, and so is every word that was, however
the two buffers overlap. -/
theorem State.outOk_frame {p : Params} {r : Run} {s : State} {k : Nat}
    (h : k = r.lb + r.i ∨ k = r.rb + r.i ∨ outOk (s.ramRead k) = true) :
    outOk ((s.frame p r).ramRead k) = true := by
  rw [State.ramRead_frame]
  refine State.outOk_ramWrite (outOk_outClamp _) ?_
  rcases h with hl | hr | hok
  · exact .inr (State.outOk_ramWrite (outOk_outClamp _) (.inl hl))
  · exact .inl hr
  · exact .inr (State.outOk_ramWrite (outOk_outClamp _) (.inr hok))

/-- `State.WrittenOk` of the frames inside the buffers alone: every step keeps it without knowing that
the frame index stays inside them. -/
def State.WrittenInBuffersOk (s : State) : Prop :=
  ∀ r, s.run = some r → ∀ j, j < r.i → j < r.n →
    outOk (s.ramRead (r.lb + j)) = true ∧ outOk (s.ramRead (r.rb + j)) = true

theorem State.WrittenOk.inBuffers {s : State} (h : s.WrittenOk) : s.WrittenInBuffersOk :=
  fun r hr j hj _ => h r hr j hj

/-- The frame index of a well-formed PROCESS stays inside its buffers (R36). -/
theorem State.WrittenInBuffersOk.writtenOk {p : Params} {s : State} (hc : s.ControlOk p)
    (h : s.WrittenInBuffersOk) : s.WrittenOk := by
  intro r hr j hj
  obtain ⟨-, ⟨hrun, -⟩, -⟩ := hc
  obtain ⟨⟨-, -, -, -, -, hi⟩, -⟩ := hrun r hr
  exact h r hr j hj (by omega)

theorem State.WrittenInBuffersOk.of_idle {s : State} (h : s.run = none) : s.WrittenInBuffersOk :=
  fun _ hr => Option.noConfusion rfl (heq_of_eq (h.symm.trans hr))

theorem State.WrittenInBuffersOk.frame {p : Params} {s : State} (h : s.WrittenInBuffersOk) {r : Run}
    (hr : s.run = some r) : (s.frame p r).WrittenInBuffersOk := by
  intro r' hr' j hj hn
  have hnext : r' = { r with i := r.i + 1 } := by
    rw [State.frame_eq] at hr'
    exact (Option.some.inj hr').symm
  subst hnext
  rcases (Nat.lt_succ_iff_lt_or_eq.1 hj : j < r.i ∨ j = r.i) with hlt | rfl
  · obtain ⟨hleft, hright⟩ := h r hr j hlt hn
    exact ⟨State.outOk_frame (.inr (.inr hleft)), State.outOk_frame (.inr (.inr hright))⟩
  · exact ⟨State.outOk_frame (.inl rfl), State.outOk_frame (.inr (.inl rfl))⟩

theorem State.WrittenInBuffersOk.coreStep {p : Params} {s : State} (h : s.WrittenInBuffersOk) :
    (s.coreStep p).WrittenInBuffersOk := by
  rcases State.coreStep_cases p s with ⟨-, hc⟩ | ⟨r, hr, -, hc⟩ | ⟨r, -, -, hc⟩ | ⟨r, -, -, hc⟩ <;>
    rw [hc]
  · exact h
  · exact h.frame hr
  · exact .of_idle rfl
  · exact h

/-- An accepted PROCESS has written nothing yet (R199). -/
theorem State.WrittenInBuffersOk.process {p : Params} {s : State} (h : s.WrittenInBuffersOk) :
    (s.process p).WrittenInBuffersOk := by
  rcases State.process_cases p s with ⟨-, hc⟩ | ⟨-, -, hc⟩ | ⟨-, -, -, hc⟩ | ⟨-, -, -, -, hc⟩ |
    ⟨-, -, -, -, hc⟩ <;> rw [hc]
  · exact h
  · exact h
  · exact h
  · exact h
  · intro r hr j hj
    cases hr
    exact absurd hj (Nat.not_lt_zero j)

/-- An unraced host write lies outside both buffers (R68). -/
theorem State.WrittenInBuffersOk.ramWrite {s : State} (h : s.WrittenInBuffersOk) {k : Nat} (v : Word)
    (hk : s.races k = false) : (s.ramWrite k v).WrittenInBuffersOk := by
  intro r hr j hj hn
  have hout : ¬((r.lb ≤ k ∧ k < r.lb + r.n) ∨ (r.rb ≤ k ∧ k < r.rb + r.n)) := fun hin =>
    Bool.false_ne_true (hk.symm.trans (State.races_iff.2 ⟨r, hr, hin⟩))
  rw [State.ramRead_ramWrite_of_ne (by omega), State.ramRead_ramWrite_of_ne (by omega)]
  exact h r hr j hj hn

theorem step_keeps_writtenInBuffersOk {s t : State} (hs : s.WrittenInBuffersOk)
    (h : step s = .next t) : t.WrittenInBuffersOk := by
  refine step_keeps State.WrittenInBuffersOk ?sched ?bus ?core ?exec ?illegal ?reg ?ram ?reset hs h
  case sched => exact fun _ _ hs => hs
  case bus => exact fun _ _ hs => hs
  case core => exact fun _ hs => hs.coreStep
  case exec =>
    refine exec_keeps (fun _ hs => hs) (fun s hs => ?_) (fun s hs => ?_) fun _ hs => hs.process
    · rw [State.prepare_frame]
      exact hs
    · rw [State.setParameters_frame]
      exact hs
  case illegal => exact fun _ hs => hs
  case reg =>
    intro s v r _ hs
    rw [State.writeReg_frame]
    exact hs
  case ram => exact fun _ _ v hk hs => hs.ramWrite v hk
  case reset => exact fun _ _ => .of_idle rfl

/-- A core step that ends a PROCESS is the completion after its last frame, and leaves the sample RAM
as it was (R200). -/
theorem State.coreStep_ends {p : Params} {s : State} {r : Run} (hr : s.run = some r)
    (hend : (s.coreStep p).run = none) :
    r.i = r.n ∧ ∀ k, (s.coreStep p).ramRead k = s.ramRead k := by
  rcases State.coreStep_cases p s with ⟨hidle, -⟩ | ⟨r', -, -, hc⟩ | ⟨r', hr', hi, hc⟩ | ⟨r', -, -, hc⟩
  · exact Option.noConfusion rfl (heq_of_eq (hidle.symm.trans hr))
  · rw [hc, State.frame_eq] at hend
    exact nomatch hend
  · cases hr.symm.trans hr'
    rw [hc, State.complete_eq]
    exact ⟨hi, fun _ => rfl⟩
  · rw [hc, hr] at hend
    exact nomatch hend

/-- Settles O46: a frame writes clamped words, host writes stay off the buffers, and at the completion
the words written so far are all of both buffers. -/
theorem stepKeepsOutputsBounded : Obligations.StepKeepsOutputsBounded := by
  intro s t hc hs h
  refine ⟨(step_keeps_writtenInBuffersOk hs.inBuffers h).writtenOk (stepKeepsControl s t hc h), ?_⟩
  intro r rest hturn hr hend j hj
  rw [step_core hturn, Host.Outcome.next.injEq] at h
  subst h
  obtain ⟨hi, hram⟩ := State.coreStep_ends (s := { s with sched := rest }) hr hend
  rw [hram, hram]
  exact hs r hr j (by omega)

end Sys2Proof.Machine

/-! ### The core sequencer keeps every capacity (R192) -/

namespace Sys2Proof.Machine

section
variable {α β γ : Type}

/-! What each unit of a bank keeps, the bank keeps in order. -/

theorem Eight.map_toList_zipWith {f : α → β → α} {g : α → γ} (hf : ∀ x y, g (f x y) = g x)
    (u : Eight α) (v : Eight β) : (u.zipWith f v).toList.map g = u.toList.map g := by
  simp only [Eight.zipWith, Eight.toList, List.map_cons, List.map_nil, hf]

theorem Four.map_toList_zipWith {f : α → β → α} {g : α → γ} (hf : ∀ x y, g (f x y) = g x)
    (u : Four α) (v : Four β) : (u.zipWith f v).toList.map g = u.toList.map g := by
  simp only [Four.zipWith, Four.toList, List.map_cons, List.map_nil, hf]

theorem Eight.map_toList_thread {f : β → α → β × α} {g : α → γ} (hf : ∀ b x, g (f b x).2 = g x)
    (b : β) (v : Eight α) : (v.thread f b).2.toList.map g = v.toList.map g := by
  simp only [Eight.thread, Eight.toList, List.map_cons, List.map_nil, hf]

theorem Four.map_toList_thread {f : β → α → β × α} {g : α → γ} (hf : ∀ b x, g (f b x).2 = g x)
    (b : β) (v : Four α) : (v.thread f b).2.toList.map g = v.toList.map g := by
  simp only [Four.thread, Four.toList, List.map_cons, List.map_nil, hf]

end

theorem DelayLine.cap_setDelayTime (l : DelayLine) (sec dur : F32) :
    (l.setDelayTime sec dur).cap = l.cap := (l.setDelayTime_geometry sec dur).cap

/-- What every unit does to its line in a frame (R131, R162, R163) keeps the capacity. -/
theorem DelayLine.cap_readPush (l : DelayLine) (mode : Interp) (x : F32) :
    ((l.read mode).2.push x).cap = l.cap := by
  obtain ⟨hcap, -⟩ := (l.read mode).2.push_keeps x
  rw [hcap, (l.read_geometry mode).cap]

/-- The four banks of the reverb have the same capacities. -/
structure Reverb.SameCaps (r q : Reverb) : Prop where
  earlyL : (q.early.l.toList.map fun c => c.line.cap) = r.early.l.toList.map fun c => c.line.cap
  earlyR : (q.early.r.toList.map fun c => c.line.cap) = r.early.r.toList.map fun c => c.line.cap
  lateL : (q.late.l.toList.map fun c => c.line.cap) = r.late.l.toList.map fun c => c.line.cap
  lateR : (q.late.r.toList.map fun c => c.line.cap) = r.late.r.toList.map fun c => c.line.cap

theorem Reverb.setSpread_sameCaps (p : Params) (r : Reverb) (x : F32) :
    r.SameCaps (r.setSpread p x) where
  earlyL := Eight.map_toList_zipWith (fun c _ => c.line.cap_setDelayTime _ _) _ _
  earlyR := Eight.map_toList_zipWith (fun c _ => c.line.cap_setDelayTime _ _) _ _
  lateL := Four.map_toList_zipWith (fun c _ => c.line.cap_setDelayTime _ _) _ _
  lateR := Four.map_toList_zipWith (fun c _ => c.line.cap_setDelayTime _ _) _ _

/-- Of the five setters of REV_DERIVE only setSpread touches a line (R159, R185). -/
theorem revDerive_sameCaps (p : Params) (a : Amounts) (r : Reverb) : r.SameCaps (revDerive p a r) := by
  obtain ⟨hel, her, hll, hlr⟩ : Reverb.SameCaps _ (revDerive p a r) :=
    Reverb.setSpread_sameCaps p _ _
  exact ⟨hel, her, hll, hlr⟩

theorem earlySum_caps (mode : Interp) (v : Eight EarlyComb) (input damp fb : F32) :
    ((earlySum mode v input damp fb).2.toList.map fun c => c.line.cap) =
      v.toList.map fun c => c.line.cap :=
  Eight.map_toList_thread (g := fun c : EarlyComb => c.line.cap)
    (fun _ c => c.line.cap_readPush mode _) _ _

theorem lateChain_caps (mode : Interp) (v : Four LateComb) (x : F32) :
    ((lateChain mode v x).2.toList.map fun c => c.line.cap) = v.toList.map fun c => c.line.cap :=
  Four.map_toList_thread (g := fun c : LateComb => c.line.cap)
    (fun _ c => c.line.cap_readPush mode _) _ _

theorem Reverb.process_sameCaps (p : Params) (r : Reverb) (xL xR : F32) :
    r.SameCaps (r.process p xL xR).2 where
  earlyL := earlySum_caps ..
  earlyR := earlySum_caps ..
  lateL := lateChain_caps ..
  lateR := lateChain_caps ..

/-- The capacities of the 26 lines, from those of the doublers and the banks. -/
theorem Datapath.caps_eq {d e : Datapath} (hl : e.dbl.l.line.cap = d.dbl.l.line.cap)
    (hr : e.dbl.r.line.cap = d.dbl.r.line.cap) (h : d.rev.SameCaps e.rev) :
    e.lines.map DelayLine.cap = d.lines.map DelayLine.cap := by
  have ⟨hel, her, hll, hlr⟩ := h
  simp only [Datapath.lines, Datapath.doublerLines, Datapath.reverbLines, List.map_append,
    List.map_map, List.map_cons, Function.comp_def, hl, hr, hel, her, hll, hlr]

theorem Datapath.derive_caps (p : Params) (sr : Nat) (a : Amounts) (d : Datapath) :
    (d.derive p sr a).lines.map DelayLine.cap = d.lines.map DelayLine.cap :=
  Datapath.caps_eq (DelayLine.cap_setDelayTime ..) (DelayLine.cap_setDelayTime ..)
    (revDerive_sameCaps p a d.rev)

theorem Datapath.frame_caps (p : Params) (d : Datapath) (xL xR : F32) :
    (d.frame p xL xR).2.lines.map DelayLine.cap = d.lines.map DelayLine.cap :=
  Datapath.caps_eq (DelayLine.cap_readPush ..) (DelayLine.cap_readPush ..)
    (Reverb.process_sameCaps p d.rev _ _)

theorem State.applyPending_caps (p : Params) (s : State) :
    (s.applyPending p).dp.lines.map DelayLine.cap = s.dp.lines.map DelayLine.cap := by
  rcases hm : s.pend with _ | m
  · rw [State.applyPending_none hm]
  · rw [State.applyPending_some hm]
    exact s.dp.derive_caps p s.sr m

theorem State.coreStep_caps (p : Params) (s : State) :
    (s.coreStep p).dp.lines.map DelayLine.cap = s.dp.lines.map DelayLine.cap := by
  rcases State.coreStep_cases p s with ⟨-, hc⟩ | ⟨r, -, -, hc⟩ | ⟨r, -, -, hc⟩ | ⟨r, -, -, hc⟩ <;>
    rw [hc]
  · rw [State.frame_eq]
    exact (Datapath.frame_caps ..).trans (s.applyPending_caps p)
  · rw [State.complete_eq]
    exact s.applyPending_caps p

/-- Settles O19: no unit of a frame, and no setter of DERIVE, moves a capacity. -/
theorem noFrameChangesCapacity : Obligations.NoFrameChangesCapacity := by
  intro s t rest hturn h
  rw [step_core hturn, Host.Outcome.next.injEq] at h
  subst h
  exact State.coreStep_caps Config.kso { s with sched := rest }

end Sys2Proof.Machine

/-! ### DERIVE twice is DERIVE once (R101, R182) -/

namespace Sys2Proof.Machine

/-- A second setTarget of the same pattern changes nothing, a NaN included: it restarts the ramp that
the first one started (R101). -/
theorem Smoother.setTarget_setTarget (s : Smoother) (v : F32) :
    (s.setTarget v).setTarget v = s.setTarget v := by
  rcases hv : isNaN v with _ | _
  · exact s.setTarget_idem hv
  · have hne (t : F32) : fEq v t = false := by simp [fEq, hv]
    by_cases hsteps : s.steps = 0
    · simp [Smoother.setTarget, hne, hsteps]
    · simp [Smoother.setTarget, hne, hsteps]

/-- setDelayTime with the duration the line holds only sets the target (R112). -/
theorem DelayLine.setDelayTime_of_held {l : DelayLine} {dur : F32} (h : fEq dur l.lastSm = true)
    (sec : F32) :
    l.setDelayTime sec dur = { l with dly := l.dly.setTarget (clampF sec f0 l.maxSeconds) } := by
  simp only [DelayLine.setDelayTime, DelayLine.withDuration, if_pos h]

/-- The duration is a number, so the second setDelayTime finds it set and keeps the ramp (R112). -/
theorem DelayLine.setDelayTime_setDelayTime (l : DelayLine) (sec : F32) {dur : F32}
    (h : isNaN dur = false) :
    (l.setDelayTime sec dur).setDelayTime sec dur = l.setDelayTime sec dur := by
  have hdur : fEq dur (l.setDelayTime sec dur).lastSm = true := by
    rw [fEq_comm]
    exact l.setDelayTime_lastSm sec h
  rw [DelayLine.setDelayTime_of_held hdur, (l.setDelayTime_geometry sec dur).maxSeconds]
  simp only [DelayLine.setDelayTime, Smoother.setTarget_setTarget]

theorem Doubler.setParameters_setParameters (d : Doubler) (freq fb wet : F32) (mode : Interp)
    (off : F32) :
    (d.setParameters freq fb wet mode off).setParameters freq fb wet mode off =
      d.setParameters freq fb wet mode off := by
  simp only [Doubler.setParameters,
    d.line.setDelayTime_setDelayTime _ (by decide : isNaN combSmoothS = false)]

/-- Where the coefficients are computed again they are computed from the same numbers (R140). -/
theorem Biquad.configure_configure (p : Params) (srF : F32) (b : Biquad) (c q : F32) (en : Bool) :
    (b.configure p srF c q en).configure p srF c q en = b.configure p srF c q en := by
  rw [Biquad.configure_eq p srF b]
  cases hheld : fEq c b.cutoff && fEq q b.q && fEq srF b.coefRate
  · simp [Biquad.configure_eq]
  · simp only [Bool.and_eq_true] at hheld
    obtain ⟨⟨hc, hq⟩, hrate⟩ := hheld
    simp [Biquad.configure_eq, hrate, fEq_refl (fEq_not_nan hc).1, fEq_refl (fEq_not_nan hq).1]

section
variable {α β : Type} {f : α → β → α}

theorem Eight.zipWith_zipWith (hf : ∀ x y, f (f x y) y = f x y) (u : Eight α) (v : Eight β) :
    (u.zipWith f v).zipWith f v = u.zipWith f v := by
  simp only [Eight.zipWith, hf]

theorem Four.zipWith_zipWith (hf : ∀ x y, f (f x y) y = f x y) (u : Four α) (v : Four β) :
    (u.zipWith f v).zipWith f v = u.zipWith f v := by
  simp only [Four.zipWith, hf]

end

theorem EarlyComb.setDelayTime_setDelayTime (c : EarlyComb) (sec : F32) {dur : F32}
    (h : isNaN dur = false) :
    (c.setDelayTime sec dur).setDelayTime sec dur = c.setDelayTime sec dur := by
  simp only [EarlyComb.setDelayTime, c.line.setDelayTime_setDelayTime sec h]

theorem LateComb.setDelayTime_setDelayTime (c : LateComb) (sec : F32) {dur : F32}
    (h : isNaN dur = false) :
    (c.setDelayTime sec dur).setDelayTime sec dur = c.setDelayTime sec dur := by
  simp only [LateComb.setDelayTime, c.line.setDelayTime_setDelayTime sec h]

/-- REV_DERIVE twice: setMix runs updateWet with the width of the first time, so wet1 and wet2 are
given their final targets again (R160, R185). -/
theorem revDerive_revDerive {p : Params} (hp : p.wf = true) (a : Amounts) (r : Reverb) :
    revDerive p a (revDerive p a r) = revDerive p a r := by
  have hdur := isNaN_revTimeSmoothS hp
  have hearly (f : F32 → F32) (u : Eight EarlyComb) :=
    Eight.zipWith_zipWith (f := fun c seed => c.setDelayTime (f seed) p.revTimeSmoothS)
      (fun c seed => EarlyComb.setDelayTime_setDelayTime c (f seed) hdur) u p.earlySeedS
  have hlate (f : F32 → F32) (u : Four LateComb) :=
    Four.zipWith_zipWith (f := fun c seed => c.setDelayTime (f seed) p.revTimeSmoothS)
      (fun c seed => LateComb.setDelayTime_setDelayTime c (f seed) hdur) u p.lateSeedS
  simp only [revDerive, Reverb.setDamping, Reverb.setSize, Reverb.setMix, Reverb.setWidth,
    Reverb.setSpread, Reverb.updateWet, Smoother.setTarget_setTarget, hearly (fAdd · _),
    hearly (fSub · _), hlate (fAdd · _), hlate (fSub · _)]

/-- R182: a second DERIVE from the same amounts at the same rate changes nothing. -/
theorem Datapath.derive_derive {p : Params} (hp : p.wf = true) (sr : Nat) (a : Amounts) (d : Datapath) :
    (d.derive p sr a).derive p sr a = d.derive p sr a := by
  simp only [Datapath.derive, combDerive, Stereo.map, lpDerive, hpDerive,
    Doubler.setParameters_setParameters, Biquad.configure_configure, revDerive_revDerive hp]

/-! ### SET_PARAMETERS twice (R182, R197, R198) -/

theorem State.setParameters_of_running (p : Params) {s : State} (h : s.run ≠ none) :
    s.setParameters p = s.queueParameters s.macroOperands := by
  simp only [State.setParameters, State.busy_iff.2 h, if_true]

theorem State.setParameters_of_prepared (p : Params) {s : State} (h : s.run = none)
    (hprep : s.prepared = true) :
    s.setParameters p = (State.derive p { s with amounts := s.macroOperands }).accept := by
  simp only [State.setParameters, State.not_busy_iff.2 h, hprep, Bool.false_eq_true, if_false, if_true]

theorem State.setParameters_of_unprepared (p : Params) {s : State} (h : s.run = none)
    (hprep : s.prepared = false) :
    s.setParameters p = State.accept { s with amounts := s.macroOperands } := by
  simp only [State.setParameters, State.not_busy_iff.2 h, hprep, Bool.false_eq_true, if_false]

/-- The second run takes the branch of the first: neither the running PROCESS nor PREPARED changes. -/
theorem State.setParameters_setParameters {p : Params} (hp : p.wf = true) (s : State) :
    (s.setParameters p).setParameters p = s.setParameters p := by
  rcases State.setParameters_cases p s with ⟨hr, hc⟩ | ⟨hr, hprep, hc⟩ | ⟨hr, hprep, hc⟩ <;> rw [hc]
  · exact State.setParameters_of_running p hr
  · refine (State.setParameters_of_prepared p ?run ?prepared).trans ?again
    case run => exact hr
    case prepared => exact hprep
    case again =>
      simp only [State.derive, State.accept, State.macroOperands, Datapath.derive_derive hp]
  · exact State.setParameters_of_unprepared p hr hprep

/-- Settles O11: the meaning of SET_PARAMETERS is idempotent. -/
theorem repeatedSetParametersIsNoOp : Obligations.RepeatedSetParametersIsNoOp := by
  intro s t h
  rw [exec_setParameters, Host.Outcome.next.injEq] at h ⊢
  subst h
  exact State.setParameters_setParameters Config.kso_wf s

end Sys2Proof.Machine

/-! ### The outcomes of the four commands (R195 to R199, R216) -/

namespace Sys2Proof.Machine

/-- Settles O6: NOP is `State.accept`. -/
theorem nopOnlyReportsSuccess : Obligations.NopOnlyReportsSuccess :=
  ⟨decode_command_iff.2 rfl, exec_nop⟩

/-- An operand reads as 0 only where its register holds the word 0 (R82). -/
theorem toNat_eq_zero_iff {w : Word} : w.toNat = 0 ↔ w = 0#32 := BitVec.toNat_inj (y := 0#32)

/-- Settles O7: each case of PREPARE is the branch whose earlier conditions it excludes. -/
theorem prepareOutcomeAndEffect : Obligations.PrepareOutcomeAndEffect := by
  intro s
  rw [exec_prepare, Host.Outcome.next.injEq]
  rcases State.prepare_cases Config.kso s with ⟨hrun, h⟩ |
    ⟨hrun, (hzero : s.sampleRate.toNat = 0), h⟩ |
    ⟨hrun, (hlarge : Config.kso.maxSr < s.sampleRate.toNat), h⟩ |
    ⟨hrun, (hpos : 1 ≤ s.sampleRate.toNat), (hle : s.sampleRate.toNat ≤ Config.kso.maxSr), h⟩ <;>
    rw [h]
  · rw [if_pos hrun]
    rfl
  · rw [if_neg (not_not.2 hrun), if_pos (toNat_eq_zero_iff.1 hzero)]
    rfl
  · have hpos : s.sampleRate.toNat ≠ 0 := by omega
    rw [if_neg (not_not.2 hrun), if_neg (toNat_eq_zero_iff.not.1 hpos), if_pos hlarge]
    rfl
  · rw [if_neg (not_not.2 hrun), if_neg (toNat_eq_zero_iff.not.1 (by omega)),
      if_neg (not_lt.2 hle)]
    rfl

/-- Settles O10: the three cases of SET_PARAMETERS. -/
theorem setParametersOutcomeAndEffect : Obligations.SetParametersOutcomeAndEffect := by
  intro s m
  rw [exec_setParameters, Host.Outcome.next.injEq]
  rcases State.setParameters_cases Config.kso s with ⟨hrun, h⟩ | ⟨hrun, hprep, h⟩ |
    ⟨hrun, hprep, h⟩ <;> rw [h]
  · rw [if_pos hrun]
    rfl
  · rw [if_neg (not_not.2 hrun), if_pos hprep]
    rfl
  · rw [if_neg (not_not.2 hrun), if_neg (ne_true_of_eq_false hprep)]
    rfl

/-- The no-op condition of R199 on the registers themselves. -/
theorem State.noopRequest_iff_regs {s : State} :
    s.noopRequest = true ↔ s.numSamples.toInt ≤ 0 ∨ s.leftBase = 0#32 ∨ s.rightBase = 0#32 := by
  rw [State.noopRequest_iff, State.lbReq, State.rbReq, toNat_eq_zero_iff, toNat_eq_zero_iff,
    State.nReq]

/-- A positive frame count is the same number read as s32 and as u32. -/
theorem State.nReq_eq_toNat {s : State} (h : s.noopRequest = false) :
    s.nReq = s.numSamples.toNat := by
  have hpos : 0 < s.nReq := by
    have := State.noopRequest_iff.not.1 (ne_true_of_eq_false h)
    omega
  unfold State.nReq at hpos ⊢
  rw [BitVec.toInt_eq_toNat_cond] at hpos ⊢
  split_ifs at hpos ⊢ <;> omega

/-- The bound check of R199 in exact integers. -/
theorem State.outOfRam_iff_regs {p : Params} {s : State} (h : s.noopRequest = false) :
    s.outOfRam p = true ↔
      (p.sampleRamWords : Int) < s.leftBase.toNat + s.numSamples.toInt ∨
        (p.sampleRamWords : Int) < s.rightBase.toNat + s.numSamples.toInt := by
  have hn : s.numSamples.toInt = s.numSamples.toNat := State.nReq_eq_toNat h
  simp only [State.outOfRam, State.nReq, State.lbReq, State.rbReq, hn, Int.toNat_natCast,
    Bool.or_eq_true, decide_eq_true_eq]
  omega

/-- Settles O12: the five cases of PROCESS. -/
theorem processOutcomeAndEffect : Obligations.ProcessOutcomeAndEffect := by
  intro s
  rw [exec_process, Host.Outcome.next.injEq]
  rcases State.process_cases Config.kso s with ⟨hrun, h⟩ | ⟨hrun, hnoop, h⟩ |
    ⟨hrun, hnoop, hprep, h⟩ | ⟨hrun, hnoop, hprep, hout, h⟩ | ⟨hrun, hnoop, hprep, hout, h⟩ <;>
    rw [h]
  · rw [if_pos hrun]
    rfl
  · rw [if_neg (not_not.2 hrun), if_pos (State.noopRequest_iff_regs.1 hnoop)]
    rfl
  · have hregs := State.noopRequest_iff_regs.not.1 (ne_true_of_eq_false hnoop)
    rw [if_neg (not_not.2 hrun), if_neg hregs, if_pos hprep]
    rfl
  · have hregs := State.noopRequest_iff_regs.not.1 (ne_true_of_eq_false hnoop)
    rw [if_neg (not_not.2 hrun), if_neg hregs, if_neg (ne_false_of_eq_true hprep),
      if_pos ((State.outOfRam_iff_regs hnoop).1 hout)]
    rfl
  · have hregs := State.noopRequest_iff_regs.not.1 (ne_true_of_eq_false hnoop)
    rw [if_neg (not_not.2 hrun), if_neg hregs, if_neg (ne_false_of_eq_true hprep),
      if_neg ((State.outOfRam_iff_regs hnoop).not.1 (ne_true_of_eq_false hout)), State.startProcess,
      State.nReq_eq_toNat hnoop]
    rfl

/-- What SET_PARAMETERS answers while a PROCESS runs (R198). -/
theorem eq_queueParameters_of_running {s t : State} (h : exec .setParameters s = .next t)
    (hrun : s.run ≠ none) : t = s.queueParameters s.macroOperands := by
  rw [exec_setParameters, Host.Outcome.next.injEq] at h
  exact h.symm.trans (State.setParameters_of_running Config.kso hrun)

/-- Settles O16: behind a running PROCESS both only queue, and the second set replaces the first. -/
theorem lastPendingSetWins : Obligations.LastPendingSetWins := by
  intro s t u a b c d hrun hfirst hsecond
  obtain rfl := eq_queueParameters_of_running hfirst hrun
  obtain rfl := eq_queueParameters_of_running hsecond hrun
  exact ⟨rfl, rfl, congrArg Host.Outcome.next (State.setParameters_of_running Config.kso
    (s := { s with macroDoubler := a, macroFilter := b, macroReverb := c, macroMaster := d }) hrun)⟩

/-- Settles O17: the step is `State.complete`, which ends the PROCESS on the record of
`applyPending_eq`. -/
theorem completionStep : Obligations.CompletionStep := by
  intro s rest r hturn hrun hi
  rw [step_core hturn, Host.Outcome.next.injEq,
    State.coreStep_complete (s := { s with sched := rest }) hrun hi]
  exact congrArg (fun t : State => { t with run := none, done := true })
    (State.applyPending_eq Config.kso { s with sched := rest })

end Sys2Proof.Machine

/-! ### Blocks of frames (R188, R199, R200, R202) -/

namespace Sys2Proof.Machine

/-- What a frame at the words l and r makes of the datapath and the sample RAM, with no set pending
(R188): the part of a frame step that neither reads nor writes the running PROCESS. -/
def State.frameAt (p : Params) (l r : Nat) (s : State) : State :=
  let t := s.dp.frame p (s.ramRead l) (s.ramRead r)
  { s with dp := t.2, ram := (s.ram.writeWord l (outClamp t.1.1)).writeWord r (outClamp t.1.2) }

/-- k frames over the words that follow each other from lb and from rb on. -/
def State.framesAt (p : Params) (lb rb : Nat) : Nat → State → State
  | 0, s => s
  | k + 1, s => (s.framesAt p lb rb k).frameAt p (lb + k) (rb + k)

/-- s with the first i frames of a PROCESS of n frames at lb and rb done. -/
def State.inFrames (p : Params) (n lb rb i : Nat) (s : State) : State :=
  { s.framesAt p lb rb i with run := some ⟨n, lb, rb, i⟩, fidx := i }

/-- A frame step with no set pending is `frameAt`, and counts the frame (R188). -/
theorem State.frame_of_not_pending {p : Params} {s : State} (h : s.pend = none) (r : Run) :
    s.frame p r =
      { s.frameAt p (r.lb + r.i) (r.rb + r.i) with
        run := some { r with i := r.i + 1 }
        fidx := r.i + 1 } := by
  unfold State.frame
  rw [State.applyPending_none h]
  rfl

/-- The completion with no set pending (R200). -/
theorem State.complete_of_not_pending {p : Params} {s : State} (h : s.pend = none) :
    s.complete p = { s with run := none, done := true } := by
  unfold State.complete
  rw [State.applyPending_none h]

section
variable (p : Params) (lb rb : Nat) (s : State)

/-- Frames change the datapath and the sample RAM alone. -/
theorem State.framesAt_frame (k : Nat) :
    s.framesAt p lb rb k =
      { s with dp := (s.framesAt p lb rb k).dp, ram := (s.framesAt p lb rb k).ram } := by
  induction k with
  | zero => rfl
  | succ k ih =>
    rw [State.framesAt, ih]
    rfl

/-- Frames do not read the running PROCESS, FRAME_INDEX or the flags. -/
theorem State.framesAt_control (k : Nat) (run : Option Run) (fidx : Nat) (done : Bool)
    (err : ErrCode) :
    State.framesAt p lb rb k { s with run, fidx, done, err } =
      { s.framesAt p lb rb k with run, fidx, done, err } := by
  induction k with
  | zero => rfl
  | succ k ih =>
    rw [State.framesAt, ih]
    rfl

/-- n + m frames are n frames, then m frames over the words that follow. -/
theorem State.framesAt_add (n m : Nat) :
    s.framesAt p lb rb (n + m) = (s.framesAt p lb rb n).framesAt p (lb + n) (rb + n) m := by
  induction m with
  | zero => rfl
  | succ m ih =>
    rw [← Nat.add_assoc, State.framesAt, State.framesAt, ih, Nat.add_assoc, Nat.add_assoc]

variable {s}

theorem State.framesAt_pend (h : s.pend = none) (k : Nat) : (s.framesAt p lb rb k).pend = none := by
  rw [State.framesAt_frame]
  exact h

theorem State.framesAt_sched (h : s.sched = []) (k : Nat) : (s.framesAt p lb rb k).sched = [] := by
  rw [State.framesAt_frame]
  exact h

theorem State.inFrames_pend (h : s.pend = none) (n i : Nat) :
    (s.inFrames p n lb rb i).pend = none := State.framesAt_pend p lb rb h i

theorem State.inFrames_sched (h : s.sched = []) (n i : Nat) :
    (s.inFrames p n lb rb i).sched = [] := State.framesAt_sched p lb rb h i

/-- A core step inside a PROCESS does the next frame (R188). -/
theorem State.coreStep_inFrames {n i : Nat} (hpend : s.pend = none) (hi : i < n) :
    (s.inFrames p n lb rb i).coreStep p = s.inFrames p n lb rb (i + 1) := by
  rw [State.coreStep_frame (r := ⟨n, lb, rb, i⟩) rfl hi,
    State.frame_of_not_pending (State.inFrames_pend p lb rb hpend n i)]
  rfl

/-- From the frame index i the rest of the frames and the completion (R200). -/
theorem run_inFrames {n : Nat} (hsched : s.sched = []) (hpend : s.pend = none) (k : Nat) :
    ∀ i, i + k = n →
      Host.Core.run core (k + 1) (s.inFrames Config.kso n lb rb i) =
        .next { s.inFrames Config.kso n lb rb n with run := none, done := true } := by
  induction k with
  | zero =>
    intro i hi
    obtain rfl : i = n := hi
    rw [run_succ (State.inFrames_sched _ lb rb hsched _ i),
      State.coreStep_complete (r := ⟨i, lb, rb, i⟩) rfl rfl,
      State.complete_of_not_pending (State.inFrames_pend _ lb rb hpend i i)]
    rfl
  | succ k ih =>
    intro i hi
    rw [run_succ (State.inFrames_sched _ lb rb hsched _ i),
      State.coreStep_inFrames _ lb rb hpend (by omega)]
    exact ih (i + 1) (by omega)

/-- A PROCESS of n frames from its acceptance to its completion, nothing scheduled or pending (R199,
R200). -/
theorem run_started (n : Nat) (hsched : s.sched = []) (hpend : s.pend = none) :
    Host.Core.run core (n + 1) (s.started n lb rb) =
      .next { s.framesAt Config.kso lb rb n with
        run := none, fidx := n, done := true, err := .noError } := by
  refine (run_inFrames lb rb (s := { s with done := false, err := .noError }) hsched hpend n 0
    (Nat.zero_add n)).trans ?_
  rw [State.inFrames, State.framesAt_control Config.kso lb rb s n s.run s.fidx]

end

/-- Settles O21: both runs do the same n + m frames, by `framesAt_add`. -/
theorem blockSplitIsInvisible : Obligations.BlockSplitIsInvisible := by
  intro s n m lb rb hsched hpend _ _
  refine ⟨_, _, _, run_started lb rb (n + m) hsched hpend, run_started lb rb n hsched hpend,
    run_started (lb + n) (rb + n) m (State.framesAt_sched _ lb rb hsched n)
      (State.framesAt_pend _ lb rb hpend n), rfl, ?_⟩
  rw [State.framesAt_control, State.framesAt_add]

end Sys2Proof.Machine

/-! ### PREPARE twice (R110, R182, R196, R201)

The datapath that PREPARE leaves is a fixed point of clear, and of DERIVE followed by snap. -/

namespace Sys2Proof.Machine

/-! ### DERIVE and snap once more -/

/-- Ending the ramp of a second setTarget of the same pattern: a number finds the target set, and a NaN
restarts a ramp whose increment is the NaN of the first one (R101, R103). -/
theorem Smoother.snap_setTarget_snap (s : Smoother) (v : F32) :
    ((s.setTarget v).snap.setTarget v).snap = (s.setTarget v).snap := by
  rcases hv : isNaN v with _ | _
  · have hset : fEq v (s.setTarget v).snap.tgt = true := s.setTarget_tgt_eq hv
    rw [Smoother.setTarget_of_eq hset]
    rfl
  · have hne (t : F32) : fEq v t = false := by simp [fEq, hv]
    have hstp (x n : F32) : fDiv (fSub v x) n = nan32 := by
      rw [fSub_of_nan (.inl hv), fDiv_of_nan (.inl isNaN_nan32)]
    by_cases hsteps : s.steps = 0
    · simp [Smoother.setTarget, Smoother.snap, Smoother.snapTo, hne, hsteps]
    · simp [Smoother.setTarget, Smoother.snap, Smoother.snapTo, hne, hsteps, hstp]

theorem DelayLine.snap_setDelayTime_snap (l : DelayLine) (sec : F32) {dur : F32}
    (h : isNaN dur = false) :
    ((l.setDelayTime sec dur).snap.setDelayTime sec dur).snap = (l.setDelayTime sec dur).snap := by
  have hdur : fEq dur (l.setDelayTime sec dur).snap.lastSm = true := by
    rw [fEq_comm]
    exact l.setDelayTime_lastSm sec h
  rw [DelayLine.setDelayTime_of_held hdur, (DelayLine.snap_geometry _).maxSeconds,
    (l.setDelayTime_geometry sec dur).maxSeconds]
  simp only [DelayLine.setDelayTime, DelayLine.snap, Smoother.snap_setTarget_snap]

section
variable {α β : Type} {f : α → β → α} {g : α → α}

theorem Eight.map_zipWith_map (h : ∀ x y, g (f (g (f x y)) y) = g (f x y)) (u : Eight α)
    (v : Eight β) : (((u.zipWith f v).map g).zipWith f v).map g = (u.zipWith f v).map g := by
  simp only [Eight.zipWith, Eight.map, h]

theorem Four.map_zipWith_map (h : ∀ x y, g (f (g (f x y)) y) = g (f x y)) (u : Four α)
    (v : Four β) : (((u.zipWith f v).map g).zipWith f v).map g = (u.zipWith f v).map g := by
  simp only [Four.zipWith, Four.map, h]

end

/-- REV_DERIVE and the end of its ramps, once more: setMix runs updateWet with the width of the first
time (R160, R185). -/
theorem Reverb.snap_revDerive_snap {p : Params} (hp : p.wf = true) (a : Amounts) (r : Reverb) :
    (revDerive p a (revDerive p a r).snap).snap = (revDerive p a r).snap := by
  have hdur := isNaN_revTimeSmoothS hp
  have hearly (t : F32 → F32) (u : Eight EarlyComb) :=
    Eight.map_zipWith_map (f := fun c seed => c.setDelayTime (t seed) p.revTimeSmoothS)
      (g := fun c => { c with line := c.line.snap })
      (fun c seed => congrArg (EarlyComb.mk · c.store)
        (c.line.snap_setDelayTime_snap (t seed) hdur)) u p.earlySeedS
  have hlate (t : F32 → F32) (u : Four LateComb) :=
    Four.map_zipWith_map (f := fun c seed => c.setDelayTime (t seed) p.revTimeSmoothS)
      (g := fun c => { c with line := c.line.snap })
      (fun c seed => congrArg LateComb.mk (c.line.snap_setDelayTime_snap (t seed) hdur))
      u p.lateSeedS
  simp only [revDerive, Reverb.setDamping, Reverb.setSize, Reverb.setMix, Reverb.setWidth,
    Reverb.setSpread, Reverb.updateWet, Reverb.snap, Stereo.map, Smoother.setTarget_setTarget,
    Smoother.snap_setTarget_snap, hearly (fAdd · _), hearly (fSub · _), hlate (fAdd · _),
    hlate (fSub · _)]

/-- DERIVE and the end of the ramps, once more from the same amounts at the same rate (R182, R196). -/
theorem Datapath.snap_derive_snap {p : Params} (hp : p.wf = true) (sr : Nat) (a : Amounts)
    (d : Datapath) : ((d.derive p sr a).snap.derive p sr a).snap = (d.derive p sr a).snap := by
  simp only [Datapath.derive, Datapath.snap, combDerive, Doubler.setParameters, Stereo.map, lpDerive,
    hpDerive, Biquad.configure_configure, Reverb.snap_revDerive_snap hp,
    DelayLine.snap_setDelayTime_snap _ _ (by decide : isNaN combSmoothS = false)]

/-! ### Clear once more -/

/-- A smoother at rest with the ramp length of a reset is left as it is by that reset (R100). -/
theorem Smoother.reset_of_atRest {m : Smoother} {rate : Nat} {dur : F32}
    (hsteps : m.steps = rampSteps rate dur) (hcur : m.cur = m.tgt) (hcnt : m.cnt = 0) :
    m.reset rate dur = m := by
  obtain ⟨cur, tgt, cnt, steps, stp⟩ := m
  obtain rfl : steps = rampSteps rate dur := hsteps
  obtain rfl : cur = tgt := hcur
  obtain rfl : cnt = 0 := hcnt
  rfl

/-- A line as PREPARE sizes it, with no slot listed below the capacity: what it cleared, it has taken
out of the list (R110, log entry 9). -/
structure DelayLine.Cleared (sr : Nat) (dur : F32) (l : DelayLine) : Prop
    extends l.PreparedAt sr dur where
  buf : slotsClear l.buf sr = l.buf

theorem slotsClear_slotsClear (buf : List (Nat × F32)) (n : Nat) :
    slotsClear (slotsClear buf n) n = slotsClear buf n := by
  simp [slotsClear, List.filter_filter]

theorem DelayLine.prepare_cleared (l : DelayLine) (sr : Nat) (dur : F32) :
    (l.prepare (sr * 1) sr dur).Cleared sr dur := by
  refine ⟨l.prepare_preparedAt sr dur, ?_⟩
  rw [DelayLine.prepare_second]
  exact slotsClear_slotsClear l.buf sr

theorem DelayLine.Cleared.setDelayTime {sr : Nat} {dur : F32} {l : DelayLine}
    (h : l.Cleared sr dur) (sec : F32) : (l.setDelayTime sec dur).Cleared sr dur := by
  refine ⟨h.toPreparedAt.setDelayTime sec, ?_⟩
  rw [(l.setDelayTime_geometry sec dur).buf]
  exact h.buf

/-- Once its ramp has ended, preparing such a line again changes nothing. -/
theorem DelayLine.Cleared.prepare_snap {sr : Nat} {dur : F32} {l : DelayLine}
    (h : l.Cleared sr dur) : l.snap.prepare (sr * 1) sr dur = l.snap := by
  have hdly : l.dly.snap.reset sr dur = l.dly.snap := Smoother.reset_of_atRest h.steps rfl rfl
  rw [DelayLine.prepare_second, DelayLine.snap_buf, DelayLine.snap_dly, hdly, h.buf,
    DelayLine.snap, ← h.w, ← h.lastSm]
  congr 1
  · exact h.cap.symm
  · exact h.rate.symm

section
variable {α : Type} {f : α → α}

theorem Eight.map_eq_self {v : Eight α} (h : ∀ x ∈ v.toList, f x = x) : v.map f = v := by
  obtain ⟨h0, h1, h2, h3, h4, h5, h6, h7⟩ := Eight.forall_toList.1 h
  simp only [Eight.map, h0, h1, h2, h3, h4, h5, h6, h7]

theorem Four.map_eq_self {v : Four α} (h : ∀ x ∈ v.toList, f x = x) : v.map f = v := by
  obtain ⟨h0, h1, h2, h3⟩ := Four.forall_toList.1 h
  simp only [Four.map, h0, h1, h2, h3]

end

theorem Biquad.prepare_of_cleared {b : Biquad} (h : b.z1 = f0 ∧ b.z2 = f0) : b.prepare = b := by
  obtain ⟨h1, h2⟩ := h
  exact congrArg₂ (fun z1 z2 => ({ b with z1, z2 } : Biquad)) h1.symm h2.symm

theorem EarlyComb.prepare_of_cleared {p : Params} {sr : Nat} {c : EarlyComb}
    (hline : c.line.prepare (sr * 1) sr p.revTimeSmoothS = c.line) (hstore : c.store = f0) :
    c.prepare p sr = c := by
  unfold EarlyComb.prepare
  rw [show revCapS = 1 from rfl, hline, ← hstore]

theorem LateComb.prepare_of_cleared {p : Params} {sr : Nat} {c : LateComb}
    (hline : c.line.prepare (sr * 1) sr p.revTimeSmoothS = c.line) : c.prepare p sr = c :=
  congrArg LateComb.mk hline

/-- What PREPARE clears in the reverb can be found cleared (R165). -/
theorem Reverb.prepare_of_cleared {p : Params} {sr : Nat} {r : Reverb}
    (hlines : r.AllLines fun l => l.prepare (sr * 1) sr p.revTimeSmoothS = l)
    (hstores : ∀ c ∈ r.early.l.toList ++ r.early.r.toList, c.store = f0)
    (hown : ∀ m ∈ r.ownSmoothers, m.reset sr p.revSmoothS = m) : r.prepare p sr = r := by
  obtain ⟨⟨hel, her⟩, hll, hlr⟩ := hlines
  obtain ⟨hsl, hsr⟩ := List.forall_mem_append.1 hstores
  obtain ⟨hdamp, hfb, hdry, hw1, hw2⟩ := r.forall_ownSmoothers.1 hown
  have hearly : r.early.map (Eight.map (EarlyComb.prepare p sr)) = r.early :=
    congrArg₂ Stereo.mk
      (Eight.map_eq_self fun c hc => EarlyComb.prepare_of_cleared (hel c hc) (hsl c hc))
      (Eight.map_eq_self fun c hc => EarlyComb.prepare_of_cleared (her c hc) (hsr c hc))
  have hlate : r.late.map (Four.map (LateComb.prepare p sr)) = r.late :=
    congrArg₂ Stereo.mk (Four.map_eq_self fun c hc => LateComb.prepare_of_cleared (hll c hc))
      (Four.map_eq_self fun c hc => LateComb.prepare_of_cleared (hlr c hc))
  rw [Reverb.prepare, hearly, hlate, hdamp, hfb, hdry, hw1, hw2]

/-- What PREPARE clears in the datapath can be found cleared (R196). -/
theorem Datapath.clear_of_cleared {p : Params} {sr : Nat} {d : Datapath}
    (hdbl : ∀ l ∈ d.doublerLines, l.prepare (sr * 1) sr combSmoothS = l)
    (hbiquads : ∀ b ∈ d.biquads, b.z1 = f0 ∧ b.z2 = f0) (hrev : d.rev.prepare p sr = d.rev) :
    d.clear p sr = d := by
  obtain ⟨hl, hr⟩ := Datapath.forall_doublerLines.1 hdbl
  obtain ⟨hll, hlr, hhl, hhr⟩ := Datapath.forall_biquads.1 hbiquads
  simp only [Datapath.clear, Stereo.map, show combCapS = 1 from rfl, hl, hr, hrev,
    Biquad.prepare_of_cleared hll, Biquad.prepare_of_cleared hlr, Biquad.prepare_of_cleared hhl,
    Biquad.prepare_of_cleared hhr]

section
variable (p : Params) (sr : Nat) (a : Amounts) (d : Datapath)

theorem Datapath.prepare_doublerLines_fixed :
    ∀ l ∈ (d.prepare p sr a).doublerLines, l.prepare (sr * 1) sr combSmoothS = l := by
  rw [Datapath.prepare, Datapath.snap_doublerLines, List.forall_mem_map]
  intro l hl
  refine DelayLine.Cleared.prepare_snap
    (Datapath.derive_doublerLines p sr a _ (fun _ sec h => h.setDelayTime sec) ?_ l hl)
  rw [Datapath.clear_doublerLines, List.forall_mem_map]
  exact fun l _ => l.prepare_cleared sr _

theorem Datapath.prepare_reverbLines_fixed :
    ∀ l ∈ (d.prepare p sr a).reverbLines, l.prepare (sr * 1) sr p.revTimeSmoothS = l := by
  rw [Datapath.prepare, Datapath.snap_reverbLines, List.forall_mem_map]
  intro l hl
  refine DelayLine.Cleared.prepare_snap
    (Datapath.derive_reverbLines p sr a _ (fun _ sec h => h.setDelayTime sec) ?_ l hl)
  rw [Datapath.clear_reverbLines, List.forall_mem_map]
  exact fun l _ => l.prepare_cleared sr _

/-- Every own smoother of the reverb has its ramp length and rests after PREPARE (R165, R196). -/
theorem Datapath.prepare_ownSmoothers_fixed :
    ∀ m ∈ (d.prepare p sr a).rev.ownSmoothers, m.reset sr p.revSmoothS = m := by
  intro m hm
  obtain ⟨hcur, hcnt⟩ := Datapath.snap_atRest _ m (List.mem_append_right _ hm)
  exact Smoother.reset_of_atRest (d.prepare_ownSmoothers p sr a m hm) hcur hcnt

/-- The clearing steps change nothing of what PREPARE left (R196). -/
theorem Datapath.clear_prepare : (d.prepare p sr a).clear p sr = d.prepare p sr a := by
  refine Datapath.clear_of_cleared (d.prepare_doublerLines_fixed p sr a) (fun b hb => ?_)
    (Reverb.prepare_of_cleared
      (Datapath.forall_reverbLines.1 (d.prepare_reverbLines_fixed p sr a))
      (d.prepare_stores p sr a) (d.prepare_ownSmoothers_fixed p sr a))
  obtain ⟨hz1, hz2, -⟩ := d.prepare_biquads p sr a b hb
  exact ⟨hz1, hz2⟩

/-- PREPARE twice at one rate and from the same amounts leaves the datapath of PREPARE once (R201). -/
theorem Datapath.prepare_prepare {p : Params} (hp : p.wf = true) :
    (d.prepare p sr a).prepare p sr a = d.prepare p sr a := by
  rw [Datapath.prepare, Datapath.clear_prepare]
  exact (d.clear p sr).snap_derive_snap hp sr a

end

/-! ### The command twice -/

theorem State.prepareAt_prepareAt {p : Params} (hp : p.wf = true) (sr : Nat) (s : State) :
    (s.prepareAt p sr).prepareAt p sr = s.prepareAt p sr := by
  rw [State.prepareAt, State.prepareAt_dp, State.prepareAt_amounts,
    Datapath.prepare_prepare _ _ _ hp]
  rfl

theorem State.prepare_of_running (p : Params) {s : State} (h : s.run ≠ none) :
    s.prepare p = s.reject .busy := by
  simp only [State.prepare, State.busy_iff.2 h, if_true]

theorem State.prepare_of_zero_rate (p : Params) {s : State} (h : s.run = none) (h0 : s.srReq = 0) :
    s.prepare p = s.reject .badRate := by
  simp only [State.prepare, State.not_busy_iff.2 h, h0, Bool.false_eq_true, if_false, if_true]

theorem State.prepare_of_large_rate {p : Params} {s : State} (h : s.run = none)
    (hlarge : p.maxSr < s.srReq) :
    s.prepare p = State.reject { s with prepared := false, sr := 0 } .capacity := by
  have h0 : s.srReq ≠ 0 := by omega
  simp only [State.prepare, State.not_busy_iff.2 h, h0, hlarge, Bool.false_eq_true, if_false, if_true]

/-- The second run takes the branch of the first: neither the running PROCESS nor SAMPLE_RATE
changes. -/
theorem State.prepare_prepare {p : Params} (hp : p.wf = true) (s : State) :
    (s.prepare p).prepare p = s.prepare p := by
  rcases State.prepare_cases p s with ⟨hrun, h⟩ | ⟨hrun, hzero, h⟩ | ⟨hrun, hlarge, h⟩ |
    ⟨hrun, hpos, hle, h⟩ <;> rw [h]
  · exact State.prepare_of_running p hrun
  · exact State.prepare_of_zero_rate p hrun hzero
  · exact State.prepare_of_large_rate hrun hlarge
  · have h0 : s.sampleRate ≠ 0#32 := toNat_eq_zero_iff.not.1 (Nat.one_le_iff_ne_zero.1 hpos)
    exact (State.prepare_accepted (s := s.prepareAt p s.srReq) hrun h0 hle).trans
      (State.prepareAt_prepareAt hp s.srReq s)

/-- Settles O9: the meaning of PREPARE is idempotent. -/
theorem prepareIsIdempotent : Obligations.PrepareIsIdempotent := by
  intro s t h
  rw [exec_prepare, Host.Outcome.next.injEq] at h ⊢
  subst h
  exact State.prepare_prepare Config.kso_wf s

end Sys2Proof.Machine

/-! ### The reset state, and RESET in one step (R240 to R242) -/

namespace Sys2Proof.Machine

/-- At reset the 26 delay lines are alike (R39). -/
theorem Datapath.lines_reset0 (p : Params) :
    (Datapath.reset0 p).lines = List.replicate 26 DelayLine.reset0 := rfl

/-- At reset the 31 smoothers are alike (R38). -/
theorem Datapath.smoothers_reset0 (p : Params) :
    (Datapath.reset0 p).smoothers = List.replicate 31 Smoother.reset0 := rfl

/-- At reset the 16 early combs are alike (R42). -/
theorem Reverb.earlyCombs_reset0 :
    Reverb.reset0.early.l.toList ++ Reverb.reset0.early.r.toList =
      List.replicate 16 ⟨DelayLine.reset0, f0⟩ := rfl

/-- At reset a biquad differs from another in its constant type alone (R41). -/
theorem Datapath.eq_of_mem_biquads_reset0 {p : Params} {b : Biquad}
    (h : b ∈ (Datapath.reset0 p).biquads) : b = Biquad.reset0 b.type := by
  simp only [Datapath.biquads, List.mem_cons, List.not_mem_nil, or_false] at h
  rcases h with rfl | rfl | rfl | rfl <;> rfl

/-- Settles O37: the fields by their definition, the units by what those of one kind have in common. -/
theorem resetValues : Obligations.ResetValues := by
  refine ⟨?control, fun l hl => ?line, fun m hm => ?smoother, fun d hd => ?doubler,
    fun b hb => ?biquad, fun c hc => ?store, rfl, rfl, rfl, rfl, rfl, rfl⟩
  case control => exact ⟨rfl, rfl, rfl, rfl, rfl, rfl, rfl, rfl, rfl, rfl, rfl, rfl, rfl, rfl, rfl, rfl,
    rfl, rfl, rfl, rfl⟩
  case line =>
    obtain rfl := List.eq_of_mem_replicate (Datapath.lines_reset0 Config.kso ▸ hl)
    exact ⟨rfl, rfl, rfl, rfl⟩
  case smoother => exact List.eq_of_mem_replicate (Datapath.smoothers_reset0 Config.kso ▸ hm)
  case doubler =>
    obtain rfl : d = Doubler.reset0 Config.kso := List.eq_of_mem_replicate (n := 2) hd
    exact ⟨rfl, rfl, rfl⟩
  case biquad =>
    rw [Datapath.eq_of_mem_biquads_reset0 hb]
    exact ⟨rfl, rfl, rfl, rfl, rfl, rfl, rfl⟩
  case store =>
    obtain rfl := List.eq_of_mem_replicate (Reverb.earlyCombs_reset0 ▸ hc)
    rfl

/-- After RESET no byte of the sample RAM is listed, so each reads as a draw of the new count (R242). -/
theorem State.ramByte_hardReset (p : Params) (s : State) (a : Nat) :
    (s.hardReset p).ramByte a = Config.ramDraw (s.ramEpoch + 1) a := rfl

/-- Settles O38: the step is `State.hardReset`. -/
theorem hardResetStep : Obligations.HardResetStep := by
  intro s rest h
  rw [step_hardReset h]
  refine ⟨rfl, fun t ht => ?_⟩
  cases ht
  exact ⟨rfl, rfl, State.ramByte_hardReset _ _⟩

end Sys2Proof.Machine

/-! ### What rejects, and what faults (R215, R217, R222) -/

namespace Sys2Proof.Machine

/-- Settles O13: of the outcomes of each command (R195 to R199), those with a code other than NONE are
the rejections, and only CAPACITY writes more than the code. -/
theorem rejectedCommandOnlySetsErr : Obligations.RejectedCommandOnlySetsErr := by
  intro i s t h herr
  cases i with
  | nop =>
    cases h
    exact absurd rfl herr
  | prepare =>
    rw [exec_prepare, Host.Outcome.next.injEq] at h
    subst h
    rcases State.prepare_cases Config.kso s with ⟨-, h⟩ | ⟨-, -, h⟩ | ⟨-, -, h⟩ | ⟨-, -, -, h⟩ <;>
      rw [h] at herr ⊢
    · rfl
    · rfl
    · rfl
    · exact absurd rfl herr
  | setParameters =>
    rw [exec_setParameters, Host.Outcome.next.injEq] at h
    subst h
    rcases State.setParameters_cases Config.kso s with ⟨-, h⟩ | ⟨-, -, h⟩ | ⟨-, -, h⟩ <;>
      exact absurd (congrArg State.err h) herr
  | process =>
    rw [exec_process, Host.Outcome.next.injEq] at h
    subst h
    rcases State.process_cases Config.kso s with ⟨-, h⟩ | ⟨-, -, h⟩ | ⟨-, -, -, h⟩ |
      ⟨-, -, -, -, h⟩ | ⟨-, -, -, -, h⟩ <;> rw [h] at herr ⊢
    · rfl
    · exact absurd rfl herr
    · rfl
    · rfl
    · exact absurd rfl herr

/-- Settles O29: a write to CTRL replaces IRQ_EN alone. -/
theorem irqIsDoneAndEnable : Obligations.IrqIsDoneAndEnable := by
  intro s t rest x
  refine ⟨Bool.and_eq_true_iff, fun hturn hstep => ?_⟩
  rw [step_writeReg (r := .ctrl) (by decide) hturn, State.writeReg, State.writeCtrl_eq,
    Host.Outcome.next.injEq] at hstep
  subst hstep
  refine ⟨rfl, fun hx => ?_, fun hx => ?_⟩
  · simp only [State.irq, hx, Bool.and_true]
  · simp only [State.irq, hx, Bool.and_false]

/-- A write to CMD always answers a next state (R65). -/
theorem issueCommand_next (s : State) (w : Word) : ∃ t, issueCommand exec s w = .next t := by
  rcases issueCommand_eq s w with ⟨i, -, h⟩ | ⟨-, h⟩
  · exact (exec_next i s).imp fun _ => h.trans
  · exact ⟨_, h⟩

/-- A register access always answers a next state (R66). -/
theorem regAccess_next (s : State) (r : Reg) (kind : AccessKind) (x : Word) :
    ∃ t, regAccess exec s r kind x = .next t := by
  cases kind with
  | read => exact ⟨_, rfl⟩
  | write =>
    unfold regAccess
    dsimp only
    split_ifs
    · exact issueCommand_next s x
    · exact ⟨_, rfl⟩

/-- A sample-RAM access that does not race answers a next state (R61). -/
theorem ramAccess_next {s : State} {k : Nat} (h : s.races k = false) (kind : AccessKind) (x : Word) :
    ∃ t, ramAccess s k kind x = .next t := by
  cases kind with
  | read => exact ⟨_, ramAccess_read h x⟩
  | write => exact ⟨_, ramAccess_write h x⟩

theorem unmappedAccess_next (s : State) (kind : AccessKind) :
    ∃ t, unmappedAccess s kind = .next t := by
  cases kind <;> exact ⟨_, rfl⟩

/-- A bus access answers a next state, or it is misused, or it races (R62, R68). -/
theorem busAccess_outcome (p : Params) (s : State) (a : Access) :
    (∃ t, busAccess exec p s a = .next t) ∨
    ((a.width ≠ 32 ∨ a.addr.toNat % 4 ≠ 0) ∧
      busAccess exec p s a = .fault (.busError a.addr a.width a.kind)) ∨
    ∃ k, k < p.sampleRamWords ∧ a.addr.toNat = 0x1000 + 4 * k ∧ s.races k = true ∧
      busAccess exec p s a = .fault (.ramRace k a.kind) := by
  by_cases hmisuse : a.width ≠ 32 ∨ a.addr.toNat % 4 ≠ 0
  · exact .inr (.inl ⟨hmisuse, busAccess_misuse p s hmisuse⟩)
  obtain ⟨hwidth, halign⟩ : a.width = 32 ∧ a.addr.toNat % 4 = 0 := by omega
  simp only [busAccess, Access.wf_iff.2 ⟨hwidth, halign⟩, if_true]
  rcases hreg : regAt a.addr.toNat with _ | r
  · rcases hram : ramIndex p a.addr.toNat with _ | k
    · exact .inl (unmappedAccess_next s a.kind)
    · obtain ⟨hlt, hbase, hk⟩ := ramIndex_eq_some hram
      have haddr : a.addr.toNat = 0x1000 + 4 * k := by
        simp only [ramBase] at hbase hk
        omega
      rcases hrace : s.races k with _ | _
      · exact .inl (ramAccess_next hrace a.kind a.data)
      · exact .inr (.inr ⟨k, hlt, haddr, hrace, ramAccess_race hrace a.kind a.data⟩)
  · exact .inl (regAccess_next s r a.kind a.data)

/-- Settles O34: a core step and RESET answer a next state, and a host access has the outcomes of
`busAccess_outcome`. -/
theorem onlyBusMisuseFaults : Obligations.OnlyBusMisuseFaults := by
  intro s
  rcases turn_cases s with ⟨rest, hturn⟩ | ⟨a, rest, hturn⟩ | ⟨rest, hturn⟩
  · rw [step_core hturn]
    exact ⟨nofun, nofun⟩
  · rw [step_bus hturn]
    rcases busAccess_outcome Config.kso { s with sched := rest } a with ⟨t, h⟩ | ⟨hmisuse, h⟩ |
      ⟨k, hk, haddr, hrace, h⟩ <;> rw [h]
    · exact ⟨nofun, nofun⟩
    · refine ⟨nofun, fun f hf => ⟨a, rest, hturn, .inl ⟨hmisuse, ?_⟩⟩⟩
      exact (Host.Outcome.fault.inj hf).symm
    · obtain ⟨r, hrun, hbuf⟩ := State.races_iff.1 hrace
      refine ⟨nofun, fun f hf => ⟨a, rest, hturn, .inr ⟨k, r, hk, haddr, hrun, hbuf, ?_⟩⟩⟩
      exact (Host.Outcome.fault.inj hf).symm
  · rw [step_hardReset hturn]
    exact ⟨nofun, nofun⟩

end Sys2Proof.Machine

/-! ### What a register write leaves alone (R23, R24, R26 to R29), field by field -/

namespace Sys2Proof.Machine

section
variable (s : State) (x : Word) (r : Reg)

theorem State.writeReg_err : (s.writeReg x r).err = s.err := by rw [State.writeReg_frame]
theorem State.writeReg_fidx : (s.writeReg x r).fidx = s.fidx := by rw [State.writeReg_frame]
theorem State.writeReg_run : (s.writeReg x r).run = s.run := by rw [State.writeReg_frame]
theorem State.writeReg_pend : (s.writeReg x r).pend = s.pend := by rw [State.writeReg_frame]
theorem State.writeReg_sr : (s.writeReg x r).sr = s.sr := by rw [State.writeReg_frame]
theorem State.writeReg_amounts : (s.writeReg x r).amounts = s.amounts := by
  rw [State.writeReg_frame]
theorem State.writeReg_dp : (s.writeReg x r).dp = s.dp := by rw [State.writeReg_frame]
theorem State.writeReg_ram : (s.writeReg x r).ram = s.ram := by rw [State.writeReg_frame]
theorem State.writeReg_sched : (s.writeReg x r).sched = s.sched := by rw [State.writeReg_frame]
theorem State.writeReg_ramRead (k : Nat) : (s.writeReg x r).ramRead k = s.ramRead k := by
  rw [State.writeReg_frame]
  rfl

end

end Sys2Proof.Machine

/-! ### What writes STATUS.ERR and STATUS.DONE (R215, R221) -/

namespace Sys2Proof.Machine

/-- A frame index beyond the count enables no core step (log entry 14). -/
theorem State.coreStep_beyond {p : Params} {s : State} {r : Run} (h : s.run = some r)
    (hi : r.n < r.i) : s.coreStep p = s := by
  simp only [State.coreStep, h, if_neg (by omega : ¬r.i < r.n), if_neg (by omega : ¬r.i = r.n)]

/-- A core step sets DONE by the completion alone (R200, R221). -/
theorem State.coreStep_done (p : Params) (s : State) :
    (s.coreStep p).done = s.done ∨
      ∃ r, s.run = some r ∧ r.i = r.n ∧ s.coreStep p = s.complete p := by
  rcases State.coreStep_cases p s with ⟨-, h⟩ | ⟨r, -, -, h⟩ | hcomplete | ⟨r, -, -, h⟩
  · exact .inl (by rw [h])
  · exact .inl (by rw [h, State.frame_eq])
  · exact .inr hcomplete
  · exact .inl (by rw [h])

/-- No core step writes STATUS.ERR, and none writes the schedule (R215). -/
theorem State.coreStep_err_sched (p : Params) (s : State) :
    (s.coreStep p).err = s.err ∧ (s.coreStep p).sched = s.sched := by
  rcases State.coreStep_cases p s with ⟨-, h⟩ | ⟨r, -, -, h⟩ | ⟨r, -, -, h⟩ | ⟨r, -, -, h⟩ <;> rw [h]
  · exact ⟨rfl, rfl⟩
  · rw [State.frame_eq]
    exact ⟨rfl, rfl⟩
  · rw [State.complete_eq]
    exact ⟨rfl, rfl⟩
  · exact ⟨rfl, rfl⟩

/-- A register write changes DONE only where it clears it through bit 2 of STATUS (R24, R221). -/
theorem State.writeReg_done (s : State) (x : Word) (r : Reg) :
    (s.writeReg x r).done = s.done ∨
      (r = .status ∧ x.getLsbD 2 = true ∧ (s.writeReg x r).done = false) := by
  cases r with
  | status =>
    rw [State.writeReg, State.writeStatus_eq]
    cases x.getLsbD 2 <;> simp
  | _ => exact .inl rfl

/-- A write to CMD changes DONE through an accepted PROCESS alone: a no-op sets it, one with frames
clears it (R199, R221). -/
theorem issueCommand_done {s t : State} {w : Word} (h : issueCommand exec s w = .next t) :
    t.done = s.done ∨
    (w = encode .process ∧ s.run = none ∧ s.noopRequest = true ∧
      t = State.accept { s with done := true }) ∨
    (w = encode .process ∧ s.run = none ∧ s.noopRequest = false ∧ s.outOfRam Config.kso = false ∧
      t = s.startProcess) := by
  rcases issueCommand_eq s w with ⟨i, hw, hi⟩ | ⟨-, hi⟩ <;> rw [hi] at h
  · cases i with
    | nop =>
      cases h
      exact .inl rfl
    | prepare =>
      cases h
      exact .inl (by rw [State.prepare_frame])
    | setParameters =>
      cases h
      exact .inl (by rw [State.setParameters_frame])
    | process =>
      rw [exec_process, Host.Outcome.next.injEq] at h
      subst h
      rcases State.process_cases Config.kso s with ⟨-, h⟩ | ⟨hrun, hnoop, h⟩ | ⟨-, -, -, h⟩ |
        ⟨-, -, -, -, h⟩ | ⟨hrun, hnoop, -, hram, h⟩
      · exact .inl (by rw [h, State.reject_done])
      · exact .inr (.inl ⟨hw, hrun, hnoop, h⟩)
      · exact .inl (by rw [h, State.reject_done])
      · exact .inl (by rw [h, State.reject_done])
      · exact .inr (.inr ⟨hw, hrun, hnoop, hram, h⟩)
  · cases h
    exact .inl rfl

/-- The steps that can change STATUS.ERR or STATUS.DONE: the core's, a register write, a write to CMD
and RESET. -/
theorem step_flags_cases {s t : State} (h : step s = .next t) :
    (t.err = s.err ∧ t.done = s.done) ∨
    (∃ rest, s.CoreTurn rest ∧ t = State.coreStep Config.kso { s with sched := rest }) ∨
    (∃ r x rest, s.HostTurn (wrAccess r x) rest ∧ t = State.writeReg { s with sched := rest } x r) ∨
    (∃ w rest, s.HostTurn (cmdWrite w) rest ∧
      issueCommand exec { s with sched := rest } w = .next t) ∨
    (∃ rest, s.sched = .hardReset :: rest ∧
      t = State.hardReset Config.kso { s with sched := rest }) := by
  rcases step_cases h with hcore | ⟨a, rest, hturn, hbus⟩ | hreset
  · exact .inr (.inl hcore)
  · rcases busAccess_cases hbus with ⟨-, v, rfl⟩ | ⟨r, -, ha, ht⟩ | ⟨ha, hcmd⟩ | ⟨k, -, -, -, rfl⟩ |
      ⟨-, rfl⟩
    · exact .inl ⟨rfl, rfl⟩
    · exact .inr (.inr (.inl ⟨r, a.data, rest, ha ▸ hturn, ht⟩))
    · exact .inr (.inr (.inr (.inl ⟨a.data, rest, ha ▸ hturn, hcmd⟩)))
    · exact .inl ⟨rfl, rfl⟩
    · exact .inl ⟨rfl, rfl⟩
  · exact .inr (.inr (.inr (.inr hreset)))

/-- Settles O35. -/
theorem errWrittenOnlyByCommands : Obligations.ErrWrittenOnlyByCommands := by
  intro s t h hne
  rcases step_flags_cases h with ⟨herr, -⟩ | ⟨rest, -, rfl⟩ | ⟨r, x, rest, -, rfl⟩ |
    ⟨w, rest, hturn, -⟩ | ⟨rest, hturn, -⟩
  · exact absurd herr hne
  · exact absurd (State.coreStep_err_sched _ _).1 hne
  · exact absurd (State.writeReg_err _ x r) hne
  · exact .inl ⟨w, rest, hturn⟩
  · exact .inr ⟨rest, hturn⟩

/-- What a step that changes DONE did (R221). -/
theorem step_done_cases {s t : State} (h : step s = .next t) :
    t.done = s.done ∨
    (∃ r rest, s.CoreTurn rest ∧ s.run = some r ∧ r.i = r.n ∧
      t = State.complete Config.kso { s with sched := rest }) ∨
    (∃ x rest, s.HostTurn (wrAccess .status x) rest ∧ x.getLsbD 2 = true ∧ t.done = false) ∨
    (∃ rest, s.HostTurn (cmdWrite (encode .process)) rest ∧ s.run = none ∧ s.noopRequest = true ∧
      t = State.accept { s with sched := rest, done := true }) ∨
    (∃ rest, s.HostTurn (cmdWrite (encode .process)) rest ∧ s.run = none ∧ s.noopRequest = false ∧
      s.outOfRam Config.kso = false ∧ t = State.startProcess { s with sched := rest }) ∨
    (∃ rest, s.sched = .hardReset :: rest ∧ t.done = false) := by
  rcases step_flags_cases h with ⟨-, hdone⟩ | ⟨rest, hturn, rfl⟩ | ⟨r, x, rest, hturn, rfl⟩ |
    ⟨w, rest, hturn, hcmd⟩ | ⟨rest, hturn, rfl⟩
  · exact .inl hdone
  · rcases State.coreStep_done Config.kso { s with sched := rest } with hdone | ⟨r, hrun, hi, hc⟩
    · exact .inl hdone
    · exact .inr (.inl ⟨r, rest, hturn, hrun, hi, hc⟩)
  · rcases State.writeReg_done { s with sched := rest } x r with hdone | ⟨rfl, hx, hdone⟩
    · exact .inl hdone
    · exact .inr (.inr (.inl ⟨x, rest, hturn, hx, hdone⟩))
  · rcases issueCommand_done hcmd with hdone | ⟨rfl, hnoop⟩ | ⟨rfl, hstart⟩
    · exact .inl hdone
    · exact .inr (.inr (.inr (.inl ⟨rest, hturn, hnoop⟩)))
    · exact .inr (.inr (.inr (.inr (.inl ⟨rest, hturn, hstart⟩))))
  · exact .inr (.inr (.inr (.inr (.inr ⟨rest, hturn, rfl⟩))))

/-- Settles O36: two of the cases of `step_done_cases` set DONE, and three clear it. -/
theorem doneChangesOnlyAsListed : Obligations.DoneChangesOnlyAsListed := by
  intro s t h
  rcases step_done_cases h with hsame | ⟨r, rest, hturn, hrun, hi, rfl⟩ |
    ⟨x, rest, hturn, hx, hclear⟩ | ⟨rest, hturn, hrun, hnoop, rfl⟩ |
    ⟨rest, hturn, hrun, hnoop, hram, rfl⟩ | ⟨rest, hturn, hclear⟩
  · rw [hsame]
    exact ⟨fun h0 h1 => absurd (h0.symm.trans h1) Bool.false_ne_true,
      fun h1 h0 => absurd (h0.symm.trans h1) Bool.false_ne_true⟩
  · exact ⟨fun _ _ => .inl ⟨r, rest, hturn, hrun, hi, rfl⟩, fun _ h0 => nomatch h0⟩
  · rw [hclear]
    exact ⟨nofun, fun _ _ => .inl ⟨x, rest, hturn, hx⟩⟩
  · exact ⟨fun _ _ => .inr ⟨rest, hturn, hrun, hrun, rfl, State.noopRequest_iff_regs.1 hnoop⟩,
      fun _ h0 => nomatch h0⟩
  · obtain ⟨hn, -⟩ := State.startProcess_run_ok hnoop hram
    exact ⟨fun _ h1 => (nomatch h1), fun _ _ => .inr (.inl ⟨_, rest, hturn, hrun, rfl, rfl, hn⟩)⟩
  · rw [hclear]
    exact ⟨nofun, fun _ _ => .inr (.inr ⟨rest, hturn⟩)⟩

end Sys2Proof.Machine

/-! ### The steps of the core with nothing scheduled (R200, R230, R248, R252) -/

namespace Sys2Proof.Machine

/-- Settles O18. -/
theorem idleCoreChangesNothing : Obligations.IdleCoreChangesNothing := by
  intro s rest hrun hturn
  rw [step_core hturn, State.coreStep_idle (s := { s with sched := rest }) hrun]

/-- With nothing scheduled, k steps are k steps of the core sequencer (R252). -/
theorem run_eq_iterate {s : State} (h : s.sched = []) (k : Nat) :
    Host.Core.run core k s = .next ((State.coreStep Config.kso)^[k] s) := by
  induction k generalizing s with
  | zero => rfl
  | succ k ih =>
    rw [run_succ h, ih ((State.coreStep_err_sched _ s).2.trans h), Function.iterate_succ_apply]

/-- No number of core steps writes STATUS.ERR (R215). -/
theorem State.iterate_coreStep_err (p : Params) (s : State) (k : Nat) :
    ((State.coreStep p)^[k] s).err = s.err := by
  induction k with
  | zero => rfl
  | succ k ih => rw [Function.iterate_succ_apply', (State.coreStep_err_sched p _).1, ih]

/-- Each core step of a running PROCESS does one frame, until none is left (R188). -/
theorem State.iterate_coreStep_running {p : Params} {s : State} {r : Run} (hrun : s.run = some r)
    {k : Nat} (hk : r.i + k ≤ r.n) :
    ((State.coreStep p)^[k] s).run = some { r with i := r.i + k } ∧
      (1 ≤ k → ((State.coreStep p)^[k] s).fidx = r.i + k) := by
  induction k with
  | zero => exact ⟨hrun, fun h => absurd h (by decide)⟩
  | succ k ih =>
    obtain ⟨hbefore, -⟩ := ih (by omega)
    rw [Function.iterate_succ_apply', State.coreStep_frame hbefore (show r.i + k < r.n by omega),
      State.frame_eq]
    exact ⟨rfl, fun _ => rfl⟩

/-- Settles O20: the frames that are left, then `State.complete`. -/
theorem processCompletesAfterItsFrames : Obligations.ProcessCompletesAfterItsFrames := by
  intro s r hrun hok hsched
  obtain ⟨-, -, -, -, -, hle⟩ := hok
  refine ⟨fun k hk => ⟨_, run_eq_iterate hsched k, State.iterate_coreStep_running hrun (by omega)⟩,
    _, run_eq_iterate hsched _, ?_⟩
  obtain ⟨hlast, hfidx⟩ :=
    State.iterate_coreStep_running (p := Config.kso) hrun (k := r.n - r.i) (by omega)
  have herr := State.iterate_coreStep_err Config.kso s (r.n - r.i)
  have hall : r.i + (r.n - r.i) = r.n := by omega
  rw [Function.iterate_succ_apply', State.coreStep_complete hlast hall, State.complete_eq]
  exact ⟨rfl, rfl, rfl, herr, fun hlt => (hfidx (by omega)).trans hall⟩

/-! ### Operand registers and the core (R81, R248) -/

section
variable (p : Params) (s : State) (x : Word) {r : Reg} (hr : r ∈ operandRegs)
include hr

/-- The fields the core writes are none that a write of an operand register reads or writes. -/
theorem State.writeReg_coreFields (done : Bool) (fidx : Nat) (amounts : Amounts)
    (pend : Option Amounts) (run : Option Run) (dp : Datapath) (ram : Memory) :
    State.writeReg { s with done, fidx, amounts, pend, run, dp, ram } x r =
      { s.writeReg x r with done, fidx, amounts, pend, run, dp, ram } := by
  simp only [operandRegs, List.mem_cons, List.not_mem_nil, or_false] at hr
  rcases hr with rfl | rfl | rfl | rfl | rfl | rfl | rfl | rfl <;> rfl

theorem State.writeReg_operand_done : (s.writeReg x r).done = s.done := by
  have h := congrArg State.done
    (State.writeReg_coreFields s x hr s.done s.fidx s.amounts s.pend s.run s.dp s.ram)
  exact h

theorem State.applyPending_writeReg :
    (s.writeReg x r).applyPending p = (s.applyPending p).writeReg x r := by
  have hpend := State.writeReg_pend s x r
  rcases h : s.pend with _ | m
  · rw [State.applyPending_none h, State.applyPending_none (hpend.trans h)]
  · rw [State.applyPending_some h, State.applyPending_some (hpend.trans h),
      ← State.writeReg_coreFields s x hr, State.writeReg_operand_done s x hr, State.writeReg_fidx,
      State.writeReg_run, State.writeReg_sr, State.writeReg_dp, State.writeReg_ram]

theorem State.frame_writeReg (q : Run) :
    (s.writeReg x r).frame p q = (s.frame p q).writeReg x r := by
  rw [State.frame_eq, State.frame_eq, State.applyPending_writeReg p s x hr]
  dsimp only
  rw [← State.writeReg_coreFields s x hr, State.writeReg_operand_done s x hr, State.writeReg_pend,
    State.writeReg_amounts, State.writeReg_dp, State.writeReg_ram, State.writeReg_ramRead,
    State.writeReg_ramRead]

theorem State.complete_writeReg : (s.writeReg x r).complete p = (s.complete p).writeReg x r := by
  rw [State.complete_eq, State.complete_eq, State.applyPending_writeReg p s x hr,
    ← State.writeReg_coreFields s x hr, State.writeReg_fidx, State.writeReg_pend,
    State.writeReg_amounts, State.writeReg_dp, State.writeReg_ram]

/-- A write of an operand register goes past a step of the core, which reads none of them (R248). -/
theorem State.coreStep_writeReg :
    (s.writeReg x r).coreStep p = (s.coreStep p).writeReg x r := by
  have hrun := State.writeReg_run s x r
  rcases State.coreStep_cases p s with ⟨hidle, h⟩ | ⟨q, hq, hi, h⟩ | ⟨q, hq, hi, h⟩ | ⟨q, hq, hi, h⟩ <;>
    rw [h]
  · exact State.coreStep_idle (hrun.trans hidle)
  · rw [State.coreStep_frame (hrun.trans hq) hi, State.frame_writeReg p s x hr]
  · rw [State.coreStep_complete (hrun.trans hq) hi, State.complete_writeReg p s x hr]
  · exact State.coreStep_beyond (hrun.trans hq) hi

end

/-- Settles O22: the write goes past each of the k steps in turn. -/
theorem operandRewriteIsInvisible : Obligations.OperandRewriteIsInvisible := by
  intro k s r x hr hsched
  have hsched' : (s.writeReg x r).sched = [] := (State.writeReg_sched s x r).trans hsched
  have hcommute : Function.Commute (State.coreStep Config.kso) fun s => s.writeReg x r :=
    fun s => State.coreStep_writeReg Config.kso s x hr
  refine ⟨_, run_eq_iterate hsched k, ?_⟩
  rw [run_eq_iterate hsched']
  exact congrArg _ (hcommute.iterate_left k s)

end Sys2Proof.Machine
